-- ==== Sys2Proof/Word.lean ====
section
/-! DEFINITION. The value types of the block, one per width the spec states (00_scope.md R7). -/

namespace Sys2Proof

/-- A 32-bit port word, register or checksum value (R7, R41). -/
abbrev Word := BitVec 32

/-- A buffer cell or a character code: 8 bits (R7, R29). -/
abbrev Byte := BitVec 8

/-- A 5-bit symbol (R7, R13). -/
abbrev Symbol := BitVec 5

/-- A byte address of the 4096-byte host window: 12 bits (R40, R41). -/
abbrev Addr := BitVec 12

/-- A length field: 9 bits (R7, R24 to R27). -/
abbrev Len := BitVec 9

end Sys2Proof
end

