-- ==== Sys2Proof/Config.lean ====
section
/-! DEFINITION. What the spec leaves open: the free values and the open parameter `BASE`. None of these constants has a
body, so no proof can learn a value of one, and what is proved holds for every value.

The open parameter `LATENCY` (R6, R135) is no number here: it is the place of the command unit's turn in
`Machine.State.turns` (log entry 4). -/

namespace Sys2Proof.Config

/-- The unspecified contents of a buffer (R30, R127; U1, U2, U3): `freeCell n i` is what cell `i` holds when the buffer's
contents were last left unspecified at draw `n` and nothing has written the cell since. Free value, log entry 1. -/
opaque freeCell (draw cell : Nat) : Byte

/-- The unspecified word a host read of RESULT, OUT_LEN, OUT2_LEN, BUF_O or BUF_P returns while BUSY = 1 (R70; U4), drawn
anew on each such read. Free value, log entry 2. -/
opaque freeRead (draw : Nat) : Word

/-- The unspecified value of CHK between commands (R36; U5). Free value, log entry 3. -/
opaque freeChk (draw : Nat) : Word

/-- The unspecified value of a converter's ACC between commands (R37; U5). Free value, log entry 3. -/
opaque freeAcc (draw : Nat) : BitVec 12

/-- The unspecified value of a converter's NBITS between commands (R37; U5); R37 bounds the register to 0..12.
Free value, log entry 3. -/
opaque freeNbits (draw : Nat) : Fin 13

/-- The open parameter `BASE`: where the platform puts the window in its own address map (R40; U7). No rule depends on
it (log entry 11). -/
opaque base : Nat

end Sys2Proof.Config
end

