-- ==== Sys2Proof/Machine/Result.lean ====
section
/-! DEFINITION. The outcome of a command (40_command_common.md R66) and the failure codes (60_exceptions.md R113). -/

namespace Sys2Proof.Machine

/-- The failure codes (R113), in the order of their numbers. -/
inductive FailCode where
  | invalidCharacter
  | mixedCase
  | separatorNotFound
  | stringTooLong
  | checksumMismatch
  | unknownVariant
  | invalidVersion
  | invalidProgramLength
  | versionVariantMismatch
  | bitConversionOverflow
  | emptyHrp
  | dataTooShort
  | hrpMismatch
  | emptyPayload
  | invalidPadding
  | invalidSymbol
  | outputOverflow
  | lengthError
  | illegalCommand
deriving DecidableEq, Repr

/-- The number of a code (R113), as FAILCODE holds it. -/
def failNumber : FailCode → BitVec 5
  | .invalidCharacter => 1
  | .mixedCase => 2
  | .separatorNotFound => 3
  | .stringTooLong => 4
  | .checksumMismatch => 5
  | .unknownVariant => 6
  | .invalidVersion => 7
  | .invalidProgramLength => 8
  | .versionVariantMismatch => 9
  | .bitConversionOverflow => 10
  | .emptyHrp => 11
  | .dataTooShort => 12
  | .hrpMismatch => 13
  | .emptyPayload => 14
  | .invalidPadding => 15
  | .invalidSymbol => 16
  | .outputOverflow => 17
  | .lengthError => 18
  | .illegalCommand => 19

/-- `Ok(a)` or `Fail(code)` (R12). -/
inductive Res (α : Type) where
  | ok (a : α)
  | fail (c : FailCode)
deriving DecidableEq, Repr

/-- Go on with the value of an `Ok`. A `raise Fail(code)` "ends the command at once": no later step runs (R11). -/
def Res.bind {α β : Type} (r : Res α) (f : α → Res β) : Res β :=
  match r with
  | .ok a => f a
  | .fail c => .fail c

/-- Raise `Fail(c)` if the check fails, that is if `bad` holds; else go on (R11). -/
def failIf {α : Type} (bad : Bool) (c : FailCode) (k : Res α) : Res α :=
  if bad then .fail c else k

/-- What an `Ok` carries (R66): the scalar result and the two output sequences. -/
structure Output where
  result : Word
  out : List Byte
  out2 : List Byte
deriving DecidableEq, Repr

end Sys2Proof.Machine
end

