-- ==== Sys2Proof/Machine/State.lean ====
section
/-! DEFINITION. The state of the block (10_state.md), and beside it the other agents' part that one deterministic step
needs: the host's program, the order of turns, the port's record and the counter of free values. -/

namespace Sys2Proof.Machine

/-- A buffer of 256 cells (R29), as the cells whose contents are specified, by rising index, each once. A cell that is not
listed holds an unspecified value (R30); `fill` says which draw of it. "Unlisted" is never the same as a listed value, so
no listed cell equals what an unlisted one reads as. -/
structure Memory where
  /-- The cells something has written since the contents were last left unspecified: (index, value). -/
  cells : List Host.Cell
  /-- The draw that fixes the unlisted cells. The model's own field (log entry 1). -/
  fill : Nat
deriving DecidableEq, Repr

/-- The fields of STATUS (R17) but BUSY. BUSY is 1 exactly while a command is in flight (R18, R38), so its one home is
`State.inflight`. The reserved bits read 0 (R17) and are not stored. -/
structure Status where
  /-- DONE, bit 1 (R19). -/
  done : Bool
  /-- OK, bit 2 (R20). -/
  ok : Bool
  /-- FAIL, bit 3 (R21). -/
  fail : Bool
  /-- WR_IGNORED, bit 4 (R22). -/
  wrIgnored : Bool
  /-- FAILCODE, bits 12:8 (R23). -/
  failcode : BitVec 5
deriving DecidableEq, Repr

/-- The two working registers of a bit-width converter (R37). -/
structure ConvRegs where
  /-- ACC, 12 bits. -/
  acc : BitVec 12
  /-- NBITS, 4 bits. -/
  nbits : BitVec 4
deriving DecidableEq, Repr

/-- The in-flight command (R38): the accepted word and the snapshot of every input it can read (R64). -/
structure InFlight where
  /-- The accepted CMD word. -/
  word : Word
  /-- HRP_LEN at acceptance. -/
  hlen : Len
  /-- IN_LEN at acceptance. -/
  ilen : Len
  /-- BUF_H at acceptance. -/
  bufH : Memory
  /-- BUF_I at acceptance. -/
  bufI : Memory
deriving DecidableEq, Repr

/-- A statement of a host program (R62), and the waiting loop `WAIT` of R63. The other pseudo-instructions of R63 expand
to lists of these. -/
inductive Stmt where
  /-- `WR a, v`: `MemWrite(a, 4, v)`. -/
  | wr (a : Addr) (v : Word)
  /-- `RD a`: `MemRead(a, 4)`, recording the value read. -/
  | rd (a : Addr)
  /-- `WAIT`: `RD STATUS`, repeated until DONE is read as 1. -/
  | wait
deriving DecidableEq, Repr

/-- Who moves next. The spec orders host accesses, completions and resets one after another but leaves open how they
interleave (R50, R115, R126, R135); a list of turns says it. -/
inductive Turn where
  /-- The host's next access. -/
  | host
  /-- The command unit's one kind of step, a completion (R50). -/
  | unit
  /-- The reset input (R126). -/
  | reset
deriving DecidableEq, Repr

/-- How a port transaction ends (R41). -/
inductive Response where
  /-- `OKAY`. -/
  | okay
  /-- `ERR`: the access had no effect. -/
  | err
deriving DecidableEq, Repr

/-- One finished port transaction, as the host saw it (R41, R137). -/
inductive PortRecord where
  /-- A read of address `a`, its response and its 32 data bits. -/
  | read (a : Addr) (r : Response) (v : Word)
  /-- A write of `v` to address `a`, and its response. -/
  | write (a : Addr) (v : Word) (r : Response)
deriving DecidableEq, Repr

/-- The machine. -/
structure State where
  /-- CMD (R16): the word of the last accepted command. -/
  cmd : Word
  /-- STATUS (R17) but BUSY. -/
  status : Status
  /-- HRP_LEN (R24): LEN, bits 8:0. -/
  hrpLen : Len
  /-- IN_LEN (R25): LEN, bits 8:0. -/
  inLen : Len
  /-- OUT_LEN (R26): LEN, bits 8:0. -/
  outLen : Len
  /-- OUT2_LEN (R27): LEN, bits 8:0. -/
  out2Len : Len
  /-- RESULT (R28). -/
  result : Word
  /-- BUF_H (R29). -/
  bufH : Memory
  /-- BUF_I (R29). -/
  bufI : Memory
  /-- BUF_O (R29). -/
  bufO : Memory
  /-- BUF_P (R29). -/
  bufP : Memory
  /-- CHK, the checksum engine's working register (R36). No rule reads it between commands. -/
  chk : Word
  /-- ACC and NBITS of bit_width_converter_8to5 (R37). No rule reads them between commands. -/
  conv85 : ConvRegs
  /-- ACC and NBITS of bit_width_converter_5to8 (R37). No rule reads them between commands. -/
  conv58 : ConvRegs
  /-- The in-flight command (R38). STATUS.BUSY is 1 exactly while there is one. -/
  inflight : Option InFlight
  /-- The statements the host has still to run (R62). The host's part, not the block's (log entry 4). -/
  host : List Stmt
  /-- The next turns, first one first; when none is listed the unit moves if a command is in flight, else the host does.
  The model's own field (log entry 4). -/
  turns : List Turn
  /-- The port transactions that have finished, oldest first (R137). The host's part, not the block's. -/
  log : List PortRecord
  /-- How many free values have been drawn. The model's own field (log entries 1 to 3). -/
  draws : Nat
deriving DecidableEq, Repr

/-- Why a meaning can stop. -/
inductive Fault where
  /-- Raised by every meaning (`completeInFlight`) when it is asked to complete a command while none is in flight. The
  block "never completes a command that was not accepted" (R136). `step` never raises it: it calls a meaning only for the
  command in flight. Safe: the model stops where the block has no such step. -/
  | noCommandInFlight
deriving DecidableEq, Repr

/-- Why the model can refuse. -/
inductive Refusal where
  /-- The instruction has no meaning yet. No arm of `exec` raises it: all thirteen have their meaning. Safe. -/
  | notModelled (mnemonic : String)
deriving DecidableEq, Repr

/-- The machine right after reset (R127): every register 0, no command in flight. Every buffer cell is unspecified: nothing
is listed, each buffer under a draw of its own. CHK, ACC and NBITS are unspecified after reset; the model names 0 for them
(DESIGN CHOICE, log entry 5, unsafe; no rule reads them). The host has no program yet: the block executes nothing until a
host writes CMD (R129). -/
def State.reset : State where
  cmd := 0
  status := { done := false, ok := false, fail := false, wrIgnored := false, failcode := 0 }
  hrpLen := 0
  inLen := 0
  outLen := 0
  out2Len := 0
  result := 0
  bufH := { cells := [], fill := 0 }
  bufI := { cells := [], fill := 1 }
  bufO := { cells := [], fill := 2 }
  bufP := { cells := [], fill := 3 }
  chk := 0
  conv85 := { acc := 0, nbits := 0 }
  conv58 := { acc := 0, nbits := 0 }
  inflight := none
  host := []
  turns := []
  log := []
  draws := 4

end Sys2Proof.Machine
end

