-- ==== Sys2Proof/Machine/Flags.lean ====
section
/-! DEFINITION. Every computation of a STATUS field (10_state.md R17 to R23): the block has no other flags (R32). -/

namespace Sys2Proof.Machine

/-- STATUS.BUSY (R18): a command is in flight. -/
def State.busy (s : State) : Bool := s.inflight.isSome

/-- The STATUS word (R17), reserved bits 0. -/
def statusWord (s : State) : Word :=
  0#19 ++ s.status.failcode ++ 0#3 ++ BitVec.ofBool s.status.wrIgnored ++ BitVec.ofBool s.status.fail ++
    BitVec.ofBool s.status.ok ++ BitVec.ofBool s.status.done ++ BitVec.ofBool s.busy

/-- The STATUS fields right after acceptance (R64): all clear, WR_IGNORED too. -/
def acceptedStatus : Status :=
  { done := false, ok := false, fail := false, wrIgnored := false, failcode := 0 }

/-- The STATUS fields after an `Ok` completion (R68). WR_IGNORED keeps its value. -/
def okStatus (st : Status) : Status :=
  { done := true, ok := true, fail := false, wrIgnored := st.wrIgnored, failcode := 0 }

/-- The STATUS fields after a `Fail(c)` completion (R69). WR_IGNORED keeps its value. -/
def failStatus (c : FailCode) (st : Status) : Status :=
  { done := true, ok := false, fail := true, wrIgnored := st.wrIgnored, failcode := failNumber c }

/-- The STATUS fields after a dropped write (R65): WR_IGNORED is set and nothing else changes. -/
def ignoredStatus (st : Status) : Status := { st with wrIgnored := true }

/-- The STATUS fields after reset (R127). -/
def resetStatus : Status :=
  { done := false, ok := false, fail := false, wrIgnored := false, failcode := 0 }

end Sys2Proof.Machine
end

