-- ==== Sys2Proof/Machine/Tables.lean ====
section
/-! DEFINITION. The block's parameters (00_scope.md R6) and its hardwired constant tables (10_state.md R33 to R35). -/

namespace Sys2Proof.Machine

/-- `CAP`, the cells of a buffer (R6). -/
def capacity : Nat := 256

/-- `MAX_STR`, the longest encoded string (R6). -/
def maxStr : Nat := 90

/-- `VER_MAX`, the largest legal witness version (R6). -/
def verMax : Nat := 16

/-- `PROG_MIN`, the fewest bytes of a witness program (R6). -/
def progMin : Nat := 2

/-- `PROG_MAX`, the most bytes of a witness program (R6). -/
def progMax : Nat := 40

/-- `V0_LENS`, the byte counts of a version-0 program (R6). -/
def v0Lens : List Nat := [20, 32]

/-- `CSUM_LEN`, the symbols of a checksum (R6). -/
def csumLen : Nat := 6

/-- The separator `1` (R13). -/
def separator : Byte := 0x31

/-- The two checksum variants (R13, R57). -/
inductive Variant where
  /-- VAR = 0. -/
  | bech32
  /-- VAR = 1. -/
  | bech32m
deriving DecidableEq, Repr

/-- `K(variant)`, the KVAR table (R35). -/
def variantConstant : Variant → Word
  | .bech32 => 0x00000001
  | .bech32m => 0x2bc830a3

/-- GEN (R34). -/
def generators : List Word := [0x3b6a57b2, 0x26508e6d, 0x1ea119fa, 0x3d4233dd, 0x2a1462b3]

/-- CHARSET (R33): entry s is the code of character s of "qpzry9x8gf2tvdw0s3jn54khce6mua7l". -/
def charset : List Byte :=
  [0x71, 0x70, 0x7A, 0x72, 0x79, 0x39, 0x78, 0x38] ++
  [0x67, 0x66, 0x32, 0x74, 0x76, 0x64, 0x77, 0x30] ++
  [0x73, 0x33, 0x6A, 0x6E, 0x35, 0x34, 0x6B, 0x68] ++
  [0x63, 0x65, 0x36, 0x6D, 0x75, 0x61, 0x37, 0x6C]

end Sys2Proof.Machine
end

