-- ==== Sys2Proof/Machine/Ops.lean ====
section
/-! DEFINITION. The named operations over the buffers and the registers: reading and writing cells and packed words,
accepting a command (R64), completing one with `Ok` (R68) or with `Fail` (R69, the block's one way to report a failure),
and reset (R126 to R128). -/

namespace Sys2Proof.Machine

/-! ### Buffers -/

/-- The value listed for a cell, if its contents are specified. -/
def lookupCell (i : Nat) : List Host.Cell → Option Byte
  | [] => none
  | (j, v) :: rest => if i = j then some v else lookupCell i rest

/-- List a value for a cell, keeping the indices rising and each index once. -/
def insertCell (i : Nat) (v : Byte) : List Host.Cell → List Host.Cell
  | [] => [(i, v)]
  | (j, w) :: rest =>
    if i < j then (i, v) :: (j, w) :: rest
    else if i = j then (i, v) :: rest
    else (j, w) :: insertCell i v rest

/-- `BufRead(B, i)` (R11): the cell's value, or the unspecified value an unlisted cell holds (R30). -/
def bufRead (m : Memory) (i : Nat) : Byte := (lookupCell i m.cells).getD (Config.freeCell m.fill i)

/-- `BufWrite(B, i, v)` (R11). -/
def bufWrite (m : Memory) (i : Nat) (v : Byte) : Memory := { m with cells := insertCell i v m.cells }

/-- Cells `0 .. n-1` in order, as a command reads its operand (R66). -/
def bufPrefix (m : Memory) (n : Nat) : List Byte := (List.range n).map (bufRead m)

/-- The canonical form of the listed cells from index `lo` on: rising indices, each once, all inside the buffer. -/
def cellsWf (lo : Nat) : List Host.Cell → Bool
  | [] => true
  | (i, _) :: rest => decide (lo ≤ i) && decide (i < capacity) && cellsWf (i + 1) rest

/-- A buffer is in canonical form. -/
def Memory.wf (m : Memory) : Bool := cellsWf 0 m.cells

/-- A buffer whose every cell is unspecified (R30). -/
def unspecifiedBuffer (draw : Nat) : Memory := { cells := [], fill := draw }

/-- Write the values of a list into cells `i, i+1, ...` in order, as the loops of R68 do. -/
def writeCells (m : Memory) (i : Nat) : List Byte → Memory
  | [] => m
  | v :: vs => writeCells (bufWrite m i v) (i + 1) vs

/-- A buffer after a completion: the output list in cells `0 .. len-1`, every other cell unspecified (R30, R68). -/
def outputBuffer (draw : Nat) (out : List Byte) : Memory := writeCells (unspecifiedBuffer draw) 0 out

/-- Read the word whose lowest cell is `i`, little-endian (R43): the one place that fixes the byte order of a read. -/
def readCells4 (m : Memory) (i : Nat) : Word :=
  bufRead m (i + 3) ++ bufRead m (i + 2) ++ bufRead m (i + 1) ++ bufRead m i

/-- Write the word whose lowest cell is `i`, little-endian (R43): all four cells at once (R46). -/
def writeCells4 (m : Memory) (i : Nat) (v : Word) : Memory :=
  writeCells m i [v.extractLsb' 0 8, v.extractLsb' 8 8, v.extractLsb' 16 8, v.extractLsb' 24 8]

/-! ### The life of a command -/

/-- Acceptance of a command word (R64): the word is stored, BUSY becomes 1, the other STATUS fields are cleared, and the
inputs are snapshotted. -/
def accept (s : State) (w : Word) : State :=
  { s with
    cmd := w
    status := acceptedStatus
    inflight := some { word := w, hlen := s.hrpLen, ilen := s.inLen, bufH := s.bufH, bufI := s.bufI } }

/-- What every completion leaves in the hidden working registers: unspecified values (R36, R37; U5), here free values. -/
def redrawHidden (s : State) : State :=
  { s with
    chk := Config.freeChk s.draws
    conv85 := { acc := Config.freeAcc s.draws, nbits := BitVec.ofNat 4 (Config.freeNbits s.draws).val }
    conv58 :=
      { acc := Config.freeAcc (s.draws + 1), nbits := BitVec.ofNat 4 (Config.freeNbits (s.draws + 1)).val }
    draws := s.draws + 2 }

/-- Completion with `Ok(result, out, out2)`, one atomic step (R68). -/
def completeOk (s : State) (o : Output) : State :=
  redrawHidden
    { s with
      result := o.result
      bufO := outputBuffer s.draws o.out
      bufP := outputBuffer (s.draws + 1) o.out2
      outLen := BitVec.ofNat 9 o.out.length
      out2Len := BitVec.ofNat 9 o.out2.length
      status := okStatus s.status
      inflight := none }

/-- Completion with `Fail(code)`, one atomic step (R69): the one way a failure is reported. It is no trap: nothing is
saved and no control is transferred (R112). -/
def completeFail (s : State) (c : FailCode) : State :=
  redrawHidden
    { s with
      result := 0
      bufO := unspecifiedBuffer s.draws
      bufP := unspecifiedBuffer (s.draws + 1)
      outLen := 0
      out2Len := 0
      status := failStatus c s.status
      inflight := none }

/-- Completion with an outcome (R66). -/
def complete (s : State) (r : Res Output) : State :=
  match r with
  | .ok o => completeOk s o
  | .fail c => completeFail s c

/-- Complete the command in flight with the outcome of its rule on the snapshot (R66). With none in flight there is
nothing to complete (R136). -/
def completeInFlight (s : State) (rule : InFlight → Res Output) : Host.Outcome State Fault Refusal :=
  match s.inflight with
  | some q => .next (complete s (rule q))
  | none => .fault .noCommandInFlight

/-- The reset input (R126 to R128): every register 0, a command in flight abandoned, every buffer cell and hidden register
unspecified. The host's own program, record and turns are outside the block and stay. -/
def resetBlock (s : State) : State :=
  { s with
    cmd := 0
    status := resetStatus
    hrpLen := 0
    inLen := 0
    outLen := 0
    out2Len := 0
    result := 0
    bufH := unspecifiedBuffer s.draws
    bufI := unspecifiedBuffer (s.draws + 1)
    bufO := unspecifiedBuffer (s.draws + 2)
    bufP := unspecifiedBuffer (s.draws + 3)
    chk := Config.freeChk s.draws
    conv85 := { acc := Config.freeAcc s.draws, nbits := BitVec.ofNat 4 (Config.freeNbits s.draws).val }
    conv58 :=
      { acc := Config.freeAcc (s.draws + 1), nbits := BitVec.ofNat 4 (Config.freeNbits (s.draws + 1)).val }
    inflight := none
    draws := s.draws + 4 }

end Sys2Proof.Machine
end

