-- ==== Sys2Proof/Machine/Port.lean ====
section
/-! DEFINITION. The host port (20_memory.md): the address map of the window and the two transactions, a word read and a
word write, at rest and while a command is in flight (40_command_common.md R65, R70). -/

namespace Sys2Proof.Machine

/-- What an aligned word address of the window names (R42). A buffer word is named by its lowest cell (R43). -/
inductive Loc where
  | cmd
  | status
  | hrpLen
  | inLen
  | outLen
  | out2Len
  | result
  | bufH (cell : Nat)
  | bufI (cell : Nat)
  | bufO (cell : Nat)
  | bufP (cell : Nat)
  /-- A reserved address: reads 0, ignores writes. -/
  | reserved
deriving DecidableEq, Repr

/-- The registers at the bottom of the window (R15, R42). -/
def locateRegister (n : Nat) : Loc :=
  match n with
  | 0x000 => .cmd
  | 0x004 => .status
  | 0x008 => .hrpLen
  | 0x00C => .inLen
  | 0x010 => .outLen
  | 0x014 => .out2Len
  | 0x018 => .result
  | _ => .reserved

/-- The address map (R42), for an aligned address. -/
def locate (a : Addr) : Loc :=
  if a.toNat < 0x400 then locateRegister a.toNat
  else if a.toNat < 0x500 then .bufH (a.toNat - 0x400)
  else if a.toNat < 0x600 then .bufI (a.toNat - 0x500)
  else if a.toNat < 0x700 then .bufO (a.toNat - 0x600)
  else if a.toNat < 0x800 then .bufP (a.toNat - 0x700)
  else .reserved

/-- An address is word-aligned: bits 1:0 are 0 (R45). -/
def aligned (a : Addr) : Bool := a.extractLsb' 0 2 == 0

/-- The response to an access: only a misaligned address gives `ERR` (R41, R45, R117). -/
def portResponse (a : Addr) : Response := if aligned a then .okay else .err

/-- A location whose reads return unspecified values while BUSY = 1 (R70). -/
def isOutput : Loc → Bool
  | .outLen | .out2Len | .result | .bufO _ | .bufP _ => true
  | .cmd | .status | .hrpLen | .inLen | .bufH _ | .bufI _ | .reserved => false

/-- The stored value of a location (R42), reserved bits 0 (R15). -/
def storedWord (s : State) : Loc → Word
  | .cmd => s.cmd
  | .status => statusWord s
  | .hrpLen => s.hrpLen.setWidth 32
  | .inLen => s.inLen.setWidth 32
  | .outLen => s.outLen.setWidth 32
  | .out2Len => s.out2Len.setWidth 32
  | .result => s.result
  | .bufH i => readCells4 s.bufH i
  | .bufI i => readCells4 s.bufI i
  | .bufO i => readCells4 s.bufO i
  | .bufP i => readCells4 s.bufP i
  | .reserved => 0

/-- A read draws a free value: an aligned read of an output location while BUSY = 1 (R70). -/
def readIsFree (s : State) (a : Addr) : Bool := aligned a && (s.busy && isOutput (locate a))

/-- The data of `MemRead(a, 4)` (R41, R42, R45, R70). -/
def readData (s : State) (a : Addr) : Word :=
  if aligned a then
    if readIsFree s a then Config.freeRead s.draws else storedWord s (locate a)
  else 0

/-- The state after `MemRead(a, 4)`: a read has no side effect (R47); the model only counts a free value drawn. -/
def afterRead (s : State) (a : Addr) : State := if readIsFree s a then { s with draws := s.draws + 1 } else s

/-- A write to a location while BUSY = 0 (R42): CMD launches a command, the inputs are stored, all else is ignored. -/
def storeAt (s : State) (l : Loc) (v : Word) : State :=
  match l with
  | .cmd => accept s v
  | .hrpLen => { s with hrpLen := v.setWidth 9 }
  | .inLen => { s with inLen := v.setWidth 9 }
  | .bufH i => { s with bufH := writeCells4 s.bufH i v }
  | .bufI i => { s with bufI := writeCells4 s.bufI i v }
  | .status => s
  | .outLen => s
  | .out2Len => s
  | .result => s
  | .bufO _ => s
  | .bufP _ => s
  | .reserved => s

/-- A dropped write (R65): WR_IGNORED becomes 1 and nothing else changes. -/
def dropWrite (s : State) : State := { s with status := ignoredStatus s.status }

/-- The state after `MemWrite(a, 4, v)` (R42, R45, R65). -/
def afterWrite (s : State) (a : Addr) (v : Word) : State :=
  if aligned a then
    if s.busy then dropWrite s else storeAt s (locate a) v
  else s

end Sys2Proof.Machine
end

