-- ==== Sys2Proof/Machine/HostAgent.lean ====
section
/-! DEFINITION. The host: one access of its program (30_encoding.md R62), and the pseudo-instructions of R63 as the lists
of statements they expand to. -/

namespace Sys2Proof.Machine

/-- The address of STATUS (R42). -/
def statusAddr : Addr := 0x004

/-- The address of CMD (R42). -/
def cmdAddr : Addr := 0x000

/-- The record of a read as the host sees it now. -/
def readRecord (s : State) (a : Addr) : PortRecord := .read a (portResponse a) (readData s a)

/-- `RD a` (R62): one read, recorded. -/
def hostRead (s : State) (a : Addr) : State :=
  { afterRead s a with log := s.log ++ [readRecord s a] }

/-- `WR a, v` (R62): one write, recorded. -/
def hostWrite (s : State) (a : Addr) (v : Word) : State :=
  { afterWrite s a v with log := s.log ++ [.write a v (portResponse a)] }

/-- The host's next access (R50 item 1, R62, R63): one port transaction, or none when its program is over. `WAIT` stays
until the STATUS it read has DONE = 1. -/
def hostStep (s : State) : State :=
  match s.host with
  | [] => s
  | .rd a :: rest => { hostRead s a with host := rest }
  | .wr a v :: rest => { hostWrite s a v with host := rest }
  | .wait :: rest =>
    { hostRead s statusAddr with host := if (readData s statusAddr).getLsbD 1 then rest else s.host }

/-- The values the program's reads returned, oldest first (R137). -/
def valuesRead : List PortRecord → List Word
  | [] => []
  | .read _ _ v :: rest => v :: valuesRead rest
  | .write _ _ _ :: rest => valuesRead rest

/-- The end of a run (R137): the last statement has completed and BUSY = 0. -/
def runOver (s : State) : Bool := s.host.isEmpty && !s.busy

/-! ### Pseudo-instructions (R63) -/

/-- The mnemonics of the opcode map (R58). -/
inductive Mnemonic where
  | nop
  | lutS2c
  | lutC2s
  | hrpExpand
  | polymod
  | csumCreate
  | csumVerify
  | conv8to5
  | conv5to8
  | strEncode
  | strDecode
  | addrEncode
  | addrDecode
deriving DecidableEq, Repr

/-- `OPC(<MNEMONIC>)` (R58). -/
def opcodeOf : Mnemonic → Word
  | .nop => 0x00
  | .lutS2c => 0x01
  | .lutC2s => 0x02
  | .hrpExpand => 0x03
  | .polymod => 0x04
  | .csumCreate => 0x05
  | .csumVerify => 0x06
  | .conv8to5 => 0x07
  | .conv5to8 => 0x08
  | .strEncode => 0x09
  | .strDecode => 0x0A
  | .addrEncode => 0x0B
  | .addrDecode => 0x0C

/-- The value `BECH32` or `BECH32M` stands for after `VAR=` (R63). -/
def variantValue : Variant → Word
  | .bech32 => 0
  | .bech32m => 1

/-- `OPC(<MNEMONIC>) | (v<<8) | (p<<10) | (i<<16)`, any values with any mnemonic; an omitted field is 0 (R63). -/
def cmdWord (m : Mnemonic) (v p i : Word := 0) : Word :=
  opcodeOf m ||| (v <<< 8) ||| (p <<< 10) ||| (i <<< 16)

/-- `CMD <MNEMONIC> [VAR=<v>] [PAD=<p>] [IMM=<i>]`: one write of that word to CMD. The word need not select a command. -/
def cmdStmts (m : Mnemonic) (v p i : Word := 0) : List Stmt := [.wr cmdAddr (cmdWord m v p i)]

/-- The word of four bytes, missing ones 0, first byte lowest. -/
def literalWord (b0 b1 b2 b3 : Byte) : Word := b3 ++ b2 ++ b1 ++ b0

/-- `LOAD <buf>, <bytes>`: the literal packed four bytes a word, from the word at address `base`; bytes beyond it are 0. -/
def loadStmts (base : Addr) : List Byte → List Stmt
  | [] => []
  | [a] => [.wr base (literalWord a 0 0 0)]
  | [a, b] => [.wr base (literalWord a b 0 0)]
  | [a, b, c] => [.wr base (literalWord a b c 0)]
  | a :: b :: c :: d :: rest => .wr base (literalWord a b c d) :: loadStmts (base + 4) rest

/-- `SETLEN <reg>, <bytes>`: one write of the literal's byte count. -/
def setlenStmts (reg : Addr) (bytes : List Byte) : List Stmt := [.wr reg (BitVec.ofNat 32 bytes.length)]

/-- `DUMP <buf>, <n>`: a read of each word `k` in `0 .. ceil(n/4)-1` of the buffer at `base`. -/
def dumpStmts (base : Addr) (n : Nat) : List Stmt :=
  (List.range ((n + 3) / 4)).map fun k => .rd (base + BitVec.ofNat 12 (4 * k))

end Sys2Proof.Machine
end

