-- ==== Sys2Proof/Syntax.lean ====
section
/-! DEFINITION. The thirteen commands of the block (30_encoding.md R58), one constructor per row of the opcode table,
each with the free fields of its row (R60) as operands. -/

namespace Sys2Proof

/-- A command. A field a row leaves free is an operand of its constructor at the field's own width, so a term cannot
hold a field value the command word has no room for. -/
inductive Instr where
  /-- NOP, opcode 0x00 (R71). -/
  | nop
  /-- LUT_S2C, opcode 0x01: symbol `imm` to its character (R77). -/
  | lutS2c (imm : Byte)
  /-- LUT_C2S, opcode 0x02: character code `imm` to its symbol (R78). -/
  | lutC2s (imm : Byte)
  /-- HRP_EXPAND, opcode 0x03 (R88). -/
  | hrpExpand
  /-- POLYMOD, opcode 0x04 (R89). -/
  | polymod
  /-- CSUM_CREATE, opcode 0x05, with the VAR field (R90). -/
  | csumCreate (var : BitVec 2)
  /-- CSUM_VERIFY, opcode 0x06, with the VAR field (R91). -/
  | csumVerify (var : BitVec 2)
  /-- CONV_8TO5, opcode 0x07, with the PAD flag (R96). -/
  | conv8to5 (pad : Bool)
  /-- CONV_5TO8, opcode 0x08, with the PAD flag (R97). -/
  | conv5to8 (pad : Bool)
  /-- STR_ENCODE, opcode 0x09, with the VAR field (R104). -/
  | strEncode (var : BitVec 2)
  /-- STR_DECODE, opcode 0x0A, with the VAR field (R105). -/
  | strDecode (var : BitVec 2)
  /-- ADDR_ENCODE, opcode 0x0B: `imm` is the witness version (R110). -/
  | addrEncode (imm : Byte)
  /-- ADDR_DECODE, opcode 0x0C (R111). -/
  | addrDecode
deriving DecidableEq, Repr

end Sys2Proof
end

