-- ==== Sys2Proof/Decode.lean ====
section
/-! DEFINITION. The command word CMD32: its fields (R55, R56), the decoder, the encoder, and the match and mask table of
R60 beside them. -/

namespace Sys2Proof

/-- Why a word selects no command (R59, R60). The block reports each as IllegalCommand (R113). -/
inductive DecodeError where
  /-- OPC is 0x0D to 0x1F (R59). -/
  | reservedOpcode
  /-- RES0, RES1 or RES2 is nonzero (R60). -/
  | reservedBits
  /-- A field the selected command does not use is nonzero (R60). -/
  | unusedField
deriving DecidableEq, Repr

/-! ### Fields (R55, R56) -/

/-- OPC, bits 4:0. -/
def opcField (w : Word) : BitVec 5 := w.extractLsb' 0 5

/-- VAR, bits 9:8. -/
def varField (w : Word) : BitVec 2 := w.extractLsb' 8 2

/-- PAD, bit 10. -/
def padField (w : Word) : Bool := w.getLsbD 10

/-- IMM, bits 23:16. -/
def immField (w : Word) : Byte := w.extractLsb' 16 8

/-- RES = w[31:24] ++ w[15:11] ++ w[7:5] (R56). -/
def resField (w : Word) : BitVec 16 :=
  w.extractLsb' 24 8 ++ w.extractLsb' 11 5 ++ w.extractLsb' 5 3

/-! ### Decoding -/

/-- A command that uses no field. -/
def plainCommand (i : Instr) (w : Word) : Except DecodeError Instr :=
  if varField w = 0 ∧ padField w = false ∧ immField w = 0 then .ok i else .error .unusedField

/-- A command that uses VAR only. -/
def varCommand (f : BitVec 2 → Instr) (w : Word) : Except DecodeError Instr :=
  if padField w = false ∧ immField w = 0 then .ok (f (varField w)) else .error .unusedField

/-- A command that uses PAD only. -/
def padCommand (f : Bool → Instr) (w : Word) : Except DecodeError Instr :=
  if varField w = 0 ∧ immField w = 0 then .ok (f (padField w)) else .error .unusedField

/-- A command that uses IMM only. -/
def immCommand (f : Byte → Instr) (w : Word) : Except DecodeError Instr :=
  if varField w = 0 ∧ padField w = false then .ok (f (immField w)) else .error .unusedField

/-- The opcode map (R58), for a word whose reserved bits are 0. -/
def decodeOpcode (opc : Nat) (w : Word) : Except DecodeError Instr :=
  match opc with
  | 0x00 => plainCommand .nop w
  | 0x01 => immCommand .lutS2c w
  | 0x02 => immCommand .lutC2s w
  | 0x03 => plainCommand .hrpExpand w
  | 0x04 => plainCommand .polymod w
  | 0x05 => varCommand .csumCreate w
  | 0x06 => varCommand .csumVerify w
  | 0x07 => padCommand .conv8to5 w
  | 0x08 => padCommand .conv5to8 w
  | 0x09 => varCommand .strEncode w
  | 0x0A => varCommand .strDecode w
  | 0x0B => immCommand .addrEncode w
  | 0x0C => plainCommand .addrDecode w
  | _ => .error .reservedOpcode

/-- The command a word selects, or why it selects none (R59, R60). Total on all 2^32 words. -/
def decode (w : Word) : Except DecodeError Instr :=
  if resField w = 0 then decodeOpcode (opcField w).toNat w else .error .reservedBits

/-! ### Encoding -/

/-- A CMD32 word from its four fields, with RES0, RES1 and RES2 zero (R55). -/
def packWord (opc : BitVec 5) (var : BitVec 2) (pad : Bool) (imm : Byte) : Word :=
  0#8 ++ imm ++ 0#5 ++ BitVec.ofBool pad ++ var ++ 0#3 ++ opc

/-- The word of a command (R58, R60). -/
def encode : Instr → Word
  | .nop => packWord 0x00 0 false 0
  | .lutS2c imm => packWord 0x01 0 false imm
  | .lutC2s imm => packWord 0x02 0 false imm
  | .hrpExpand => packWord 0x03 0 false 0
  | .polymod => packWord 0x04 0 false 0
  | .csumCreate var => packWord 0x05 var false 0
  | .csumVerify var => packWord 0x06 var false 0
  | .conv8to5 pad => packWord 0x07 0 pad 0
  | .conv5to8 pad => packWord 0x08 0 pad 0
  | .strEncode var => packWord 0x09 var false 0
  | .strDecode var => packWord 0x0A var false 0
  | .addrEncode imm => packWord 0x0B 0 false imm
  | .addrDecode => packWord 0x0C 0 false 0

/-! ### The match and mask table (R60) -/

/-- One row of the table of R60. -/
structure OpcodeRow where
  /-- The bits the row fixes. -/
  mask : Word
  /-- The values it fixes them to. -/
  value : Word
deriving DecidableEq, Repr

/-- `(w & mask(X)) == match(X)` (R60). -/
def rowMatches (r : OpcodeRow) (w : Word) : Bool := w &&& r.mask == r.value

/-- The row of a command (R60). The decoder above is written from the field layout; this table is written from R60's
match and mask columns, and the two are held against each other by statements. -/
def rowOf : Instr → OpcodeRow
  | .nop => ⟨0xFFFFFFFF, 0x00000000⟩
  | .lutS2c _ => ⟨0xFF00FFFF, 0x00000001⟩
  | .lutC2s _ => ⟨0xFF00FFFF, 0x00000002⟩
  | .hrpExpand => ⟨0xFFFFFFFF, 0x00000003⟩
  | .polymod => ⟨0xFFFFFFFF, 0x00000004⟩
  | .csumCreate _ => ⟨0xFFFFFCFF, 0x00000005⟩
  | .csumVerify _ => ⟨0xFFFFFCFF, 0x00000006⟩
  | .conv8to5 _ => ⟨0xFFFFFBFF, 0x00000007⟩
  | .conv5to8 _ => ⟨0xFFFFFBFF, 0x00000008⟩
  | .strEncode _ => ⟨0xFFFFFCFF, 0x00000009⟩
  | .strDecode _ => ⟨0xFFFFFCFF, 0x0000000A⟩
  | .addrEncode _ => ⟨0xFF00FFFF, 0x0000000B⟩
  | .addrDecode => ⟨0xFFFFFFFF, 0x0000000C⟩

/-- All thirteen rows of R60, in the table's order. -/
def opcodeRows : List OpcodeRow :=
  [rowOf .nop, rowOf (.lutS2c 0), rowOf (.lutC2s 0), rowOf .hrpExpand, rowOf .polymod,
   rowOf (.csumCreate 0), rowOf (.csumVerify 0)] ++
  [rowOf (.conv8to5 false), rowOf (.conv5to8 false), rowOf (.strEncode 0), rowOf (.strDecode 0),
   rowOf (.addrEncode 0), rowOf .addrDecode]

/-- The low `nbits` bits of `w` as a command word, every bit above them 0. A command is one 32-bit word (R61). -/
def tableWord (nbits w : Nat) : Word := BitVec.ofNat 32 (w % 2 ^ nbits)

/-- The command the decoder reads from a word numbered as the opcode table numbers it. -/
def decodeTableWord (nbits w : Nat) : Option Instr :=
  match decode (tableWord nbits w) with
  | .ok i => some i
  | .error _ => none

end Sys2Proof
end

