-- ==== Sys2Proof/Machine/Operands.lean ====
section
/-! DEFINITION. How a command reads its operands from the snapshot, with the checks R66 puts before a command's own rule:
the lengths (check 2), the variant (check 3), and the symbol check of R87. -/

namespace Sys2Proof.Machine

/-- H: cells `0 .. hlen-1` of BUF_H, or LengthError (R66 check 2, R24). -/
def hrpOperand (q : InFlight) : Res (List Byte) :=
  failIf (decide (capacity < q.hlen.toNat)) .lengthError (.ok (bufPrefix q.bufH q.hlen.toNat))

/-- I: cells `0 .. ilen-1` of BUF_I, or LengthError (R66 check 2, R25). -/
def inputOperand (q : InFlight) : Res (List Byte) :=
  failIf (decide (capacity < q.ilen.toNat)) .lengthError (.ok (bufPrefix q.bufI q.ilen.toNat))

/-- The variant VAR names, or UnknownVariant (R57, R66 check 3). -/
def variantOperand (var : BitVec 2) : Res Variant :=
  match var.toNat with
  | 0 => .ok .bech32
  | 1 => .ok .bech32m
  | _ => .fail .unknownVariant

/-- A list of cells read as symbols: InvalidSymbol if any is above 31, tested over the whole list first (R87). -/
def symbolOperand (cells : List Byte) : Res (List Symbol) :=
  failIf (cells.any fun v => decide (31 < v.toNat)) .invalidSymbol (.ok (cells.map (BitVec.setWidth 5)))

/-- A list of symbols as output cells (R44): each in the low five bits of its cell. -/
def symbolCells (symbols : List Symbol) : List Byte := symbols.map (BitVec.setWidth 8)

end Sys2Proof.Machine
end

