-- ==== Sys2Proof/Machine/Checksum.lean ====
section
/-! DEFINITION. The checksum engine (42_polymod_checksum.md): its functions, the operations of the sub-block over its
register CHK, and the commands HRP_EXPAND, POLYMOD, CSUM_CREATE and CSUM_VERIFY. -/

namespace Sys2Proof.Machine

/-- `hrpExpand(hrp) = [c >> 5 for c in hrp] ++ [0] ++ [c & 31 for c in hrp]` (R79). -/
def hrpExpand (hrp : List Byte) : List Symbol :=
  hrp.map (fun c : Byte => (c >>> 5).setWidth 5) ++ [0] ++ hrp.map (fun c : Byte => (c &&& 31).setWidth 5)

/-- The conditional XORs of R80: for each i in 0..4, `c ^ GEN[i]` if bit i of `top` is 1. -/
def generatorMix (top c : Word) : Word :=
  generators.zipIdx.foldl (fun acc g => if top.getLsbD g.2 then acc ^^^ g.1 else acc) c

/-- `polymodStep(chk, v)` (R80). -/
def polymodStep (chk : Word) (v : Symbol) : Word :=
  generatorMix (chk >>> 25) (((chk &&& 0x01ffffff) <<< 5) ^^^ v.setWidth 32)

/-- `init` of the engine (R86): `CHK <- 1`. -/
def engineInit : Word := 1

/-- `feed(v)` of the engine (R86): `CHK <- polymodStep(CHK, v)`. -/
def engineFeed (chk : Word) (v : Symbol) : Word := polymodStep chk v

/-- `polymod(values)` (R81): `init`, then one `feed` per value, in order. -/
def polymod (values : List Symbol) : Word := values.foldl engineFeed engineInit

/-- The six 5-bit groups of a checksum word, most significant first (R84): `g[p] = (mod >> (5 * (5 - p))) & 31`. -/
def checksumGroups (m : Word) : List Symbol :=
  (List.range csumLen).map fun p => ((m >>> (5 * (5 - p))) &&& 31).setWidth 5

/-- The word `mod` of `createChecksum` (R84): the engine's `create`, before the split into groups. -/
def createWord (hrp : List Byte) (data : List Symbol) (v : Variant) : Word :=
  polymod (hrpExpand hrp ++ data ++ List.replicate csumLen 0) ^^^ variantConstant v

/-- `createChecksum(hrp, data, variant)` (R84, R86 `create`): `mod` and its six groups. -/
def createChecksum (hrp : List Byte) (data : List Symbol) (v : Variant) : Word × List Symbol :=
  (createWord hrp data v, checksumGroups (createWord hrp data v))

/-- `verifyChecksum(hrp, data, variant)` (R85, R86 `verify`). -/
def verifyChecksum (hrp : List Byte) (data : List Symbol) (v : Variant) : Bool :=
  polymod (hrpExpand hrp ++ data) == variantConstant v

/-- HRP_EXPAND (R88). -/
def hrpExpandRule : InFlight → Res Output := fun q =>
  (hrpOperand q).bind fun h =>
  failIf (decide (capacity < 2 * h.length + 1)) .outputOverflow
    (.ok { result := 0, out := symbolCells (hrpExpand h), out2 := [] })

/-- POLYMOD (R89). -/
def polymodRule : InFlight → Res Output := fun q =>
  (inputOperand q).bind fun raw =>
  (symbolOperand raw).bind fun values =>
  .ok { result := polymod values, out := [], out2 := [] }

/-- CSUM_CREATE (R90). -/
def csumCreateRule (var : BitVec 2) : InFlight → Res Output := fun q =>
  (hrpOperand q).bind fun h =>
  (inputOperand q).bind fun raw =>
  (variantOperand var).bind fun v =>
  (symbolOperand raw).bind fun data =>
  .ok { result := (createChecksum h data v).1, out := symbolCells (createChecksum h data v).2, out2 := [] }

/-- CSUM_VERIFY (R91). A false verification is a result, not a failure. -/
def csumVerifyRule (var : BitVec 2) : InFlight → Res Output := fun q =>
  (hrpOperand q).bind fun h =>
  (inputOperand q).bind fun raw =>
  (variantOperand var).bind fun v =>
  (symbolOperand raw).bind fun data =>
  .ok { result := if verifyChecksum h data v then 1 else 0, out := [], out2 := [] }

/-- The meaning of HRP_EXPAND (R88). -/
def execHrpExpand (s : State) : Host.Outcome State Fault Refusal := completeInFlight s hrpExpandRule

/-- The meaning of POLYMOD (R89). -/
def execPolymod (s : State) : Host.Outcome State Fault Refusal := completeInFlight s polymodRule

/-- The meaning of CSUM_CREATE (R90). -/
def execCsumCreate (var : BitVec 2) (s : State) : Host.Outcome State Fault Refusal :=
  completeInFlight s (csumCreateRule var)

/-- The meaning of CSUM_VERIFY (R91). -/
def execCsumVerify (var : BitVec 2) (s : State) : Host.Outcome State Fault Refusal :=
  completeInFlight s (csumVerifyRule var)

end Sys2Proof.Machine
end

