-- ==== Sys2Proof/Machine/Common.lean ====
section
/-! DEFINITION. NOP (40_command_common.md R71). -/

namespace Sys2Proof.Machine

/-- NOP (R71): `Ok(0, [], [])`. -/
def nopRule : InFlight → Res Output := fun _ => .ok { result := 0, out := [], out2 := [] }

/-- The meaning of NOP (R71). -/
def execNop (s : State) : Host.Outcome State Fault Refusal := completeInFlight s nopRule

end Sys2Proof.Machine
end

