-- ==== Sys2Proof/Machine/Converter.lean ====
section
/-! DEFINITION. The bit-width converters (43_bit_converters.md): `convertbits` over the working registers ACC and NBITS,
written as the operations `start`, `push` and `finish` of the two sub-blocks, and the commands CONV_8TO5 and CONV_5TO8. -/

namespace Sys2Proof.Machine

/-- `start` (R94, R95): ACC and NBITS become 0 (R92). -/
def convStart : ConvRegs := { acc := 0, nbits := 0 }

/-- `maxv = (1 << t) - 1` (R92). -/
def groupMask (t : Nat) : BitVec 12 := BitVec.ofNat 12 (2 ^ t - 1)

/-- The `while NBITS >= t` loop of R92 from NBITS = `n`: what NBITS is at its end and the groups it emits. The first
argument bounds the rounds; `n` of them are always enough, since a round takes `t > 0` bits off. -/
def emitGroups (t : Nat) (acc : BitVec 12) : Nat → Nat → Nat × List Byte
  | 0, n => (n, [])
  | rounds + 1, n =>
    if t ≤ n then
      ((emitGroups t acc rounds (n - t)).1,
        ((acc >>> (n - t)) &&& groupMask t).setWidth 8 :: (emitGroups t acc rounds (n - t)).2)
    else (n, [])

/-- `push(v)` (R94, R95): one iteration of the loop of R92 over the values. ACC is 12 bits wide, which is the mask `macc`. -/
def convPush (f t : Nat) (r : ConvRegs) (v : Byte) : Res (ConvRegs × List Byte) :=
  failIf (decide (v.toNat / 2 ^ f ≠ 0)) .bitConversionOverflow
    (.ok
      ({ acc := (r.acc <<< f) ||| v.setWidth 12
         nbits :=
           BitVec.ofNat 4
             (emitGroups t ((r.acc <<< f) ||| v.setWidth 12) (r.nbits.toNat + f) (r.nbits.toNat + f)).1 },
        (emitGroups t ((r.acc <<< f) ||| v.setWidth 12) (r.nbits.toNat + f) (r.nbits.toNat + f)).2))

/-- The final partial group `(ACC << (t - NBITS)) & maxv` (R92). -/
def finalGroup (t : Nat) (r : ConvRegs) : Byte :=
  ((r.acc <<< (t - r.nbits.toNat)) &&& groupMask t).setWidth 8

/-- `finish()` (R94, R95): the part of R92 after the loop. -/
def convFinish (f t : Nat) (pad : Bool) (r : ConvRegs) : Res (List Byte) :=
  if pad then .ok (if 0 < r.nbits.toNat then [finalGroup t r] else [])
  else failIf (decide (f ≤ r.nbits.toNat) || finalGroup t r != 0) .invalidPadding (.ok [])

/-- The loop of R92 over the values from the registers `r`, then `finish`: all the groups emitted. -/
def convRun (f t : Nat) (pad : Bool) (r : ConvRegs) : List Byte → Res (List Byte)
  | [] => convFinish f t pad r
  | v :: vs =>
    (convPush f t r v).bind fun p =>
    (convRun f t pad p.1 vs).bind fun rest =>
    .ok (p.2 ++ rest)

/-- `convertbits(values, f, t, pad)` (R92). -/
def convertbits (values : List Byte) (f t : Nat) (pad : Bool) : Res (List Byte) :=
  convRun f t pad convStart values

/-- CONV_8TO5 (R96): InvalidPadding comes before OutputOverflow. -/
def conv8to5Rule (pad : Bool) : InFlight → Res Output := fun q =>
  (inputOperand q).bind fun values =>
  (convertbits values 8 5 pad).bind fun out =>
  failIf (decide (capacity < out.length)) .outputOverflow (.ok { result := 0, out := out, out2 := [] })

/-- CONV_5TO8 (R97). -/
def conv5to8Rule (pad : Bool) : InFlight → Res Output := fun q =>
  (inputOperand q).bind fun values =>
  (convertbits values 5 8 pad).bind fun out =>
  .ok { result := 0, out := out, out2 := [] }

/-- The meaning of CONV_8TO5 (R96). -/
def execConv8to5 (pad : Bool) (s : State) : Host.Outcome State Fault Refusal :=
  completeInFlight s (conv8to5Rule pad)

/-- The meaning of CONV_5TO8 (R97). -/
def execConv5to8 (pad : Bool) (s : State) : Host.Outcome State Fault Refusal :=
  completeInFlight s (conv5to8Rule pad)

end Sys2Proof.Machine
end

