-- ==== Sys2Proof/Machine/Lut.lean ====
section
/-! DEFINITION. The charset LUT (41_charset_lut.md): its two functions, its ports and the commands LUT_S2C and LUT_C2S. -/

namespace Sys2Proof.Machine

/-- `symbolToChar(s) = CHARSET[s]` (R74). -/
def symbolToChar (s : Symbol) : Byte := charset.getD s.toNat 0

/-- The position of the first entry equal to `c`, counting from `pos`. -/
def findEntry (c : Byte) (pos : Nat) : List Byte → Option Nat
  | [] => none
  | e :: rest => if e = c then some pos else findEntry c (pos + 1) rest

/-- `charToSymbol(c)`: `Found(s)` or `NotFound` (R75). Case-sensitive. -/
def charToSymbol (c : Byte) : Option Symbol := (findEntry c 0 charset).map (BitVec.ofNat 5)

/-- The output ports of `bech32_charset_lut` (R76). -/
structure LutPorts where
  chrOut : Byte
  found : Bool
  symOut : Symbol
deriving DecidableEq, Repr

/-- The sub-block `bech32_charset_lut` (R76): combinational, its outputs depend on its inputs alone; `sym_out` is 0 when
nothing is found. -/
def charsetLut (symIn : Symbol) (chrIn : Byte) : LutPorts :=
  { chrOut := symbolToChar symIn
    found := (charToSymbol chrIn).isSome
    symOut := (charToSymbol chrIn).getD 0 }

/-- LUT_S2C (R77). -/
def lutS2cRule (imm : Byte) : InFlight → Res Output := fun _ =>
  failIf (decide (31 < imm.toNat)) .invalidSymbol
    (.ok { result := (charsetLut (imm.setWidth 5) 0).chrOut.setWidth 32, out := [], out2 := [] })

/-- LUT_C2S (R78): symbol in bits 4:0, FOUND in bit 8. Not found is a result, not a failure. -/
def lutC2sRule (imm : Byte) : InFlight → Res Output := fun _ =>
  .ok
    { result := (charsetLut 0 imm).symOut.setWidth 32 ||| ((BitVec.ofBool (charsetLut 0 imm).found).setWidth 32 <<< 8)
      out := []
      out2 := [] }

/-- The meaning of LUT_S2C (R77). -/
def execLutS2c (imm : Byte) (s : State) : Host.Outcome State Fault Refusal := completeInFlight s (lutS2cRule imm)

/-- The meaning of LUT_C2S (R78). -/
def execLutC2s (imm : Byte) (s : State) : Host.Outcome State Fault Refusal := completeInFlight s (lutC2sRule imm)

end Sys2Proof.Machine
end

