-- ==== Sys2Proof/Machine/StringCodec.lean ====
section
/-! DEFINITION. The string codec (44_string_codec.md): `stringEncode`, `stringDecode` and the commands STR_ENCODE and
STR_DECODE. -/

namespace Sys2Proof.Machine

/-- An uppercase letter, 0x41..0x5A (R13, R99). -/
def isUpper (c : Byte) : Bool := decide (0x41 ≤ c.toNat) && decide (c.toNat ≤ 0x5A)

/-- A lowercase letter, 0x61..0x7A (R13, R99). -/
def isLower (c : Byte) : Bool := decide (0x61 ≤ c.toNat) && decide (c.toNat ≤ 0x7A)

/-- A printable character, 33..126 (R101 step 1). -/
def isPrintable (c : Byte) : Bool := decide (33 ≤ c.toNat) && decide (c.toNat ≤ 126)

/-- `lower(c)` (R98). -/
def lower (c : Byte) : Byte := if isUpper c then c + 0x20 else c

/-- `lower(s)` of a string (R98). -/
def lowerString (s : List Byte) : List Byte := s.map lower

/-- `mixedCase(s)` (R99). -/
def mixedCase (s : List Byte) : Bool := s.any isUpper && s.any isLower

/-- The largest index that holds `c` (R101 step 4). -/
def lastIndex (c : Byte) : List Byte → Option Nat
  | [] => none
  | x :: xs =>
    match lastIndex c xs with
    | some i => some (i + 1)
    | none => if x = c then some 0 else none

/-- The symbols of a list of characters, or InvalidCharacter if one is not in the charset (R101 step 5). -/
def charsToSymbols : List Byte → Res (List Symbol)
  | [] => .ok []
  | c :: cs =>
    match charToSymbol c with
    | none => .fail .invalidCharacter
    | some d => (charsToSymbols cs).bind fun ds => .ok (d :: ds)

/-- `stringEncode(hrp, data, variant)` (R100, R103): `hrp ++ "1" ++` the characters of the data and its checksum. -/
def stringEncode (hrp : List Byte) (data : List Symbol) (v : Variant) : List Byte :=
  hrp ++ [separator] ++ (data ++ (createChecksum hrp data v).2).map symbolToChar

/-- Steps 5 to 7 of `stringDecode` (R101), on the lowercased string split at `pos`. -/
def decodeSplit (s : List Byte) (pos : Nat) (v : Variant) : Res (List Byte × List Symbol) :=
  (charsToSymbols (s.drop (pos + 1))).bind fun d =>
  failIf (!verifyChecksum (s.take pos) d v) .checksumMismatch
    (.ok (s.take pos, d.take (d.length - csumLen)))

/-- Steps 4 to 7 of `stringDecode` (R101), on the lowercased string. -/
def decodeLowered (s : List Byte) (v : Variant) : Res (List Byte × List Symbol) :=
  match lastIndex separator s with
  | none => .fail .separatorNotFound
  | some pos =>
    failIf (decide (pos < 1)) .emptyHrp <|
    failIf (decide (s.length < pos + 7)) .dataTooShort <|
    failIf (decide (maxStr < s.length)) .stringTooLong <|
    decodeSplit s pos v

/-- `stringDecode(s, variant)` (R101, R103). -/
def stringDecode (s : List Byte) (v : Variant) : Res (List Byte × List Symbol) :=
  failIf (s.any fun c => !isPrintable c) .invalidCharacter <|
  failIf (mixedCase s) .mixedCase <|
  decodeLowered (lowerString s) v

/-- STR_ENCODE (R104): InvalidSymbol comes before OutputOverflow. -/
def strEncodeRule (var : BitVec 2) : InFlight → Res Output := fun q =>
  (hrpOperand q).bind fun h =>
  (inputOperand q).bind fun raw =>
  (variantOperand var).bind fun v =>
  (symbolOperand raw).bind fun data =>
  failIf (decide (capacity < h.length + data.length + 7)) .outputOverflow
    (.ok { result := 0, out := stringEncode h data v, out2 := [] })

/-- STR_DECODE (R105): the data symbols to BUF_O, the lowercased HRP to BUF_P. -/
def strDecodeRule (var : BitVec 2) : InFlight → Res Output := fun q =>
  (inputOperand q).bind fun str =>
  (variantOperand var).bind fun v =>
  (stringDecode str v).bind fun r =>
  .ok { result := 0, out := symbolCells r.2, out2 := r.1 }

/-- The meaning of STR_ENCODE (R104). -/
def execStrEncode (var : BitVec 2) (s : State) : Host.Outcome State Fault Refusal :=
  completeInFlight s (strEncodeRule var)

/-- The meaning of STR_DECODE (R105). -/
def execStrDecode (var : BitVec 2) (s : State) : Host.Outcome State Fault Refusal :=
  completeInFlight s (strDecodeRule var)

end Sys2Proof.Machine
end

