-- ==== Sys2Proof/Machine/WitnessAddress.lean ====
section
/-! DEFINITION. The witness address codec (45_witness_address.md): `addressDecode`, `addressEncode` and the commands
ADDR_ENCODE and ADDR_DECODE. -/

namespace Sys2Proof.Machine

/-- A decoded witness address (R106, R109): the version, the program, and M, which records that BECH32M was used. -/
structure Witness where
  version : Symbol
  program : List Byte
  bech32m : Bool
deriving DecidableEq, Repr

/-- Step 1 of `addressDecode` (R106): BECH32 first, then BECH32M; when both fail, the second attempt's code. -/
def decodeEither (s : List Byte) : Res ((List Byte × List Symbol) × Bool) :=
  match stringDecode s .bech32 with
  | .ok r => .ok (r, false)
  | .fail _ => (stringDecode s .bech32m).bind fun r => .ok (r, true)

/-- Steps 3 to 6 of `addressDecode` (R106): the program behind the version symbol, its length and the variant policy. -/
def checkWitness (ver : Symbol) (rest : List Symbol) (m : Bool) : Res Witness :=
  (convertbits (symbolCells rest) 5 8 false).bind fun p =>
  failIf (decide (p.length < progMin) || decide (progMax < p.length)) .invalidProgramLength <|
  if ver = 0 then
    failIf (!v0Lens.contains p.length) .invalidProgramLength <|
    failIf m .versionVariantMismatch <|
    .ok { version := ver, program := p, bech32m := m }
  else
    failIf (!m) .versionVariantMismatch <|
    .ok { version := ver, program := p, bech32m := m }

/-- `addressDecode(eh, s)` (R106, R109 `decode`). The expected HRP is compared as given. -/
def addressDecode (eh s : List Byte) : Res Witness :=
  (decodeEither s).bind fun r =>
  failIf (r.1.1 != eh) .hrpMismatch <|
  match r.1.2 with
  | [] => .fail .emptyPayload
  | ver :: rest =>
    failIf (decide (verMax < ver.toNat)) .invalidVersion <|
    checkWitness ver rest r.2

/-- The variant of a witness version (R107 step 1). -/
def versionVariant (ver : Byte) : Variant := if ver = 0 then .bech32 else .bech32m

/-- `addressEncode(hrp, ver, prog)` (R107, R109 `encode`): the string, after the self-check has decoded it. -/
def addressEncode (hrp : List Byte) (ver : Byte) (prog : List Byte) : Res (List Byte × Bool) :=
  failIf (decide (31 < ver.toNat)) .invalidVersion <|
  (convertbits prog 8 5 true).bind fun groups =>
  (addressDecode hrp
    (stringEncode hrp (ver.setWidth 5 :: groups.map (BitVec.setWidth 5)) (versionVariant ver))).bind fun _ =>
  .ok (stringEncode hrp (ver.setWidth 5 :: groups.map (BitVec.setWidth 5)) (versionVariant ver), ver != 0)

/-- RESULT of ADDR_ENCODE and ADDR_DECODE (R28): the version, and M in bit 8. -/
def witnessResult (ver : Byte) (m : Bool) : Word := ver.setWidth 32 ||| ((BitVec.ofBool m).setWidth 32 <<< 8)

/-- ADDR_ENCODE (R110). -/
def addrEncodeRule (imm : Byte) : InFlight → Res Output := fun q =>
  (hrpOperand q).bind fun h =>
  (inputOperand q).bind fun prog =>
  (addressEncode h imm prog).bind fun r =>
  .ok { result := witnessResult imm r.2, out := r.1, out2 := [] }

/-- ADDR_DECODE (R111). -/
def addrDecodeRule : InFlight → Res Output := fun q =>
  (hrpOperand q).bind fun h =>
  (inputOperand q).bind fun str =>
  (addressDecode h str).bind fun w =>
  .ok { result := witnessResult (w.version.setWidth 8) w.bech32m, out := w.program, out2 := [] }

/-- The meaning of ADDR_ENCODE (R110). -/
def execAddrEncode (imm : Byte) (s : State) : Host.Outcome State Fault Refusal :=
  completeInFlight s (addrEncodeRule imm)

/-- The meaning of ADDR_DECODE (R111). -/
def execAddrDecode (s : State) : Host.Outcome State Fault Refusal := completeInFlight s addrDecodeRule

end Sys2Proof.Machine
end

