-- ==== Sys2Proof/Machine/Dispatch.lean ====
section
/-! DEFINITION. One arm per command of the opcode map (30_encoding.md R58): what completing it does to the state. -/

namespace Sys2Proof.Machine

def exec (i : Instr) (s : State) : Host.Outcome State Fault Refusal :=
  match i with
  | .nop => Sys2Proof.Machine.execNop s
  | .lutS2c imm => Sys2Proof.Machine.execLutS2c imm s
  | .lutC2s imm => Sys2Proof.Machine.execLutC2s imm s
  | .hrpExpand => Sys2Proof.Machine.execHrpExpand s
  | .polymod => Sys2Proof.Machine.execPolymod s
  | .csumCreate var => Sys2Proof.Machine.execCsumCreate var s
  | .csumVerify var => Sys2Proof.Machine.execCsumVerify var s
  | .conv8to5 pad => Sys2Proof.Machine.execConv8to5 pad s
  | .conv5to8 pad => Sys2Proof.Machine.execConv5to8 pad s
  | .strEncode var => Sys2Proof.Machine.execStrEncode var s
  | .strDecode var => Sys2Proof.Machine.execStrDecode var s
  | .addrEncode imm => Sys2Proof.Machine.execAddrEncode imm s
  | .addrDecode => Sys2Proof.Machine.execAddrDecode s

end Sys2Proof.Machine
end

