-- ==== Sys2Proof/Machine/Unit.lean ====
section
/-! DEFINITION. The command unit: completing the command in flight (40_command_common.md R66). -/

namespace Sys2Proof.Machine

/-- The unit's one kind of step (R50): the completion of the command in flight. A word that selects no command completes
with Fail(IllegalCommand) (R59, R66 check 1). With none in flight the unit has no step to take (R136). -/
def unitStep (s : State) : Host.Outcome State Fault Refusal :=
  match s.inflight with
  | none => .next s
  | some q =>
    match decode q.word with
    | .ok i => exec i s
    | .error _ => .next (completeFail s .illegalCommand)

/-- Whose turn it is (R50, R115, R126), and the state with that turn taken off the list. Beyond the listed turns the unit
moves while a command is in flight, else the host: every accepted command then completes (R135). -/
def takeTurn (s : State) : Turn × State :=
  match s.turns with
  | [] => (if s.busy then .unit else .host, s)
  | t :: rest => (t, { s with turns := rest })

/-- A command word put in flight for the very next step: acceptance (R64), and the unit's turn at the head of the turns. -/
def launchNext (s : State) (w : Word) : State := { accept s w with turns := .unit :: s.turns }

end Sys2Proof.Machine
end

