-- ==== Sys2Proof/Machine/Step.lean ====
section
/-! DEFINITION. One step of the whole machine: one host access, one completion or one reset (R50, R126). -/

namespace Sys2Proof.Machine

/-- One step: whoever's turn it is moves once. -/
def step (s : State) : Host.Outcome State Fault Refusal :=
  match takeTurn s with
  | (.host, t) => .next (hostStep t)
  | (.unit, t) => unitStep t
  | (.reset, t) => .next (resetBlock t)

/-- The state with a command word in flight, so that the very next step completes it. The block fetches nothing (R31): its
next instruction is the word the host last wrote to CMD (log entry 6). -/
def State.withFetchWord (s : State) (nbits w : Nat) : State := launchNext s (tableWord nbits w)

end Sys2Proof.Machine
end

