-- ==== Sys2Proof/Safety.lean ====
section
/-! DEFINITION. The terms statements use: what holds of every state a run reaches, what a completion leaves, and the source's
codecs as relations on their inputs and outputs, written without the functions the machine computes them with. -/

namespace Sys2Proof.Machine

/-! ### What every step keeps -/

/-- The STATUS fields agree with each other (R17 to R23, R70, R113). -/
structure StatusLegal (s : State) : Prop where
  /-- While a command is in flight DONE, OK and FAIL are 0 and FAILCODE is 0 (R19 to R21, R23, R70). -/
  busyClear : s.busy = true →
    s.status.done = false ∧ s.status.ok = false ∧ s.status.fail = false ∧ s.status.failcode = 0
  /-- A completion sets DONE and exactly one of OK and FAIL (R19 to R21). -/
  doneIff : s.status.done = (s.status.ok || s.status.fail)
  /-- OK and FAIL are never both 1 (R21). -/
  notBoth : (s.status.ok && s.status.fail) = false
  /-- FAILCODE is 0 unless the last command failed (R23). -/
  codeZero : s.status.fail = false → s.status.failcode = 0
  /-- A failure's code is one of 1 to 19 (R113; U16: 20 to 31 are never written). -/
  codeRange : s.status.fail = true → 1 ≤ s.status.failcode.toNat ∧ s.status.failcode.toNat ≤ 19

/-- Every buffer, and every buffer of the snapshot, is in canonical form (R29). -/
structure BuffersCanonical (s : State) : Prop where
  h : s.bufH.wf = true
  i : s.bufI.wf = true
  o : s.bufO.wf = true
  p : s.bufP.wf = true
  snapshot : ∀ q, s.inflight = some q → q.bufH.wf = true ∧ q.bufI.wf = true

/-- While a command is in flight, CMD and the inputs still hold what was accepted (R38, R65). -/
def SnapshotCurrent (s : State) : Prop :=
  ∀ q, s.inflight = some q →
    q.word = s.cmd ∧ q.hlen = s.hrpLen ∧ q.ilen = s.inLen ∧ q.bufH = s.bufH ∧ q.bufI = s.bufI

/-- The specified cells of BUF_O and BUF_P are exactly those below OUT_LEN and OUT2_LEN, and neither length is above `CAP`
(R26, R27, R30). -/
structure OutputsListed (s : State) : Prop where
  outLe : s.outLen.toNat ≤ capacity
  out2Le : s.out2Len.toNat ≤ capacity
  outCells : s.bufO.cells.map Prod.fst = List.range s.outLen.toNat
  out2Cells : s.bufP.cells.map Prod.fst = List.range s.out2Len.toNat

/-- NBITS of either converter is in 0..12 (R37). -/
structure NbitsBounded (s : State) : Prop where
  to5 : s.conv85.nbits.toNat ≤ 12
  to8 : s.conv58.nbits.toNat ≤ 12

/-- No two buffers share a draw and none uses a draw still to come, so that unspecified cells are drawn independently
(R30). About the model's own fields. -/
structure DrawsFresh (s : State) : Prop where
  distinct : [s.bufH.fill, s.bufI.fill, s.bufO.fill, s.bufP.fill].Nodup
  past : ∀ n ∈ [s.bufH.fill, s.bufI.fill, s.bufO.fill, s.bufP.fill], n < s.draws

/-- The invariant of the machine. -/
structure Inv (s : State) : Prop where
  status : StatusLegal s
  buffers : BuffersCanonical s
  snapshot : SnapshotCurrent s
  outputs : OutputsListed s
  nbits : NbitsBounded s
  draws : DrawsFresh s

/-- `u` is `s` at a turn of the host, that turn taken off the list: it is the next one listed, or none is listed and no
command is in flight (log entry 4). -/
def HostTurn (s u : State) : Prop :=
  (s.turns = [] ∧ s.busy = false ∧ u = s) ∨ ∃ ts, s.turns = .host :: ts ∧ u = { s with turns := ts }

/-! ### What a completion leaves -/

/-- What no command changes (R24, R25, R30, R68, R69): CMD, the inputs, WR_IGNORED, and everything outside the block. What it
leaves out is what every completion writes or leaves unspecified: RESULT, the output lengths, BUF_O, BUF_P, the other
STATUS fields (R68, R69) and the hidden registers CHK, ACC and NBITS (R36, R37). -/
structure InputsKept (s t : State) : Prop where
  cmd : t.cmd = s.cmd
  hrpLen : t.hrpLen = s.hrpLen
  inLen : t.inLen = s.inLen
  bufH : ∀ i, bufRead t.bufH i = bufRead s.bufH i
  bufI : ∀ i, bufRead t.bufI i = bufRead s.bufI i
  wrIgnored : t.status.wrIgnored = s.status.wrIgnored
  host : t.host = s.host
  turns : t.turns = s.turns
  log : t.log = s.log

/-- The buffer holds the list from cell 0 on, and every other cell is unspecified (R30). -/
structure HoldsExactly (m : Memory) (out : List Byte) : Prop where
  listed : ∀ i (h : i < out.length), bufRead m i = out[i]
  unlisted : ∀ i, out.length ≤ i → lookupCell i m.cells = none

/-- `t` is `s` after a completion with `Ok(r, out, out2)` (R68). -/
structure OkCompletion (s t : State) (r : Word) (out out2 : List Byte) : Prop where
  kept : InputsKept s t
  result : t.result = r
  outLen : t.outLen.toNat = out.length
  out2Len : t.out2Len.toNat = out2.length
  bufO : HoldsExactly t.bufO out
  bufP : HoldsExactly t.bufP out2
  busy : t.busy = false
  done : t.status.done = true
  ok : t.status.ok = true
  fail : t.status.fail = false
  failcode : t.status.failcode = 0

/-- `t` is `s` after a completion with `Fail`, `code` being the number of the code (R69). -/
structure FailCompletion (s t : State) (code : Nat) : Prop where
  kept : InputsKept s t
  result : t.result = 0
  outLen : t.outLen = 0
  out2Len : t.out2Len = 0
  bufO : HoldsExactly t.bufO []
  bufP : HoldsExactly t.bufP []
  busy : t.busy = false
  done : t.status.done = true
  ok : t.status.ok = false
  fail : t.status.fail = true
  failcode : t.status.failcode.toNat = code

/-- Completing command `i` in `s` answers a next state, an `Ok` completion with these outputs. -/
def CompletesOk (i : Instr) (s : State) (r : Word) (out out2 : List Byte) : Prop :=
  ∃ t, exec i s = .next t ∧ OkCompletion s t r out out2

/-- Completing command `i` in `s` answers a next state, a `Fail` completion with this code. -/
def CompletesFail (i : Instr) (s : State) (code : Nat) : Prop :=
  ∃ t, exec i s = .next t ∧ FailCompletion s t code

/-- Two states show the same outcome of a completed command: STATUS but WR_IGNORED, RESULT, the output lengths and the
specified output cells. -/
structure SameOutcome (t u : State) : Prop where
  done : t.status.done = u.status.done
  ok : t.status.ok = u.status.ok
  fail : t.status.fail = u.status.fail
  failcode : t.status.failcode = u.status.failcode
  result : t.result = u.result
  outLen : t.outLen = u.outLen
  out2Len : t.out2Len = u.out2Len
  bufO : t.bufO.cells = u.bufO.cells
  bufP : t.bufP.cells = u.bufP.cells

/-- H of R66: cells `0 .. hlen-1` of BUF_H. -/
def InFlight.hrp (q : InFlight) : List Byte := bufPrefix q.bufH q.hlen.toNat

/-- I of R66: cells `0 .. ilen-1` of BUF_I. -/
def InFlight.input (q : InFlight) : List Byte := bufPrefix q.bufI q.ilen.toNat

/-- Every cell of a list is a symbol, 0..31 (R87). -/
def AllSymbols (l : List Byte) : Prop := ∀ v ∈ l, v.toNat ≤ 31

/-- VAR = 0 names BECH32 and VAR = 1 names BECH32M (R57). -/
def NamesVariant (var : BitVec 2) (v : Variant) : Prop := (var = 0 ∧ v = .bech32) ∨ (var = 1 ∧ v = .bech32m)

/-- The commands with HRP_LEN among their inputs (R58). -/
def readsHrpLen : Instr → Bool
  | .hrpExpand | .csumCreate _ | .csumVerify _ | .strEncode _ | .addrEncode _ | .addrDecode => true
  | .nop | .lutS2c _ | .lutC2s _ | .polymod | .conv8to5 _ | .conv5to8 _ | .strDecode _ => false

/-- The commands with IN_LEN among their inputs (R58). -/
def readsInLen : Instr → Bool
  | .polymod | .csumCreate _ | .csumVerify _ | .conv8to5 _ | .conv5to8 _ => true
  | .strEncode _ | .strDecode _ | .addrEncode _ | .addrDecode => true
  | .nop | .lutS2c _ | .lutC2s _ | .hrpExpand => false

/-- The VAR field of a command that uses it (R58). -/
def varUsed : Instr → Option (BitVec 2)
  | .csumCreate var | .csumVerify var | .strEncode var | .strDecode var => some var
  | .nop | .lutS2c _ | .lutC2s _ | .hrpExpand | .polymod | .conv8to5 _ | .conv5to8 _ => none
  | .addrEncode _ | .addrDecode => none

/-! ### The source's codecs as relations -/

/-- The bits of a list of `w`-bit values as one stream, most significant bit first, first value first (R44, R93 law 1). -/
def bitStream (w : Nat) (values : List Byte) : List Bool :=
  values.flatMap fun v => (List.range w).map fun i => v.getLsbD (w - 1 - i)

/-- `out` regroups `values` from `f`-bit to `t`-bit groups (R93): the same bitstream, but for zero bits at its end. With
padding fewer than `t` zero bits are added; without, fewer than `t` and fewer than `f` are dropped. -/
structure Regroups (f t : Nat) (pad : Bool) (values out : List Byte) : Prop where
  valuesFit : ∀ v ∈ values, v.toNat < 2 ^ f
  outFit : ∀ v ∈ out, v.toNat < 2 ^ t
  added : pad = true → ∃ k, k < t ∧ bitStream t out = bitStream f values ++ List.replicate k false
  dropped : pad = false →
    ∃ k, k < t ∧ k < f ∧ bitStream f values = bitStream t out ++ List.replicate k false

/-- `s` is a string of variant `v` with this HRP (lowercased) and these data symbols (R101): printable, of one case, at most
90 characters, a non-empty HRP, the last `1`, data and six checksum characters of the charset that verify. -/
structure IsBech32String (v : Variant) (s hrp : List Byte) (data : List Symbol) : Prop where
  printable : ∀ c ∈ s, 33 ≤ c.toNat ∧ c.toNat ≤ 126
  oneCase : ¬ ((∃ c ∈ s, 0x41 ≤ c.toNat ∧ c.toNat ≤ 0x5A) ∧ (∃ c ∈ s, 0x61 ≤ c.toNat ∧ c.toNat ≤ 0x7A))
  hrpNonempty : hrp ≠ []
  short : s.length ≤ 90
  parts : ∃ g : List Symbol, g.length = 6 ∧
    lowerString s = hrp ++ [0x31] ++ (data ++ g).map symbolToChar ∧
    polymod (hrpExpand hrp ++ (data ++ g)) = variantConstant v

/-- `s` is a witness address under the expected HRP `eh`, with this version, program and M (R106). -/
structure IsWitnessAddress (eh s : List Byte) (w : Witness) : Prop where
  string : ∃ rest : List Symbol,
    IsBech32String (if w.bech32m then .bech32m else .bech32) s eh (w.version :: rest) ∧
    Regroups 5 8 false (symbolCells rest) w.program
  version : w.version.toNat ≤ 16
  length : 2 ≤ w.program.length ∧ w.program.length ≤ 40
  v0Length : w.version = 0 → w.program.length = 20 ∨ w.program.length = 32
  variant : w.bech32m = true ↔ w.version ≠ 0

/-- What R108 law 1 asks of an HRP and a program of `n` bytes: codes 33..126, no uppercase letter, not empty, and the whole
string at most 90 characters. -/
structure HrpFits (hrp : List Byte) (n : Nat) : Prop where
  printable : ∀ c ∈ hrp, 33 ≤ c.toNat ∧ c.toNat ≤ 126
  lowercase : ∀ c ∈ hrp, ¬ (0x41 ≤ c.toNat ∧ c.toNat ≤ 0x5A)
  nonempty : hrp ≠ []
  short : hrp.length + 8 + (8 * n + 4) / 5 ≤ 90

/-- A version and a program length R108 law 1 allows: 0..16, [2,40], and {20,32} at version 0. -/
def VersionAllows (ver n : Nat) : Prop := ver ≤ 16 ∧ 2 ≤ n ∧ n ≤ 40 ∧ (ver = 0 → n = 20 ∨ n = 32)

/-- `upper` of R102 law 2: 0x61..0x7A go down by 0x20. -/
def upperString (s : List Byte) : List Byte :=
  s.map fun c => if 0x61 ≤ c.toNat ∧ c.toNat ≤ 0x7A then c - 0x20 else c

/-- The failure codes a command can report (R113, R114), IllegalCommand left out: a word that fails so selects no command.
ADDR_ENCODE has ChecksumMismatch (5) beside its row's codes: by R106 and R107 it does occur, for an HRP with an uppercase
letter when no character of the string is a lowercase one (log entry 16). -/
def reportableCodes : Instr → List Nat
  | .nop => []
  | .lutS2c _ => [16]
  | .lutC2s _ => []
  | .hrpExpand => [18, 17]
  | .polymod => [18, 16]
  | .csumCreate _ => [18, 6, 16]
  | .csumVerify _ => [18, 6, 16]
  | .conv8to5 _ => [18, 15, 17]
  | .conv5to8 _ => [18, 10, 15]
  | .strEncode _ => [18, 6, 16, 17]
  | .strDecode _ => [18, 6, 1, 2, 3, 11, 12, 4, 5]
  | .addrEncode _ => [18, 7, 1, 2, 11, 4, 5, 13, 8]
  | .addrDecode => [18, 1, 2, 3, 11, 12, 4, 5, 13, 14, 7, 15, 8, 9]

end Sys2Proof.Machine
end

