-- ==== Sys2Proof/WellFormed.lean ====
section
/-! DEFINITION. Which commands have free fields the spec gives a meaning.

Every term of `Instr` has a command word and is decoded and run; nothing below refuses one. R60 separates the words that
select no command from "a value of a free field that the command gives no meaning", which "is a semantic failure": the
second kind is a term of `Instr` that is not well formed, and it always completes with Fail. -/

namespace Sys2Proof

/-- A VAR field that names a variant: 0 or 1 (R57). -/
def namesVariant (var : BitVec 2) : Bool := var.toNat < 2

/-- Every free field of the command holds a value the command gives a meaning: VAR names a variant (R57), the symbol of
LUT_S2C is at most 31 (R77), the witness version of ADDR_ENCODE is at most 16 (R13, R107). -/
def Instr.wellFormed : Instr → Bool
  | .nop => true
  | .lutS2c imm => imm.toNat ≤ 31
  | .lutC2s _ => true
  | .hrpExpand => true
  | .polymod => true
  | .csumCreate var => namesVariant var
  | .csumVerify var => namesVariant var
  | .conv8to5 _ => true
  | .conv5to8 _ => true
  | .strEncode var => namesVariant var
  | .strDecode var => namesVariant var
  | .addrEncode imm => imm.toNat ≤ 16
  | .addrDecode => true

end Sys2Proof
end

