-- ==== Sys2Proof/Certificates/Slice0/Obligations.lean ====
section
/-! DEFINITION. The statements about the model. Each docstring names the rules of spec/ a statement rests on. -/

open Sys2Proof Sys2Proof.Machine

/-! ### The command word -/

/-- R55, R58, R60: decoding the word of any command gives the command back, every operand at every value. -/
def Obligations.DecodeInvertsEncode : Prop :=
  ∀ i : Instr, decode (encode i) = .ok i

/-- R55, R60: a word that selects a command is that command's word, so no bit of it is dropped. -/
def Obligations.EncodeInvertsDecode : Prop :=
  ∀ (w : Word) (i : Instr), decode w = .ok i → encode i = w

/-- R60: a word selects a command exactly when it matches the command's row, and at most one row matches any word. -/
def Obligations.DecodeSelectsMatchingRow : Prop :=
  ∀ w : Word,
    (∀ i, decode w = .ok i → rowMatches (rowOf i) w = true) ∧
    ((∃ r ∈ opcodeRows, rowMatches r w = true) → ∃ i, decode w = .ok i) ∧
    (∀ r₁ ∈ opcodeRows, ∀ r₂ ∈ opcodeRows, rowMatches r₁ w = true → rowMatches r₂ w = true → r₁ = r₂)

/-- Words the spec writes out (R77, R78, R90, R96, 95_test_vectors.md 2.1 to 2.7) and the commands they stand for. -/
def Obligations.SpecWordsDecode : Prop :=
  decode 0x00000000 = .ok .nop ∧
  decode 0x00050001 = .ok (.lutS2c 5) ∧
  decode 0x006C0002 = .ok (.lutC2s 0x6C) ∧
  decode 0x00000105 = .ok (.csumCreate 1) ∧
  decode 0x00000407 = .ok (.conv8to5 true) ∧
  decode 0x0000020A = .ok (.strDecode 2) ∧
  decode 0x0010000B = .ok (.addrEncode 16) ∧
  decode 0x0000000D = .error .reservedOpcode ∧
  decode 0x00000020 = .error .reservedBits ∧
  decode 0x00010000 = .error .unusedField

/-- R59 (and R66 check 1): OPC 0x0D to 0x1F matches no row, and a word that matches no row completes with
Fail(IllegalCommand), code 19, and has no other effect. -/
def Obligations.IllegalWordFails : Prop :=
  (∀ w : Word, 0x0D ≤ w.toNat % 32 → ∀ r ∈ opcodeRows, rowMatches r w = false) ∧
  (∀ (s : State) (q : InFlight) (ts : List Turn), s.inflight = some q →
    (∀ r ∈ opcodeRows, rowMatches r q.word = false) → s.turns = .unit :: ts →
    ∃ t, step s = .next t ∧ FailCompletion { s with turns := ts } t 19)

/-! ### The machine's step -/

/-- R50, R66: the unit's turn completes the command the in-flight word selects, by `exec` of it; it comes when the list of
turns says so, and by itself when no turn is listed. A host's turn and a reset turn leave the completion for later. The state
`withFetchWord` gives runs its word at the very next step. R50 item 1, R62, R63: in every state the host's turn runs the first
statement of its program, a read or a write of the port, which is recorded, and `WAIT` stays while the STATUS it reads has
DONE = 0. R136: the unit's turn with nothing in flight completes nothing. The order of turns is the model's (log entry 4), and
so is that the reads of a `WAIT` are recorded (log entry 8). -/
def Obligations.StepRunsDecodedCommand : Prop :=
  (∀ (s : State) (q : InFlight) (i : Instr), s.inflight = some q → decode q.word = .ok i →
    (s.turns = [] → step s = exec i s) ∧
    (∀ ts, s.turns = .unit :: ts → step s = exec i { s with turns := ts }) ∧
    (∀ ts, s.turns = .host :: ts → step s = .next (hostStep { s with turns := ts })) ∧
    (∀ ts, s.turns = .reset :: ts → step s = .next (resetBlock { s with turns := ts }))) ∧
  (∀ (s : State) (w : Word) (i : Instr), decode w = .ok i →
    step (s.withFetchWord 32 w.toNat) = exec i { accept s w with turns := s.turns }) ∧
  (∀ s u : State, HostTurn s u →
    (s.host = [] → step s = .next u) ∧
    (∀ a rest, s.host = .rd a :: rest →
      step s = .next
        { afterRead u a with host := rest, log := s.log ++ [.read a (portResponse a) (readData s a)] }) ∧
    (∀ a v rest, s.host = .wr a v :: rest →
      step s = .next { afterWrite u a v with host := rest, log := s.log ++ [.write a v (portResponse a)] }) ∧
    (∀ rest, s.host = .wait :: rest →
      step s = .next
        { u with
          host := if (readData s 0x004).getLsbD 1 then rest else .wait :: rest
          log := s.log ++ [.read 0x004 .okay (readData s 0x004)] })) ∧
  (∀ (s : State) (ts : List Turn), s.inflight = none → s.turns = .unit :: ts → step s = .next { s with turns := ts })

/-- The model never stops: every step from every state answers a next state. No rule of the spec gives the block a stuck
state (U23), and no statement of a host program has no effect given. -/
def Obligations.EveryStepAnswers : Prop :=
  ∀ s : State, ∃ t, step s = .next t

/-- The state after reset satisfies the invariant. STATUS, the registers and the in-flight command are as R127 gives them;
that NBITS is in range and the buffers' draws are apart rests on values the model chose (log entries 1 and 5). -/
def Obligations.ResetSatisfiesInv : Prop :=
  Inv State.reset

/-- Every step keeps the invariant: the STATUS fields agree (R17 to R23), the buffers are in canonical form (R29), the
snapshot is current (R38), exactly the cells below OUT_LEN and OUT2_LEN are specified (R30), NBITS is in 0..12 (R37), and
the buffers' draws are fresh (R30; the model's own fields, log entry 1). -/
def Obligations.StepKeepsInv : Prop :=
  ∀ s t : State, Inv s → step s = .next t → Inv t

/-- R18: BUSY becomes 1 when a command is accepted, 0 when that command completes and at reset, and no other event writes
it. -/
def Obligations.BusyFollowsTheCommand : Prop :=
  ∀ s t : State, step s = .next t →
    (∀ v rest, s.busy = false → (takeTurn s).1 = .host → s.host = .wr 0x000 v :: rest → t.busy = true) ∧
    ((takeTurn s).1 = .unit → t.busy = false) ∧
    ((takeTurn s).1 = .reset → t.busy = false) ∧
    (s.busy = false → t.busy = true →
      (takeTurn s).1 = .host ∧ ∃ v rest, s.host = .wr 0x000 v :: rest ∧ t.cmd = v) ∧
    (s.busy = true → t.busy = false →
      ((takeTurn s).1 = .unit ∧ t.status.done = true) ∨ (takeTurn s).1 = .reset)

/-- R22, R45, R65, R68, R69: WR_IGNORED becomes 1 at an aligned host write while BUSY = 1, 0 when a command is accepted and
at reset, and every other step leaves it. -/
def Obligations.WriteIgnoredFlagIsSticky : Prop :=
  ∀ s t : State, step s = .next t →
    (∀ a v rest, s.busy = true → (takeTurn s).1 = .host → s.host = .wr a v :: rest → a.toNat % 4 = 0 →
      t.status.wrIgnored = true) ∧
    (∀ v rest, s.busy = false → (takeTurn s).1 = .host → s.host = .wr 0x000 v :: rest → t.status.wrIgnored = false) ∧
    ((takeTurn s).1 = .reset → t.status.wrIgnored = false) ∧
    (t.status.wrIgnored = true → s.status.wrIgnored = false →
      s.busy = true ∧ (takeTurn s).1 = .host ∧ ∃ a v rest, s.host = .wr a v :: rest ∧ a.toNat % 4 = 0) ∧
    (t.status.wrIgnored = false → s.status.wrIgnored = true →
      (s.busy = false ∧ (takeTurn s).1 = .host ∧ ∃ v rest, s.host = .wr 0x000 v :: rest) ∨
        (takeTurn s).1 = .reset)

/-- R50, R133: the outputs stay as they are from a completion to the next accepted command or reset. -/
def Obligations.OutputsStableUntilNextCommand : Prop :=
  ∀ s t : State, step s = .next t → s.busy = false → t.busy = false → (takeTurn s).1 ≠ .reset →
    t.result = s.result ∧ t.outLen = s.outLen ∧ t.out2Len = s.out2Len ∧
    (∀ i, bufRead t.bufO i = bufRead s.bufO i) ∧ (∀ i, bufRead t.bufP i = bufRead s.bufP i) ∧
    t.status.done = s.status.done ∧ t.status.ok = s.status.ok ∧ t.status.fail = s.status.fail ∧
    t.status.failcode = s.status.failcode

/-- R38, R53, R131: while a command is in flight no host access changes it or its inputs, or anything the command writes. -/
def Obligations.HostCannotTouchInFlightCommand : Prop :=
  ∀ s t : State, s.busy = true → (takeTurn s).1 = .host → step s = .next t →
    t.inflight = s.inflight ∧ t.cmd = s.cmd ∧ t.hrpLen = s.hrpLen ∧ t.inLen = s.inLen ∧
    (∀ i, bufRead t.bufH i = bufRead s.bufH i) ∧ (∀ i, bufRead t.bufI i = bufRead s.bufI i) ∧
    t.result = s.result ∧ t.outLen = s.outLen ∧ t.out2Len = s.out2Len ∧ t.bufO = s.bufO ∧ t.bufP = s.bufP

/-- R126 to R128: reset clears every register, abandons a command in flight and leaves every cell of every buffer
unspecified. -/
def Obligations.ResetClearsTheBlock : Prop :=
  ∀ (s : State) (ts : List Turn), s.turns = .reset :: ts →
    ∃ t, step s = .next t ∧ t.inflight = none ∧
      (∀ a ∈ ([0x000, 0x004, 0x008, 0x00C, 0x010, 0x014, 0x018] : List Addr), readData t a = 0) ∧
      (∀ i, lookupCell i t.bufH.cells = none ∧ lookupCell i t.bufI.cells = none ∧
        lookupCell i t.bufO.cells = none ∧ lookupCell i t.bufP.cells = none) ∧
      t.host = s.host ∧ t.log = s.log ∧ t.turns = ts

/-- R135: every accepted command completes or is abandoned by a reset; the turns listed bound when. -/
def Obligations.EveryCommandEnds : Prop :=
  ∀ s : State, s.busy = true →
    ∃ (k : Nat) (t : State), k ≤ s.turns.length + 1 ∧ Host.Core.run core k s = .next t ∧ t.busy = false

/-- R66: equal snapshots give equal outcomes, whatever else the two states hold. -/
def Obligations.OutcomeDependsOnSnapshotOnly : Prop :=
  ∀ (i : Instr) (s u s' u' : State), s.inflight = u.inflight → exec i s = .next s' → exec i u = .next u' →
    SameOutcome s' u'

/-- R38, R131, R135: however many host accesses the block serves before the command completes, its outcome is the one it
would have had at once. -/
def Obligations.LatencyDoesNotChangeTheOutcome : Prop :=
  ∀ (s : State) (k : Nat) (ts : List Turn), s.busy = true → s.turns = List.replicate k .host ++ .unit :: ts →
    ∃ t t₀, Host.Core.run core (k + 1) s = .next t ∧ step { s with turns := .unit :: ts } = .next t₀ ∧
      SameOutcome t t₀ ∧ t.busy = false ∧ t.turns = ts

/-! ### The host port -/

/-- R64: an aligned write to CMD with BUSY = 0 is accepted, whatever the word: it is stored, BUSY becomes 1, the other
STATUS fields become 0, the inputs are snapshotted, and nothing else changes. The failure of a word that matches no row is
reported at completion. -/
def Obligations.CmdWriteIsAccepted : Prop :=
  ∀ (s : State) (w : Word), s.busy = false →
    portResponse 0x000 = .okay ∧ (afterWrite s 0x000 w).busy = true ∧
    afterWrite s 0x000 w =
      { s with
        cmd := w
        status := { done := false, ok := false, fail := false, wrIgnored := false, failcode := 0 }
        inflight := some { word := w, hlen := s.hrpLen, ilen := s.inLen, bufH := s.bufH, bufI := s.bufI } } ∧
    ((∀ r ∈ opcodeRows, rowMatches r w = false) →
      ∃ t, unitStep (afterWrite s 0x000 w) = .next t ∧ FailCompletion (afterWrite s 0x000 w) t 19)

/-- R65: an aligned write while BUSY = 1 changes nothing but WR_IGNORED, which becomes 1, and responds OKAY; a misaligned
one responds ERR and does not set it; an aligned read is served. -/
def Obligations.BusyWriteIsDropped : Prop :=
  ∀ (s : State) (a : Addr) (v : Word), s.busy = true →
    (a.toNat % 4 = 0 →
      portResponse a = .okay ∧ afterWrite s a v = { s with status := { s.status with wrIgnored := true } }) ∧
    (a.toNat % 4 ≠ 0 → portResponse a = .err ∧ afterWrite s a v = s)

/-- R45: a misaligned access responds ERR, reads 0 and changes no state; every aligned address is legal, and a reserved one
reads 0 and ignores writes. -/
def Obligations.AlignmentDecidesTheResponse : Prop :=
  ∀ (s : State) (a : Addr) (v : Word),
    (a.toNat % 4 ≠ 0 → portResponse a = .err ∧ readData s a = 0 ∧ afterRead s a = s ∧ afterWrite s a v = s) ∧
    (a.toNat % 4 = 0 → portResponse a = .okay) ∧
    (a.toNat % 4 = 0 → (0x01C ≤ a.toNat ∧ a.toNat < 0x400) ∨ 0x800 ≤ a.toNat →
      readData s a = 0 ∧ afterRead s a = s ∧ (s.busy = false → afterWrite s a v = s))

/-- R17: the fields of STATUS as a read returns them, in every state, and STATUS is read-only. -/
def Obligations.StatusReadsItsFields : Prop :=
  ∀ (s : State) (v : Word),
    ((readData s 0x004).getLsbD 0 = s.busy ∧
      (readData s 0x004).getLsbD 1 = s.status.done ∧
      (readData s 0x004).getLsbD 2 = s.status.ok ∧
      (readData s 0x004).getLsbD 3 = s.status.fail ∧
      (readData s 0x004).getLsbD 4 = s.status.wrIgnored ∧
      (readData s 0x004).extractLsb' 5 3 = 0 ∧
      (readData s 0x004).extractLsb' 8 5 = s.status.failcode ∧
      (readData s 0x004).extractLsb' 13 19 = 0) ∧
    (s.busy = false → afterWrite s 0x004 v = s)

/-- R42, R43, R47: with BUSY = 0 a read returns the stored value of its location, four cells of a buffer word, first cell
lowest, and has no side effect. -/
def Obligations.IdleReadsReturnStoredValues : Prop :=
  ∀ s : State, s.busy = false →
    readData s 0x000 = s.cmd ∧ (readData s 0x008).toNat = s.hrpLen.toNat ∧ (readData s 0x00C).toNat = s.inLen.toNat ∧
    (readData s 0x010).toNat = s.outLen.toNat ∧ (readData s 0x014).toNat = s.out2Len.toNat ∧
    readData s 0x018 = s.result ∧
    (∀ k j : Nat, k < 64 → j < 4 →
      (readData s (BitVec.ofNat 12 (0x400 + 4 * k))).extractLsb' (8 * j) 8 = bufRead s.bufH (4 * k + j) ∧
      (readData s (BitVec.ofNat 12 (0x500 + 4 * k))).extractLsb' (8 * j) 8 = bufRead s.bufI (4 * k + j) ∧
      (readData s (BitVec.ofNat 12 (0x600 + 4 * k))).extractLsb' (8 * j) 8 = bufRead s.bufO (4 * k + j) ∧
      (readData s (BitVec.ofNat 12 (0x700 + 4 * k))).extractLsb' (8 * j) 8 = bufRead s.bufP (4 * k + j)) ∧
    (∀ a, afterRead s a = s)

/-- R70: while BUSY = 1 a read of an output location returns the next free value and changes only the count of them; CMD,
the lengths and the input buffers read as stored; STATUS reads BUSY = 1 and the current WR_IGNORED, all else 0; reserved
addresses read 0. The free value stands for any value (log entry 2). -/
def Obligations.BusyReadsServeInputsOnly : Prop :=
  ∀ s : State, s.busy = true →
    (∀ a, a.toNat % 4 = 0 → a = 0x010 ∨ a = 0x014 ∨ a = 0x018 ∨ (0x600 ≤ a.toNat ∧ a.toNat < 0x800) →
      readData s a = Config.freeRead s.draws ∧ afterRead s a = { s with draws := s.draws + 1 }) ∧
    (∀ a, ¬ (a = 0x010 ∨ a = 0x014 ∨ a = 0x018 ∨ (0x600 ≤ a.toNat ∧ a.toNat < 0x800)) → afterRead s a = s) ∧
    readData s 0x000 = s.cmd ∧ (readData s 0x008).toNat = s.hrpLen.toNat ∧ (readData s 0x00C).toNat = s.inLen.toNat ∧
    (∀ k j : Nat, k < 64 → j < 4 →
      (readData s (BitVec.ofNat 12 (0x400 + 4 * k))).extractLsb' (8 * j) 8 = bufRead s.bufH (4 * k + j) ∧
      (readData s (BitVec.ofNat 12 (0x500 + 4 * k))).extractLsb' (8 * j) 8 = bufRead s.bufI (4 * k + j)) ∧
    (StatusLegal s → readData s 0x004 = if s.status.wrIgnored then 0x00000011 else 0x00000001) ∧
    (∀ a, a.toNat % 4 = 0 → (0x01C ≤ a.toNat ∧ a.toNat < 0x400) ∨ 0x800 ≤ a.toNat → readData s a = 0)

/-- R15, R24, R25, R42: with BUSY = 0 a write to a length register stores bits 8:0 and nothing else, and a write to a
read-only register or to BUF_O or BUF_P is ignored. -/
def Obligations.IdleRegisterWrites : Prop :=
  ∀ (s : State) (v : Word), s.busy = false →
    afterWrite s 0x008 v = { s with hrpLen := v.setWidth 9 } ∧
    (readData (afterWrite s 0x008 v) 0x008).toNat = v.toNat % 512 ∧
    afterWrite s 0x00C v = { s with inLen := v.setWidth 9 } ∧
    (readData (afterWrite s 0x00C v) 0x00C).toNat = v.toNat % 512 ∧
    (∀ a, a = 0x004 ∨ a = 0x010 ∨ a = 0x014 ∨ a = 0x018 ∨ (0x600 ≤ a.toNat ∧ a.toNat < 0x800) →
      afterWrite s a v = s)

/-- R43: a write of a buffer word stores its four bytes in its four cells, lowest byte in the lowest cell, and leaves every
other cell and every register alone. -/
def Obligations.BufferWordsPackLittleEndian : Prop :=
  ∀ (s : State) (k : Nat) (v : Word), s.busy = false → k < 64 →
    (∃ m, afterWrite s (BitVec.ofNat 12 (0x400 + 4 * k)) v = { s with bufH := m } ∧
      (∀ j, j < 4 → bufRead m (4 * k + j) = v.extractLsb' (8 * j) 8) ∧
      (∀ i, i < 4 * k ∨ 4 * k + 4 ≤ i → bufRead m i = bufRead s.bufH i)) ∧
    (∃ m, afterWrite s (BitVec.ofNat 12 (0x500 + 4 * k)) v = { s with bufI := m } ∧
      (∀ j, j < 4 → bufRead m (4 * k + j) = v.extractLsb' (8 * j) 8) ∧
      (∀ i, i < 4 * k ∨ 4 * k + 4 ≤ i → bufRead m i = bufRead s.bufI i))

/-! ### Completion -/

/-- R68: completion with `Ok` writes RESULT, the output cells, the lengths and STATUS, leaves every other output cell
unspecified, and keeps WR_IGNORED and the inputs. An `Ok` carries at most `CAP` values a list (R66). -/
def Obligations.OkWritesTheOutputs : Prop :=
  ∀ (s : State) (o : Output), o.out.length ≤ 256 → o.out2.length ≤ 256 →
    OkCompletion s (complete s (.ok o)) o.result o.out o.out2

/-- R69: completion with `Fail(code)` clears RESULT and the lengths, leaves every output cell unspecified, sets FAIL and
FAILCODE, and keeps WR_IGNORED, CMD and the inputs. -/
def Obligations.FailLeavesNoOutput : Prop :=
  ∀ (s : State) (c : FailCode), FailCompletion s (complete s (.fail c)) (failNumber c).toNat

/-- R24, R25, R30, R68, R69: the frame of all thirteen commands. None changes CMD, HRP_LEN, IN_LEN, any cell of BUF_H or
BUF_I, WR_IGNORED, or the host's part; each ends with BUSY = 0, DONE = 1 and exactly one of OK and FAIL. -/
def Obligations.CommandsKeepTheInputs : Prop :=
  ∀ (i : Instr) (s t : State), exec i s = .next t →
    InputsKept s t ∧ t.busy = false ∧ t.status.done = true ∧ t.status.ok = !t.status.fail

/-- R136: a command that was not accepted is never completed: with none in flight no meaning answers a next state, and with
one in flight every meaning does. -/
def Obligations.OnlyAcceptedCommandsComplete : Prop :=
  ∀ (i : Instr) (s : State), (∃ t, exec i s = .next t) ↔ s.busy = true

/-- R58, R66 checks 2 and 3, R67: a length above `CAP` in a register the command reads fails with LengthError, and, the
lengths being in range, VAR = 2 or 3 in a command that uses VAR fails with UnknownVariant. -/
def Obligations.LengthsThenVariantAreChecked : Prop :=
  ∀ (i : Instr) (s : State) (q : InFlight), s.inflight = some q →
    ((readsHrpLen i = true ∧ 256 < q.hlen.toNat) ∨ (readsInLen i = true ∧ 256 < q.ilen.toNat) →
      CompletesFail i s 18) ∧
    (∀ var, varUsed i = some var → 2 ≤ var.toNat →
      (readsHrpLen i = true → q.hlen.toNat ≤ 256) → (readsInLen i = true → q.ilen.toNat ≤ 256) →
      CompletesFail i s 6)

/-- R113, R114: a command reports only the codes its row lists. ADDR_ENCODE has ChecksumMismatch beside them: R110 infers that
it cannot occur, but R106 and R107 do give it (log entry 16). The other code numbers R110 rules out are not in the list. -/
def Obligations.CommandsReportListedCodes : Prop :=
  ∀ (i : Instr) (s t : State), exec i s = .next t → t.status.fail = true →
    t.status.failcode.toNat ∈ reportableCodes i

/-- R57, R60, R77, R107: a command with a free field the spec gives no meaning always fails. -/
def Obligations.IllFormedCommandsFail : Prop :=
  ∀ (i : Instr) (s t : State), i.wellFormed = false → exec i s = .next t →
    t.status.fail = true ∧ t.status.ok = false

/-! ### NOP and the charset LUT -/

/-- R71: NOP completes with `Ok(0, [], [])`. -/
def Obligations.NopCompletes : Prop :=
  ∀ s : State, s.busy = true → CompletesOk .nop s 0 [] []

/-- R77, R78: LUT_S2C of 0..31 gives the character, and above 31 it fails with InvalidSymbol; LUT_C2S gives the symbol with
FOUND set, and 0 for a character not in the charset, an `Ok` either way. -/
def Obligations.LutCommandsLookUp : Prop :=
  ∀ (s : State) (imm : Byte), s.busy = true →
    (∀ c, charset[imm.toNat]? = some c → CompletesOk (.lutS2c imm) s (c.setWidth 32) [] []) ∧
    (imm.toNat ≤ 31 → charset[imm.toNat]?.isSome = true) ∧
    (31 < imm.toNat → CompletesFail (.lutS2c imm) s 16) ∧
    (∀ k, charset[k]? = some imm → CompletesOk (.lutC2s imm) s (BitVec.ofNat 32 (256 + k)) [] []) ∧
    (imm ∉ charset → CompletesOk (.lutC2s imm) s 0 [] [])

/-- R33, R75: the charset is the string of R33, in order; `charToSymbol` finds exactly the symbol whose character it is
given; the lookup is case-sensitive. -/
def Obligations.CharsetIsABijection : Prop :=
  String.ofList (charset.map fun c => Char.ofNat c.toNat) = "qpzry9x8gf2tvdw0s3jn54khce6mua7l" ∧
  (∀ s : Symbol, charset[s.toNat]? = some (symbolToChar s)) ∧
  (∀ s : Symbol, charToSymbol (symbolToChar s) = some s) ∧
  (∀ (c : Byte) (s : Symbol), charToSymbol c = some s ↔ symbolToChar s = c) ∧
  (∀ c : Byte, charToSymbol c = none ↔ ∀ s : Symbol, symbolToChar s ≠ c) ∧
  (∀ c : Byte, 0x41 ≤ c.toNat → c.toNat ≤ 0x5A → charToSymbol c = none)

/-! ### The checksum engine -/

/-- R80, R81: the step as the spec writes it, its five conditional XORs one after another, and the fold from 1 over the
values in order, with the spec's sample values. -/
def Obligations.PolymodFoldsTheStep : Prop :=
  (∀ (chk : Word) (v : Symbol),
    polymodStep chk v =
      ((chk &&& 0x01ffffff) <<< 5) ^^^ v.setWidth 32 ^^^
        (if chk.getLsbD 25 then 0x3b6a57b2 else 0) ^^^ (if chk.getLsbD 26 then 0x26508e6d else 0) ^^^
        (if chk.getLsbD 27 then 0x1ea119fa else 0) ^^^ (if chk.getLsbD 28 then 0x3d4233dd else 0) ^^^
        (if chk.getLsbD 29 then 0x2a1462b3 else 0)) ∧
  polymod [] = 1 ∧
  (∀ (values : List Symbol) (v : Symbol), polymod (values ++ [v]) = polymodStep (polymod values) v) ∧
  polymod [0] = 0x00000020 ∧ polymod [0, 0, 0, 0, 0, 0] = 0x3b6a57b2

/-- R82: the range law. -/
def Obligations.PolymodStaysBelowTwoPow30 : Prop :=
  (∀ (chk : Word) (v : Symbol), chk.toNat < 2 ^ 30 →
    (polymodStep chk v).toNat < 2 ^ 30 ∧ (chk >>> 25).toNat ≤ 31) ∧
  (∀ values : List Symbol, (polymod values).toNat < 2 ^ 30)

/-- R83: the linearity law and what follows from it. -/
def Obligations.PolymodIsLinear : Prop :=
  (∀ x y : Word, x.toNat < 2 ^ 30 → y.toNat < 2 ^ 30 →
    polymodStep (x ^^^ y) 0 = polymodStep x 0 ^^^ polymodStep y 0) ∧
  (∀ (x : Word) (v : Symbol), x.toNat < 2 ^ 30 → polymodStep x v = polymodStep x 0 ^^^ v.setWidth 32) ∧
  (∀ (s : Symbol) (k : Nat), k ≤ 5 →
    (fun x => polymodStep x 0)^[k] (s.setWidth 32) = s.setWidth 32 <<< (5 * k)) ∧
  (∀ (p : List Symbol) (c₀ c₁ c₂ c₃ c₄ c₅ : Symbol),
    polymod (p ++ [c₀, c₁, c₂, c₃, c₄, c₅]) =
      polymod (p ++ [0, 0, 0, 0, 0, 0]) ^^^
        ((c₀.setWidth 32 <<< 25) ||| (c₁.setWidth 32 <<< 20) ||| (c₂.setWidth 32 <<< 15) |||
          (c₃.setWidth 32 <<< 10) ||| (c₄.setWidth 32 <<< 5) ||| c₅.setWidth 32))

/-- R84: the checksum word, and its six groups, most significant first, which carry all of it. -/
def Obligations.ChecksumGroupsCarryTheWord : Prop :=
  ∀ (hrp : List Byte) (data : List Symbol) (v : Variant),
    (createChecksum hrp data v).1 = polymod (hrpExpand hrp ++ data ++ [0, 0, 0, 0, 0, 0]) ^^^ variantConstant v ∧
    (createChecksum hrp data v).1.toNat < 2 ^ 30 ∧
    ∃ g₀ g₁ g₂ g₃ g₄ g₅ : Symbol, (createChecksum hrp data v).2 = [g₀, g₁, g₂, g₃, g₄, g₅] ∧
      (createChecksum hrp data v).1.toNat =
        g₀.toNat * 2 ^ 25 + g₁.toNat * 2 ^ 20 + g₂.toNat * 2 ^ 15 + g₃.toNat * 2 ^ 10 + g₄.toNat * 2 ^ 5 + g₅.toNat

/-- R85: what verification compares, that a created checksum verifies, and that no list verifies for both variants; R35: the
two constants. -/
def Obligations.CreatedChecksumVerifies : Prop :=
  variantConstant .bech32 = 0x00000001 ∧ variantConstant .bech32m = 0x2bc830a3 ∧
  (∀ (hrp : List Byte) (data : List Symbol) (v : Variant),
    verifyChecksum hrp data v = true ↔ polymod (hrpExpand hrp ++ data) = variantConstant v) ∧
  (∀ (hrp : List Byte) (data : List Symbol) (v : Variant),
    verifyChecksum hrp (data ++ (createChecksum hrp data v).2) v = true) ∧
  (∀ (hrp : List Byte) (data : List Symbol),
    ¬ (verifyChecksum hrp data .bech32 = true ∧ verifyChecksum hrp data .bech32m = true))

/-- R79, R88: HRP_EXPAND. -/
def Obligations.HrpExpandCommand : Prop :=
  ∀ (s : State) (q : InFlight), s.inflight = some q →
    (q.hlen.toNat ≤ 127 →
      CompletesOk .hrpExpand s 0
        (q.hrp.map (fun c => BitVec.ofNat 8 (c.toNat / 32)) ++ [0] ++
          q.hrp.map (fun c => BitVec.ofNat 8 (c.toNat % 32))) []) ∧
    (127 < q.hlen.toNat → q.hlen.toNat ≤ 256 → CompletesFail .hrpExpand s 17) ∧
    (256 < q.hlen.toNat → CompletesFail .hrpExpand s 18)

/-- R87, R89: POLYMOD. -/
def Obligations.PolymodCommand : Prop :=
  ∀ (s : State) (q : InFlight), s.inflight = some q →
    (q.ilen.toNat ≤ 256 → AllSymbols q.input →
      CompletesOk .polymod s (polymod (q.input.map (BitVec.setWidth 5))) [] []) ∧
    (q.ilen.toNat ≤ 256 → ¬ AllSymbols q.input → CompletesFail .polymod s 16) ∧
    (256 < q.ilen.toNat → CompletesFail .polymod s 18)

/-- R84, R87, R90: CSUM_CREATE. -/
def Obligations.CsumCreateCommand : Prop :=
  ∀ (s : State) (q : InFlight) (var : BitVec 2) (v : Variant), s.inflight = some q →
    q.hlen.toNat ≤ 256 → q.ilen.toNat ≤ 256 → NamesVariant var v →
    (AllSymbols q.input →
      ∃ m : Word,
        m = polymod (hrpExpand q.hrp ++ q.input.map (BitVec.setWidth 5) ++ [0, 0, 0, 0, 0, 0]) ^^^ variantConstant v ∧
        CompletesOk (.csumCreate var) s m
          ((List.range 6).map fun p => BitVec.ofNat 8 (m.toNat / 2 ^ (5 * (5 - p)) % 32)) []) ∧
    (¬ AllSymbols q.input → CompletesFail (.csumCreate var) s 16)

/-- R85, R87, R91: CSUM_VERIFY. A false verification is an `Ok`. -/
def Obligations.CsumVerifyCommand : Prop :=
  ∀ (s : State) (q : InFlight) (var : BitVec 2) (v : Variant), s.inflight = some q →
    q.hlen.toNat ≤ 256 → q.ilen.toNat ≤ 256 → NamesVariant var v →
    (AllSymbols q.input →
      polymod (hrpExpand q.hrp ++ q.input.map (BitVec.setWidth 5)) = variantConstant v →
      CompletesOk (.csumVerify var) s 1 [] []) ∧
    (AllSymbols q.input →
      polymod (hrpExpand q.hrp ++ q.input.map (BitVec.setWidth 5)) ≠ variantConstant v →
      CompletesOk (.csumVerify var) s 0 [] []) ∧
    (¬ AllSymbols q.input → CompletesFail (.csumVerify var) s 16)

/-! ### The bit-width converters -/

/-- R92, R93 laws 1 to 3: in either direction `convertbits` succeeds exactly on the inputs that regroup, and gives the
regrouping: the input's bitstream, most significant bit first, but for the zero bits of padding. -/
def Obligations.ConvertbitsRegroupsTheBitstream : Prop :=
  ∀ (pad : Bool) (values out : List Byte),
    (convertbits values 8 5 pad = .ok out ↔ Regroups 8 5 pad values out) ∧
    (convertbits values 5 8 pad = .ok out ↔ Regroups 5 8 pad values out)

/-- R93 laws 2 to 5: the numbers of groups, and which failure. -/
def Obligations.ConvertbitsLengthsAndFailures : Prop :=
  (∀ values : List Byte, ∃ out, convertbits values 8 5 true = .ok out ∧ out.length = (8 * values.length + 4) / 5) ∧
  (∀ values out : List Byte, convertbits values 8 5 false = .ok out → out.length = 8 * values.length / 5) ∧
  (∀ (values : List Byte) (c : FailCode), convertbits values 8 5 false = .fail c → c = .invalidPadding) ∧
  (∀ values : List Byte, AllSymbols values →
    ∃ out, convertbits values 5 8 true = .ok out ∧ out.length = (5 * values.length + 7) / 8) ∧
  (∀ values out : List Byte, convertbits values 5 8 false = .ok out → out.length = 5 * values.length / 8) ∧
  (∀ (values : List Byte) (c : FailCode), AllSymbols values → convertbits values 5 8 false = .fail c →
    c = .invalidPadding) ∧
  (∀ values : List Byte, AllSymbols values →
    values.length % 8 = 1 ∨ values.length % 8 = 3 ∨ values.length % 8 = 6 →
    convertbits values 5 8 false = .fail .invalidPadding) ∧
  (∀ (values : List Byte) (pad : Bool), ¬ AllSymbols values →
    convertbits values 5 8 pad = .fail .bitConversionOverflow)

/-- R93 law 6: the round trip of a byte list. -/
def Obligations.ConversionRoundTrips : Prop :=
  ∀ p : List Byte, ∃ g, convertbits p 8 5 true = .ok g ∧ convertbits g 5 8 false = .ok p

/-- R96: CONV_8TO5, InvalidPadding before OutputOverflow. -/
def Obligations.Conv8to5Command : Prop :=
  ∀ (s : State) (q : InFlight), s.inflight = some q →
    (q.ilen.toNat ≤ 160 →
      ∃ out, Regroups 8 5 true q.input out ∧ CompletesOk (.conv8to5 true) s 0 out []) ∧
    (∀ out, q.ilen.toNat ≤ 160 → Regroups 8 5 false q.input out → CompletesOk (.conv8to5 false) s 0 out []) ∧
    (160 < q.ilen.toNat → q.ilen.toNat ≤ 256 → CompletesFail (.conv8to5 true) s 17) ∧
    (∀ out, 160 < q.ilen.toNat → q.ilen.toNat ≤ 256 → Regroups 8 5 false q.input out →
      CompletesFail (.conv8to5 false) s 17) ∧
    (q.ilen.toNat ≤ 256 → (¬ ∃ out, Regroups 8 5 false q.input out) → CompletesFail (.conv8to5 false) s 15) ∧
    (∀ pad, 256 < q.ilen.toNat → CompletesFail (.conv8to5 pad) s 18)

/-- R97: CONV_5TO8, BitConversionOverflow before InvalidPadding. -/
def Obligations.Conv5to8Command : Prop :=
  ∀ (s : State) (q : InFlight), s.inflight = some q →
    (q.ilen.toNat ≤ 256 → AllSymbols q.input →
      ∃ out, Regroups 5 8 true q.input out ∧ CompletesOk (.conv5to8 true) s 0 out []) ∧
    (∀ out, q.ilen.toNat ≤ 256 → Regroups 5 8 false q.input out → CompletesOk (.conv5to8 false) s 0 out []) ∧
    (q.ilen.toNat ≤ 256 → AllSymbols q.input → (¬ ∃ out, Regroups 5 8 false q.input out) →
      CompletesFail (.conv5to8 false) s 15) ∧
    (∀ pad, q.ilen.toNat ≤ 256 → ¬ AllSymbols q.input → CompletesFail (.conv5to8 pad) s 10) ∧
    (∀ pad, 256 < q.ilen.toNat → CompletesFail (.conv5to8 pad) s 18)

/-! ### The string codec -/

/-- R101: `stringDecode` accepts exactly the strings of the variant, and returns their HRP, lowercased, and data. -/
def Obligations.StringDecodeAcceptsExactly : Prop :=
  ∀ (v : Variant) (s hrp : List Byte) (data : List Symbol),
    stringDecode s v = .ok (hrp, data) ↔ IsBech32String v s hrp data

/-- R101, R105: the failures of `stringDecode`, the first failing step deciding the code. -/
def Obligations.StringDecodeReportsFirstFailure : Prop :=
  ∀ (v : Variant) (s : List Byte),
    ((∃ c ∈ s, c.toNat < 33 ∨ 126 < c.toNat) → stringDecode s v = .fail .invalidCharacter) ∧
    ((∀ c ∈ s, 33 ≤ c.toNat ∧ c.toNat ≤ 126) →
      (((∃ c ∈ s, 0x41 ≤ c.toNat ∧ c.toNat ≤ 0x5A) ∧ (∃ c ∈ s, 0x61 ≤ c.toNat ∧ c.toNat ≤ 0x7A)) →
        stringDecode s v = .fail .mixedCase) ∧
      (¬ ((∃ c ∈ s, 0x41 ≤ c.toNat ∧ c.toNat ≤ 0x5A) ∧ (∃ c ∈ s, 0x61 ≤ c.toNat ∧ c.toNat ≤ 0x7A)) →
        (0x31 ∉ s → stringDecode s v = .fail .separatorNotFound) ∧
        (∀ tail, s = 0x31 :: tail → 0x31 ∉ tail → stringDecode s v = .fail .emptyHrp) ∧
        (∀ h tail, h ≠ [] → s = h ++ 0x31 :: tail → 0x31 ∉ tail →
          (tail.length < 6 → stringDecode s v = .fail .dataTooShort) ∧
          (6 ≤ tail.length → 90 < s.length → stringDecode s v = .fail .stringTooLong) ∧
          (6 ≤ tail.length → s.length ≤ 90 → (∃ c ∈ tail, lower c ∉ charset) →
            stringDecode s v = .fail .invalidCharacter) ∧
          (∀ d : List Symbol, 6 ≤ tail.length → s.length ≤ 90 → d.map symbolToChar = lowerString tail →
            polymod (hrpExpand (lowerString h) ++ d) ≠ variantConstant v →
            stringDecode s v = .fail .checksumMismatch))))

/-- R102 law 1: encoding then decoding gives the HRP and the data back. -/
def Obligations.StringCodecRoundTrips : Prop :=
  ∀ (hrp : List Byte) (data : List Symbol) (v : Variant),
    (∀ c ∈ hrp, 33 ≤ c.toNat ∧ c.toNat ≤ 126) → (∀ c ∈ hrp, ¬ (0x41 ≤ c.toNat ∧ c.toNat ≤ 0x5A)) →
    1 ≤ hrp.length → hrp.length + data.length + 7 ≤ 90 →
    stringDecode (stringEncode hrp data v) v = .ok (hrp, data)

/-- R102 law 2: the all-uppercase form of a string without uppercase letters decodes alike. -/
def Obligations.UppercaseFormDecodesAlike : Prop :=
  ∀ (s : List Byte) (v : Variant), (∀ c ∈ s, ¬ (0x41 ≤ c.toNat ∧ c.toNat ≤ 0x5A)) →
    stringDecode (upperString s) v = stringDecode s v

/-- R102 law 3: a string that decodes under one variant fails with ChecksumMismatch under the other. -/
def Obligations.OtherVariantMismatches : Prop :=
  ∀ (s : List Byte) (v u : Variant) (r : List Byte × List Symbol), stringDecode s v = .ok r → u ≠ v →
    stringDecode s u = .fail .checksumMismatch

/-- R100, R104: STR_ENCODE, InvalidSymbol before OutputOverflow. -/
def Obligations.StrEncodeCommand : Prop :=
  ∀ (s : State) (q : InFlight) (var : BitVec 2) (v : Variant), s.inflight = some q →
    q.hlen.toNat ≤ 256 → q.ilen.toNat ≤ 256 → NamesVariant var v →
    (AllSymbols q.input → q.hlen.toNat + q.ilen.toNat + 7 ≤ 256 →
      ∃ out, CompletesOk (.strEncode var) s 0 out [] ∧ out.length = q.hlen.toNat + q.ilen.toNat + 7 ∧
        out = q.hrp ++ [0x31] ++ (q.input.map (BitVec.setWidth 5)).map symbolToChar ++
          (createChecksum q.hrp (q.input.map (BitVec.setWidth 5)) v).2.map symbolToChar) ∧
    (AllSymbols q.input → 256 < q.hlen.toNat + q.ilen.toNat + 7 → CompletesFail (.strEncode var) s 17) ∧
    (¬ AllSymbols q.input → CompletesFail (.strEncode var) s 16)

/-- R101, R105: STR_DECODE: data symbols to BUF_O, the lowercased HRP to BUF_P; a string that is none of the variant fails
with one of R101's codes, the one `stringDecode` raises (StringDecodeReportsFirstFailure says which; R114). -/
def Obligations.StrDecodeCommand : Prop :=
  ∀ (s : State) (q : InFlight) (var : BitVec 2) (v : Variant), s.inflight = some q →
    q.ilen.toNat ≤ 256 → NamesVariant var v →
    (∀ hrp data, IsBech32String v q.input hrp data →
      CompletesOk (.strDecode var) s 0 (data.map (BitVec.setWidth 8)) hrp) ∧
    ((¬ ∃ hrp data, IsBech32String v q.input hrp data) →
      ∃ code ∈ [1, 2, 3, 11, 12, 4, 5], CompletesFail (.strDecode var) s code) ∧
    (∀ c, stringDecode q.input v = .fail c → CompletesFail (.strDecode var) s (failNumber c).toNat)

/-! ### The witness address codec -/

/-- R106: `addressDecode` accepts exactly the witness addresses under the expected HRP. R106, R114: its first failing step
decides the code: when both attempts fail, the BECH32M attempt's; then HrpMismatch, EmptyPayload, InvalidVersion,
InvalidPadding, InvalidProgramLength and VersionVariantMismatch. -/
def Obligations.AddressDecodeAcceptsExactly : Prop :=
  (∀ (eh s : List Byte) (w : Witness), addressDecode eh s = .ok w ↔ IsWitnessAddress eh s w) ∧
  (∀ (eh s : List Byte) (c₀ c : FailCode), stringDecode s .bech32 = .fail c₀ → stringDecode s .bech32m = .fail c →
    addressDecode eh s = .fail c) ∧
  (∀ (eh s hrp : List Byte) (v : Variant) (d : List Symbol), stringDecode s v = .ok (hrp, d) →
    (hrp ≠ eh → addressDecode eh s = .fail .hrpMismatch) ∧
    (hrp = eh →
      (d = [] → addressDecode eh s = .fail .emptyPayload) ∧
      (∀ ver rest, d = ver :: rest →
        (16 < ver.toNat → addressDecode eh s = .fail .invalidVersion) ∧
        (ver.toNat ≤ 16 →
          (∀ c, convertbits (symbolCells rest) 5 8 false = .fail c → addressDecode eh s = .fail .invalidPadding) ∧
          (∀ p, convertbits (symbolCells rest) 5 8 false = .ok p →
            (¬ VersionAllows ver.toNat p.length → addressDecode eh s = .fail .invalidProgramLength) ∧
            (VersionAllows ver.toNat p.length → (ver = 0 ↔ v = .bech32m) →
              addressDecode eh s = .fail .versionVariantMismatch))))))

/-- R108: the round trip of every allowed version and program, the length of the string, and StringTooLong beyond the
bound on the HRP. -/
def Obligations.AddressCodecRoundTrips : Prop :=
  (∀ (hrp : List Byte) (ver : Byte) (prog : List Byte), VersionAllows ver.toNat prog.length → HrpFits hrp prog.length →
    ∃ str, addressEncode hrp ver prog = .ok (str, ver != 0) ∧
      addressDecode hrp str = .ok { version := ver.setWidth 5, program := prog, bech32m := ver != 0 } ∧
      str.length = hrp.length + 8 + (8 * prog.length + 4) / 5) ∧
  (∀ (hrp : List Byte) (ver : Byte) (prog : List Byte), VersionAllows ver.toNat prog.length →
    (∀ c ∈ hrp, 33 ≤ c.toNat ∧ c.toNat ≤ 126) → (∀ c ∈ hrp, ¬ (0x41 ≤ c.toNat ∧ c.toNat ≤ 0x5A)) → hrp ≠ [] →
    90 < hrp.length + 8 + (8 * prog.length + 4) / 5 → addressEncode hrp ver prog = .fail .stringTooLong)

/-- R107, R110: ADDR_ENCODE succeeds exactly on the versions, programs and HRPs of R108 law 1, with the string of R107, and
fails with one of its self-check's codes on any other (ChecksumMismatch among them, log entry 16). R107, R114: the first
failing step decides the code: InvalidVersion above 31, then on the string of R107 InvalidCharacter, MixedCase, EmptyHrp,
StringTooLong, for an HRP with an uppercase letter HrpMismatch if the string decodes and ChecksumMismatch if not, then
InvalidVersion above 16 and InvalidProgramLength. -/
def Obligations.AddrEncodeCommand : Prop :=
  ∀ (s : State) (q : InFlight) (imm : Byte), s.inflight = some q → q.hlen.toNat ≤ 256 → q.ilen.toNat ≤ 256 →
    (VersionAllows imm.toNat q.input.length → HrpFits q.hrp q.input.length →
      ∃ groups, Regroups 8 5 true q.input groups ∧
        CompletesOk (.addrEncode imm) s (BitVec.ofNat 32 (imm.toNat + if imm = 0 then 0 else 256))
          (stringEncode q.hrp (imm.setWidth 5 :: groups.map (BitVec.setWidth 5))
            (if imm = 0 then .bech32 else .bech32m)) []) ∧
    (31 < imm.toNat → CompletesFail (.addrEncode imm) s 7) ∧
    (imm.toNat ≤ 31 → ¬ (VersionAllows imm.toNat q.input.length ∧ HrpFits q.hrp q.input.length) →
      ∃ code ∈ [1, 2, 11, 4, 5, 13, 7, 8], CompletesFail (.addrEncode imm) s code) ∧
    (∀ groups str : List Byte, imm.toNat ≤ 31 → convertbits q.input 8 5 true = .ok groups →
      str = stringEncode q.hrp (imm.setWidth 5 :: groups.map (BitVec.setWidth 5)) (if imm = 0 then .bech32 else .bech32m) →
      ((∃ c ∈ q.hrp, c.toNat < 33 ∨ 126 < c.toNat) → CompletesFail (.addrEncode imm) s 1) ∧
      ((∀ c ∈ q.hrp, 33 ≤ c.toNat ∧ c.toNat ≤ 126) →
        (((∃ c ∈ str, 0x41 ≤ c.toNat ∧ c.toNat ≤ 0x5A) ∧ (∃ c ∈ str, 0x61 ≤ c.toNat ∧ c.toNat ≤ 0x7A)) →
          CompletesFail (.addrEncode imm) s 2) ∧
        (¬ ((∃ c ∈ str, 0x41 ≤ c.toNat ∧ c.toNat ≤ 0x5A) ∧ (∃ c ∈ str, 0x61 ≤ c.toNat ∧ c.toNat ≤ 0x7A)) →
          (q.hrp = [] → CompletesFail (.addrEncode imm) s 11) ∧
          (q.hrp ≠ [] → 90 < str.length → CompletesFail (.addrEncode imm) s 4) ∧
          (q.hrp ≠ [] → str.length ≤ 90 → (∃ c ∈ q.hrp, 0x41 ≤ c.toNat ∧ c.toNat ≤ 0x5A) →
            ((∃ v r, stringDecode str v = .ok r) → CompletesFail (.addrEncode imm) s 13) ∧
            ((¬ ∃ v r, stringDecode str v = .ok r) → CompletesFail (.addrEncode imm) s 5)) ∧
          (q.hrp ≠ [] → str.length ≤ 90 → (∀ c ∈ q.hrp, ¬ (0x41 ≤ c.toNat ∧ c.toNat ≤ 0x5A)) →
            (16 < imm.toNat → CompletesFail (.addrEncode imm) s 7) ∧
            (imm.toNat ≤ 16 → ¬ VersionAllows imm.toNat q.input.length → CompletesFail (.addrEncode imm) s 8)))))

/-- R106, R111: ADDR_DECODE gives the version, M and the program of a witness address, and fails with one of R106's codes on
any other string, the one `addressDecode` raises (AddressDecodeAcceptsExactly says which; R114). -/
def Obligations.AddrDecodeCommand : Prop :=
  ∀ (s : State) (q : InFlight), s.inflight = some q → q.hlen.toNat ≤ 256 → q.ilen.toNat ≤ 256 →
    (∀ w, IsWitnessAddress q.hrp q.input w →
      CompletesOk .addrDecode s (BitVec.ofNat 32 (w.version.toNat + if w.bech32m then 256 else 0)) w.program []) ∧
    ((¬ ∃ w, IsWitnessAddress q.hrp q.input w) →
      ∃ code ∈ [1, 2, 3, 11, 12, 4, 5, 13, 14, 7, 15, 8, 9], CompletesFail .addrDecode s code) ∧
    (∀ c, addressDecode q.hrp q.input = .fail c → CompletesFail .addrDecode s (failNumber c).toNat)
end

