-- ==== Sys2Proof/Laws/Memory.lean ====
section
/-! SUPPORT. The buffers: reading what was written, leaving every other cell alone, and the canonical form, which every
operation keeps. -/

namespace Sys2Proof.Machine

theorem lookupCell_insertCell_same (i : Nat) (v : Byte) (l : List Host.Cell) :
    lookupCell i (insertCell i v l) = some v := by
  induction l with
  | nil => simp [insertCell, lookupCell]
  | cons c rest ih =>
    obtain ⟨j, w⟩ := c
    by_cases h1 : i < j
    · simp [insertCell, lookupCell, h1]
    · by_cases h2 : i = j
      · subst h2; simp [insertCell, lookupCell]
      · simp [insertCell, lookupCell, h1, h2, ih]

theorem lookupCell_insertCell_other {i j : Nat} (hij : i ≠ j) (v : Byte) (l : List Host.Cell) :
    lookupCell i (insertCell j v l) = lookupCell i l := by
  induction l with
  | nil => simp [insertCell, lookupCell, hij]
  | cons c rest ih =>
    obtain ⟨k, w⟩ := c
    by_cases h1 : j < k
    · simp [insertCell, lookupCell, h1, hij]
    · by_cases h2 : j = k
      · subst h2; simp [insertCell, lookupCell, hij]
      · by_cases h3 : i = k
        · simp [insertCell, lookupCell, h1, h2, h3]
        · simp [insertCell, lookupCell, h1, h2, h3, ih]

@[simp] theorem bufWrite_fill (m : Memory) (i : Nat) (v : Byte) : (bufWrite m i v).fill = m.fill := rfl

/-- A read after a write to the same cell gives the value written. -/
@[simp] theorem bufRead_bufWrite_same (m : Memory) (i : Nat) (v : Byte) : bufRead (bufWrite m i v) i = v := by
  simp [bufRead, bufWrite, lookupCell_insertCell_same]

/-- A write leaves every other cell alone. -/
theorem bufRead_bufWrite_other {i j : Nat} (h : i ≠ j) (m : Memory) (v : Byte) :
    bufRead (bufWrite m j v) i = bufRead m i := by
  simp [bufRead, bufWrite, lookupCell_insertCell_other h]

theorem cellsWf_weaken {lo lo' : Nat} (h : lo' ≤ lo) {l : List Host.Cell} (hl : cellsWf lo l = true) :
    cellsWf lo' l = true := by
  cases l with
  | nil => rfl
  | cons c rest =>
    obtain ⟨i, v⟩ := c
    simp only [cellsWf, Bool.and_eq_true, decide_eq_true_eq] at hl ⊢
    exact ⟨⟨by omega, hl.1.2⟩, hl.2⟩

theorem cellsWf_insertCell {lo i : Nat} (v : Byte) (hlo : lo ≤ i) (hi : i < capacity) {l : List Host.Cell}
    (hl : cellsWf lo l = true) : cellsWf lo (insertCell i v l) = true := by
  induction l generalizing lo with
  | nil => simp [insertCell, cellsWf, hlo, hi]
  | cons c rest ih =>
    obtain ⟨j, w⟩ := c
    have hl' := hl
    simp only [cellsWf, Bool.and_eq_true, decide_eq_true_eq] at hl
    obtain ⟨⟨hlj, hj⟩, hrest⟩ := hl
    by_cases h1 : i < j
    · simp only [insertCell, h1, if_true, cellsWf, Bool.and_eq_true, decide_eq_true_eq]
      exact ⟨⟨hlo, hi⟩, ⟨by omega, hj⟩, hrest⟩
    · by_cases h2 : i = j
      · subst h2
        simp only [insertCell, h1, if_false, if_true, cellsWf, Bool.and_eq_true, decide_eq_true_eq]
        exact ⟨⟨hlo, hi⟩, hrest⟩
      · simp only [insertCell, h1, h2, if_false, cellsWf, Bool.and_eq_true, decide_eq_true_eq]
        exact ⟨⟨hlj, hj⟩, ih (by omega) hrest⟩

/-- Writing a cell of the buffer keeps the canonical form. -/
theorem bufWrite_wf {m : Memory} (hm : m.wf = true) {i : Nat} (hi : i < capacity) (v : Byte) :
    (bufWrite m i v).wf = true :=
  cellsWf_insertCell v (Nat.zero_le i) hi hm

@[simp] theorem unspecifiedBuffer_wf (n : Nat) : (unspecifiedBuffer n).wf = true := rfl

@[simp] theorem unspecifiedBuffer_fill (n : Nat) : (unspecifiedBuffer n).fill = n := rfl

@[simp] theorem unspecifiedBuffer_cells (n : Nat) : (unspecifiedBuffer n).cells = [] := rfl

@[simp] theorem writeCells_fill (m : Memory) (i : Nat) (vs : List Byte) : (writeCells m i vs).fill = m.fill := by
  induction vs generalizing m i with
  | nil => rfl
  | cons v vs ih => simp [writeCells, ih]

/-- Writing cells of the buffer keeps the canonical form. -/
theorem writeCells_wf {m : Memory} (hm : m.wf = true) {i : Nat} {vs : List Byte} (h : i + vs.length ≤ capacity) :
    (writeCells m i vs).wf = true := by
  induction vs generalizing m i with
  | nil => exact hm
  | cons v vs ih =>
    simp only [List.length_cons] at h
    exact ih (bufWrite_wf hm (by omega) v) (by omega)

theorem lookupCell_writeCells_below {m : Memory} {i j : Nat} (h : j < i) (vs : List Byte) :
    lookupCell j (writeCells m i vs).cells = lookupCell j m.cells := by
  induction vs generalizing m i with
  | nil => rfl
  | cons v vs ih =>
    rw [writeCells, ih (by omega)]
    exact lookupCell_insertCell_other (by omega) v m.cells

theorem lookupCell_writeCells_above {m : Memory} {i j : Nat} {vs : List Byte} (h : i + vs.length ≤ j) :
    lookupCell j (writeCells m i vs).cells = lookupCell j m.cells := by
  induction vs generalizing m i with
  | nil => rfl
  | cons v vs ih =>
    simp only [List.length_cons] at h
    rw [writeCells, ih (by omega)]
    exact lookupCell_insertCell_other (by omega) v m.cells

theorem lookupCell_writeCells {m : Memory} {i : Nat} {vs : List Byte} {k : Nat} (h : k < vs.length) :
    lookupCell (i + k) (writeCells m i vs).cells = some vs[k] := by
  induction vs generalizing m i k with
  | nil => simp at h
  | cons v vs ih =>
    cases k with
    | zero =>
      rw [writeCells, Nat.add_zero, lookupCell_writeCells_below (by omega)]
      exact lookupCell_insertCell_same i v m.cells
    | succ k =>
      simp only [List.length_cons, Nat.add_lt_add_iff_right] at h
      have := ih (m := bufWrite m i v) (i := i + 1) h
      rw [writeCells, List.getElem_cons_succ, ← this]
      congr 1
      omega

/-- A cell a write of several cells names reads as the value written. -/
theorem bufRead_writeCells {m : Memory} {i : Nat} {vs : List Byte} {k : Nat} (h : k < vs.length) :
    bufRead (writeCells m i vs) (i + k) = vs[k] := by
  simp [bufRead, lookupCell_writeCells h]

/-- A write of several cells leaves every other cell alone. -/
theorem bufRead_writeCells_other {m : Memory} {i j : Nat} {vs : List Byte} (h : j < i ∨ i + vs.length ≤ j) :
    bufRead (writeCells m i vs) j = bufRead m j := by
  rcases h with h | h
  · simp [bufRead, lookupCell_writeCells_below h]
  · simp [bufRead, lookupCell_writeCells_above h]

@[simp] theorem outputBuffer_fill (n : Nat) (out : List Byte) : (outputBuffer n out).fill = n := by
  simp [outputBuffer]

theorem outputBuffer_wf {n : Nat} {out : List Byte} (h : out.length ≤ capacity) : (outputBuffer n out).wf = true :=
  writeCells_wf (unspecifiedBuffer_wf n) (by omega)

/-- After a completion the cells below the output's length hold the output. -/
theorem bufRead_outputBuffer {n : Nat} {out : List Byte} {i : Nat} (h : i < out.length) :
    bufRead (outputBuffer n out) i = out[i] := by
  have := bufRead_writeCells (m := unspecifiedBuffer n) (i := 0) h
  simpa [outputBuffer] using this

/-- After a completion the cells from the output's length on are unspecified. -/
theorem lookupCell_outputBuffer_above {n : Nat} {out : List Byte} {i : Nat} (h : out.length ≤ i) :
    lookupCell i (outputBuffer n out).cells = none := by
  rw [outputBuffer, lookupCell_writeCells_above (by omega)]
  rfl

theorem insertCell_append_last {i : Nat} (v : Byte) {l : List Host.Cell} (h : ∀ c ∈ l, c.1 < i) :
    insertCell i v l = l ++ [(i, v)] := by
  induction l with
  | nil => rfl
  | cons c rest ih =>
    obtain ⟨j, w⟩ := c
    have hj : j < i := h (j, w) (by simp)
    have hr : ∀ c ∈ rest, c.1 < i := fun c hc => h c (by simp [hc])
    simp [insertCell, Nat.not_lt.mpr (Nat.le_of_lt hj), Nat.ne_of_gt hj, ih hr]

/-- Writing cells past the last listed one appends them in order. -/
theorem writeCells_cells_append {m : Memory} {i : Nat} {vs : List Byte} (h : ∀ c ∈ m.cells, c.1 < i) :
    (writeCells m i vs).cells = m.cells ++ (vs.zipIdx i).map Prod.swap := by
  induction vs generalizing m i with
  | nil => simp [writeCells]
  | cons v vs ih =>
    have hw : (bufWrite m i v).cells = m.cells ++ [(i, v)] := insertCell_append_last v h
    rw [writeCells, ih, hw]
    · simp
    · intro c hc
      rw [hw, List.mem_append, List.mem_singleton] at hc
      rcases hc with hc | rfl
      · exact Nat.lt_succ_of_lt (h c hc)
      · exact Nat.lt_succ_self i

/-- The listed cells after a completion: the output, in order, from cell 0 on. -/
theorem outputBuffer_cells (n : Nat) (out : List Byte) :
    (outputBuffer n out).cells = out.zipIdx.map Prod.swap := by
  rw [outputBuffer, writeCells_cells_append] <;> simp

/-- The indices listed after a completion are those below the output's length. -/
theorem outputBuffer_indices (n : Nat) (out : List Byte) :
    (outputBuffer n out).cells.map Prod.fst = List.range out.length := by
  rw [outputBuffer_cells, List.map_map]
  have : (Prod.fst ∘ Prod.swap : Byte × Nat → Nat) = Prod.snd := rfl
  rw [this, List.zipIdx_map_snd, List.range_eq_range']

/-- The prefix of a buffer that holds a list from cell 0 on is that list. -/
theorem bufPrefix_outputBuffer (n : Nat) (out : List Byte) : bufPrefix (outputBuffer n out) out.length = out := by
  apply List.ext_getElem
  · simp [bufPrefix]
  · intro i h1 h2
    simp [bufPrefix, bufRead_outputBuffer h2]

theorem bufPrefix_outputBuffer_of_length {n k : Nat} {out : List Byte} (h : out.length = k) :
    bufPrefix (outputBuffer n out) k = out := by
  subst h; exact bufPrefix_outputBuffer n out

end Sys2Proof.Machine
end

