-- ==== Sys2Proof/Laws/Result.lean ====
section
/-! SUPPORT. The outcomes of a command: `bind`, `failIf`, and the operands' checks. -/

namespace Sys2Proof.Machine

@[simp] theorem Res.bind_ok {α β : Type} (a : α) (f : α → Res β) : (Res.ok a).bind f = f a := rfl

@[simp] theorem Res.bind_fail {α β : Type} (c : FailCode) (f : α → Res β) : (Res.fail c).bind f = .fail c := rfl

theorem Res.bind_eq_ok {α β : Type} {r : Res α} {f : α → Res β} {b : β} :
    r.bind f = .ok b ↔ ∃ a, r = .ok a ∧ f a = .ok b := by
  cases r <;> simp

theorem Res.bind_eq_fail {α β : Type} {r : Res α} {f : α → Res β} {c : FailCode} :
    r.bind f = .fail c ↔ r = .fail c ∨ ∃ a, r = .ok a ∧ f a = .fail c := by
  cases r <;> simp

@[simp] theorem failIf_true {α : Type} (c : FailCode) (k : Res α) : failIf true c k = .fail c := rfl

@[simp] theorem failIf_false {α : Type} (c : FailCode) (k : Res α) : failIf false c k = k := rfl

theorem failIf_eq_ok {α : Type} {bad : Bool} {c : FailCode} {k : Res α} {a : α} :
    failIf bad c k = .ok a ↔ bad = false ∧ k = .ok a := by
  cases bad <;> simp

theorem failIf_eq_fail {α : Type} {bad : Bool} {c d : FailCode} {k : Res α} :
    failIf bad c k = .fail d ↔ (bad = true ∧ c = d) ∨ (bad = false ∧ k = .fail d) := by
  cases bad <;> simp

/-- The number of every code is in 1..19 (R113). -/
theorem failNumber_range (c : FailCode) : 1 ≤ (failNumber c).toNat ∧ (failNumber c).toNat ≤ 19 := by
  cases c <;> decide

/-- Different codes have different numbers (R113). -/
theorem failNumber_injective {c d : FailCode} (h : failNumber c = failNumber d) : c = d := by
  revert h; cases c <;> cases d <;> decide

@[simp] theorem bufPrefix_length (m : Memory) (n : Nat) : (bufPrefix m n).length = n := by
  simp [bufPrefix]

theorem hrpOperand_of_le {q : InFlight} (h : q.hlen.toNat ≤ capacity) :
    hrpOperand q = .ok (bufPrefix q.bufH q.hlen.toNat) := by
  simp [hrpOperand, Nat.not_lt.mpr h]

theorem hrpOperand_of_gt {q : InFlight} (h : capacity < q.hlen.toNat) : hrpOperand q = .fail .lengthError := by
  simp [hrpOperand, h]

theorem inputOperand_of_le {q : InFlight} (h : q.ilen.toNat ≤ capacity) :
    inputOperand q = .ok (bufPrefix q.bufI q.ilen.toNat) := by
  simp [inputOperand, Nat.not_lt.mpr h]

theorem inputOperand_of_gt {q : InFlight} (h : capacity < q.ilen.toNat) : inputOperand q = .fail .lengthError := by
  simp [inputOperand, h]

@[simp] theorem variantOperand_zero : variantOperand 0 = .ok .bech32 := rfl

@[simp] theorem variantOperand_one : variantOperand 1 = .ok .bech32m := rfl

theorem variantOperand_of_ge {var : BitVec 2} (h : 2 ≤ var.toNat) : variantOperand var = .fail .unknownVariant := by
  unfold variantOperand
  split <;> first | omega | rfl

theorem symbolOperand_of_all {l : List Byte} (h : ∀ v ∈ l, v.toNat ≤ 31) :
    symbolOperand l = .ok (l.map (BitVec.setWidth 5)) := by
  have : (l.any fun v => decide (31 < v.toNat)) = false := by
    simpa [List.any_eq_false] using h
  simp only [symbolOperand, this, failIf_false]

theorem symbolOperand_of_not {l : List Byte} (h : ∃ v ∈ l, 31 < v.toNat) : symbolOperand l = .fail .invalidSymbol := by
  have : (l.any fun v => decide (31 < v.toNat)) = true := by
    simpa [List.any_eq_true] using h
  simp only [symbolOperand, this, failIf_true]

end Sys2Proof.Machine
end

