-- ==== Sys2Proof/Laws/State.lean ====
section
/-! SUPPORT. What each named update of the state does to each field, so that no proof unfolds a record update. -/

namespace Sys2Proof.Machine

/-! ### `accept` -/

@[simp] theorem accept_cmd (s : State) (w : Word) : (accept s w).cmd = w := rfl
@[simp] theorem accept_status (s : State) (w : Word) : (accept s w).status = acceptedStatus := rfl
@[simp] theorem accept_hrpLen (s : State) (w : Word) : (accept s w).hrpLen = s.hrpLen := rfl
@[simp] theorem accept_inLen (s : State) (w : Word) : (accept s w).inLen = s.inLen := rfl
@[simp] theorem accept_outLen (s : State) (w : Word) : (accept s w).outLen = s.outLen := rfl
@[simp] theorem accept_out2Len (s : State) (w : Word) : (accept s w).out2Len = s.out2Len := rfl
@[simp] theorem accept_result (s : State) (w : Word) : (accept s w).result = s.result := rfl
@[simp] theorem accept_bufH (s : State) (w : Word) : (accept s w).bufH = s.bufH := rfl
@[simp] theorem accept_bufI (s : State) (w : Word) : (accept s w).bufI = s.bufI := rfl
@[simp] theorem accept_bufO (s : State) (w : Word) : (accept s w).bufO = s.bufO := rfl
@[simp] theorem accept_bufP (s : State) (w : Word) : (accept s w).bufP = s.bufP := rfl
@[simp] theorem accept_chk (s : State) (w : Word) : (accept s w).chk = s.chk := rfl
@[simp] theorem accept_conv85 (s : State) (w : Word) : (accept s w).conv85 = s.conv85 := rfl
@[simp] theorem accept_conv58 (s : State) (w : Word) : (accept s w).conv58 = s.conv58 := rfl
@[simp] theorem accept_inflight (s : State) (w : Word) : (accept s w).inflight = some { word := w, hlen := s.hrpLen, ilen := s.inLen, bufH := s.bufH, bufI := s.bufI } := rfl
@[simp] theorem accept_host (s : State) (w : Word) : (accept s w).host = s.host := rfl
@[simp] theorem accept_turns (s : State) (w : Word) : (accept s w).turns = s.turns := rfl
@[simp] theorem accept_log (s : State) (w : Word) : (accept s w).log = s.log := rfl
@[simp] theorem accept_draws (s : State) (w : Word) : (accept s w).draws = s.draws := rfl

/-! ### `completeOk` -/

@[simp] theorem completeOk_cmd (s : State) (o : Output) : (completeOk s o).cmd = s.cmd := rfl
@[simp] theorem completeOk_status (s : State) (o : Output) : (completeOk s o).status = okStatus s.status := rfl
@[simp] theorem completeOk_hrpLen (s : State) (o : Output) : (completeOk s o).hrpLen = s.hrpLen := rfl
@[simp] theorem completeOk_inLen (s : State) (o : Output) : (completeOk s o).inLen = s.inLen := rfl
@[simp] theorem completeOk_outLen (s : State) (o : Output) : (completeOk s o).outLen = BitVec.ofNat 9 o.out.length := rfl
@[simp] theorem completeOk_out2Len (s : State) (o : Output) : (completeOk s o).out2Len = BitVec.ofNat 9 o.out2.length := rfl
@[simp] theorem completeOk_result (s : State) (o : Output) : (completeOk s o).result = o.result := rfl
@[simp] theorem completeOk_bufH (s : State) (o : Output) : (completeOk s o).bufH = s.bufH := rfl
@[simp] theorem completeOk_bufI (s : State) (o : Output) : (completeOk s o).bufI = s.bufI := rfl
@[simp] theorem completeOk_bufO (s : State) (o : Output) : (completeOk s o).bufO = outputBuffer s.draws o.out := rfl
@[simp] theorem completeOk_bufP (s : State) (o : Output) : (completeOk s o).bufP = outputBuffer (s.draws + 1) o.out2 := rfl
@[simp] theorem completeOk_chk (s : State) (o : Output) : (completeOk s o).chk = Config.freeChk s.draws := rfl
@[simp] theorem completeOk_conv85 (s : State) (o : Output) : (completeOk s o).conv85 = { acc := Config.freeAcc s.draws, nbits := BitVec.ofNat 4 (Config.freeNbits s.draws).val } := rfl
@[simp] theorem completeOk_conv58 (s : State) (o : Output) : (completeOk s o).conv58 = { acc := Config.freeAcc (s.draws + 1), nbits := BitVec.ofNat 4 (Config.freeNbits (s.draws + 1)).val } := rfl
@[simp] theorem completeOk_inflight (s : State) (o : Output) : (completeOk s o).inflight = none := rfl
@[simp] theorem completeOk_host (s : State) (o : Output) : (completeOk s o).host = s.host := rfl
@[simp] theorem completeOk_turns (s : State) (o : Output) : (completeOk s o).turns = s.turns := rfl
@[simp] theorem completeOk_log (s : State) (o : Output) : (completeOk s o).log = s.log := rfl
@[simp] theorem completeOk_draws (s : State) (o : Output) : (completeOk s o).draws = s.draws + 2 := rfl

/-! ### `completeFail` -/

@[simp] theorem completeFail_cmd (s : State) (c : FailCode) : (completeFail s c).cmd = s.cmd := rfl
@[simp] theorem completeFail_status (s : State) (c : FailCode) : (completeFail s c).status = failStatus c s.status := rfl
@[simp] theorem completeFail_hrpLen (s : State) (c : FailCode) : (completeFail s c).hrpLen = s.hrpLen := rfl
@[simp] theorem completeFail_inLen (s : State) (c : FailCode) : (completeFail s c).inLen = s.inLen := rfl
@[simp] theorem completeFail_outLen (s : State) (c : FailCode) : (completeFail s c).outLen = 0 := rfl
@[simp] theorem completeFail_out2Len (s : State) (c : FailCode) : (completeFail s c).out2Len = 0 := rfl
@[simp] theorem completeFail_result (s : State) (c : FailCode) : (completeFail s c).result = 0 := rfl
@[simp] theorem completeFail_bufH (s : State) (c : FailCode) : (completeFail s c).bufH = s.bufH := rfl
@[simp] theorem completeFail_bufI (s : State) (c : FailCode) : (completeFail s c).bufI = s.bufI := rfl
@[simp] theorem completeFail_bufO (s : State) (c : FailCode) : (completeFail s c).bufO = unspecifiedBuffer s.draws := rfl
@[simp] theorem completeFail_bufP (s : State) (c : FailCode) : (completeFail s c).bufP = unspecifiedBuffer (s.draws + 1) := rfl
@[simp] theorem completeFail_chk (s : State) (c : FailCode) : (completeFail s c).chk = Config.freeChk s.draws := rfl
@[simp] theorem completeFail_conv85 (s : State) (c : FailCode) : (completeFail s c).conv85 = { acc := Config.freeAcc s.draws, nbits := BitVec.ofNat 4 (Config.freeNbits s.draws).val } := rfl
@[simp] theorem completeFail_conv58 (s : State) (c : FailCode) : (completeFail s c).conv58 = { acc := Config.freeAcc (s.draws + 1), nbits := BitVec.ofNat 4 (Config.freeNbits (s.draws + 1)).val } := rfl
@[simp] theorem completeFail_inflight (s : State) (c : FailCode) : (completeFail s c).inflight = none := rfl
@[simp] theorem completeFail_host (s : State) (c : FailCode) : (completeFail s c).host = s.host := rfl
@[simp] theorem completeFail_turns (s : State) (c : FailCode) : (completeFail s c).turns = s.turns := rfl
@[simp] theorem completeFail_log (s : State) (c : FailCode) : (completeFail s c).log = s.log := rfl
@[simp] theorem completeFail_draws (s : State) (c : FailCode) : (completeFail s c).draws = s.draws + 2 := rfl

/-! ### `resetBlock` -/

@[simp] theorem resetBlock_cmd (s : State) : (resetBlock s).cmd = 0 := rfl
@[simp] theorem resetBlock_status (s : State) : (resetBlock s).status = resetStatus := rfl
@[simp] theorem resetBlock_hrpLen (s : State) : (resetBlock s).hrpLen = 0 := rfl
@[simp] theorem resetBlock_inLen (s : State) : (resetBlock s).inLen = 0 := rfl
@[simp] theorem resetBlock_outLen (s : State) : (resetBlock s).outLen = 0 := rfl
@[simp] theorem resetBlock_out2Len (s : State) : (resetBlock s).out2Len = 0 := rfl
@[simp] theorem resetBlock_result (s : State) : (resetBlock s).result = 0 := rfl
@[simp] theorem resetBlock_bufH (s : State) : (resetBlock s).bufH = unspecifiedBuffer s.draws := rfl
@[simp] theorem resetBlock_bufI (s : State) : (resetBlock s).bufI = unspecifiedBuffer (s.draws + 1) := rfl
@[simp] theorem resetBlock_bufO (s : State) : (resetBlock s).bufO = unspecifiedBuffer (s.draws + 2) := rfl
@[simp] theorem resetBlock_bufP (s : State) : (resetBlock s).bufP = unspecifiedBuffer (s.draws + 3) := rfl
@[simp] theorem resetBlock_chk (s : State) : (resetBlock s).chk = Config.freeChk s.draws := rfl
@[simp] theorem resetBlock_conv85 (s : State) : (resetBlock s).conv85 = { acc := Config.freeAcc s.draws, nbits := BitVec.ofNat 4 (Config.freeNbits s.draws).val } := rfl
@[simp] theorem resetBlock_conv58 (s : State) : (resetBlock s).conv58 = { acc := Config.freeAcc (s.draws + 1), nbits := BitVec.ofNat 4 (Config.freeNbits (s.draws + 1)).val } := rfl
@[simp] theorem resetBlock_inflight (s : State) : (resetBlock s).inflight = none := rfl
@[simp] theorem resetBlock_host (s : State) : (resetBlock s).host = s.host := rfl
@[simp] theorem resetBlock_turns (s : State) : (resetBlock s).turns = s.turns := rfl
@[simp] theorem resetBlock_log (s : State) : (resetBlock s).log = s.log := rfl
@[simp] theorem resetBlock_draws (s : State) : (resetBlock s).draws = s.draws + 4 := rfl

/-! ### `dropWrite` -/

@[simp] theorem dropWrite_cmd (s : State) : (dropWrite s).cmd = s.cmd := rfl
@[simp] theorem dropWrite_status (s : State) : (dropWrite s).status = ignoredStatus s.status := rfl
@[simp] theorem dropWrite_hrpLen (s : State) : (dropWrite s).hrpLen = s.hrpLen := rfl
@[simp] theorem dropWrite_inLen (s : State) : (dropWrite s).inLen = s.inLen := rfl
@[simp] theorem dropWrite_outLen (s : State) : (dropWrite s).outLen = s.outLen := rfl
@[simp] theorem dropWrite_out2Len (s : State) : (dropWrite s).out2Len = s.out2Len := rfl
@[simp] theorem dropWrite_result (s : State) : (dropWrite s).result = s.result := rfl
@[simp] theorem dropWrite_bufH (s : State) : (dropWrite s).bufH = s.bufH := rfl
@[simp] theorem dropWrite_bufI (s : State) : (dropWrite s).bufI = s.bufI := rfl
@[simp] theorem dropWrite_bufO (s : State) : (dropWrite s).bufO = s.bufO := rfl
@[simp] theorem dropWrite_bufP (s : State) : (dropWrite s).bufP = s.bufP := rfl
@[simp] theorem dropWrite_chk (s : State) : (dropWrite s).chk = s.chk := rfl
@[simp] theorem dropWrite_conv85 (s : State) : (dropWrite s).conv85 = s.conv85 := rfl
@[simp] theorem dropWrite_conv58 (s : State) : (dropWrite s).conv58 = s.conv58 := rfl
@[simp] theorem dropWrite_inflight (s : State) : (dropWrite s).inflight = s.inflight := rfl
@[simp] theorem dropWrite_host (s : State) : (dropWrite s).host = s.host := rfl
@[simp] theorem dropWrite_turns (s : State) : (dropWrite s).turns = s.turns := rfl
@[simp] theorem dropWrite_log (s : State) : (dropWrite s).log = s.log := rfl
@[simp] theorem dropWrite_draws (s : State) : (dropWrite s).draws = s.draws := rfl

/-! ### `afterRead` counts a draw at most; `hostRead` and `hostWrite` add a record -/

@[simp] theorem afterRead_cmd (s : State) (a : Addr) : (afterRead s a).cmd = s.cmd := by
  unfold afterRead; split <;> rfl
@[simp] theorem hostRead_cmd (s : State) (a : Addr) : (hostRead s a).cmd = s.cmd := by
  simp [hostRead]
@[simp] theorem afterRead_status (s : State) (a : Addr) : (afterRead s a).status = s.status := by
  unfold afterRead; split <;> rfl
@[simp] theorem hostRead_status (s : State) (a : Addr) : (hostRead s a).status = s.status := by
  simp [hostRead]
@[simp] theorem afterRead_hrpLen (s : State) (a : Addr) : (afterRead s a).hrpLen = s.hrpLen := by
  unfold afterRead; split <;> rfl
@[simp] theorem hostRead_hrpLen (s : State) (a : Addr) : (hostRead s a).hrpLen = s.hrpLen := by
  simp [hostRead]
@[simp] theorem afterRead_inLen (s : State) (a : Addr) : (afterRead s a).inLen = s.inLen := by
  unfold afterRead; split <;> rfl
@[simp] theorem hostRead_inLen (s : State) (a : Addr) : (hostRead s a).inLen = s.inLen := by
  simp [hostRead]
@[simp] theorem afterRead_outLen (s : State) (a : Addr) : (afterRead s a).outLen = s.outLen := by
  unfold afterRead; split <;> rfl
@[simp] theorem hostRead_outLen (s : State) (a : Addr) : (hostRead s a).outLen = s.outLen := by
  simp [hostRead]
@[simp] theorem afterRead_out2Len (s : State) (a : Addr) : (afterRead s a).out2Len = s.out2Len := by
  unfold afterRead; split <;> rfl
@[simp] theorem hostRead_out2Len (s : State) (a : Addr) : (hostRead s a).out2Len = s.out2Len := by
  simp [hostRead]
@[simp] theorem afterRead_result (s : State) (a : Addr) : (afterRead s a).result = s.result := by
  unfold afterRead; split <;> rfl
@[simp] theorem hostRead_result (s : State) (a : Addr) : (hostRead s a).result = s.result := by
  simp [hostRead]
@[simp] theorem afterRead_bufH (s : State) (a : Addr) : (afterRead s a).bufH = s.bufH := by
  unfold afterRead; split <;> rfl
@[simp] theorem hostRead_bufH (s : State) (a : Addr) : (hostRead s a).bufH = s.bufH := by
  simp [hostRead]
@[simp] theorem afterRead_bufI (s : State) (a : Addr) : (afterRead s a).bufI = s.bufI := by
  unfold afterRead; split <;> rfl
@[simp] theorem hostRead_bufI (s : State) (a : Addr) : (hostRead s a).bufI = s.bufI := by
  simp [hostRead]
@[simp] theorem afterRead_bufO (s : State) (a : Addr) : (afterRead s a).bufO = s.bufO := by
  unfold afterRead; split <;> rfl
@[simp] theorem hostRead_bufO (s : State) (a : Addr) : (hostRead s a).bufO = s.bufO := by
  simp [hostRead]
@[simp] theorem afterRead_bufP (s : State) (a : Addr) : (afterRead s a).bufP = s.bufP := by
  unfold afterRead; split <;> rfl
@[simp] theorem hostRead_bufP (s : State) (a : Addr) : (hostRead s a).bufP = s.bufP := by
  simp [hostRead]
@[simp] theorem afterRead_chk (s : State) (a : Addr) : (afterRead s a).chk = s.chk := by
  unfold afterRead; split <;> rfl
@[simp] theorem hostRead_chk (s : State) (a : Addr) : (hostRead s a).chk = s.chk := by
  simp [hostRead]
@[simp] theorem afterRead_conv85 (s : State) (a : Addr) : (afterRead s a).conv85 = s.conv85 := by
  unfold afterRead; split <;> rfl
@[simp] theorem hostRead_conv85 (s : State) (a : Addr) : (hostRead s a).conv85 = s.conv85 := by
  simp [hostRead]
@[simp] theorem afterRead_conv58 (s : State) (a : Addr) : (afterRead s a).conv58 = s.conv58 := by
  unfold afterRead; split <;> rfl
@[simp] theorem hostRead_conv58 (s : State) (a : Addr) : (hostRead s a).conv58 = s.conv58 := by
  simp [hostRead]
@[simp] theorem afterRead_inflight (s : State) (a : Addr) : (afterRead s a).inflight = s.inflight := by
  unfold afterRead; split <;> rfl
@[simp] theorem hostRead_inflight (s : State) (a : Addr) : (hostRead s a).inflight = s.inflight := by
  simp [hostRead]
@[simp] theorem afterRead_host (s : State) (a : Addr) : (afterRead s a).host = s.host := by
  unfold afterRead; split <;> rfl
@[simp] theorem hostRead_host (s : State) (a : Addr) : (hostRead s a).host = s.host := by
  simp [hostRead]
@[simp] theorem afterRead_turns (s : State) (a : Addr) : (afterRead s a).turns = s.turns := by
  unfold afterRead; split <;> rfl
@[simp] theorem hostRead_turns (s : State) (a : Addr) : (hostRead s a).turns = s.turns := by
  simp [hostRead]
@[simp] theorem afterRead_log (s : State) (a : Addr) : (afterRead s a).log = s.log := by
  unfold afterRead; split <;> rfl
@[simp] theorem hostRead_draws (s : State) (a : Addr) : (hostRead s a).draws = (afterRead s a).draws := rfl
@[simp] theorem hostRead_log (s : State) (a : Addr) : (hostRead s a).log = s.log ++ [readRecord s a] := rfl
@[simp] theorem hostWrite_cmd (s : State) (a : Addr) (v : Word) : (hostWrite s a v).cmd = (afterWrite s a v).cmd := rfl
@[simp] theorem hostWrite_status (s : State) (a : Addr) (v : Word) : (hostWrite s a v).status = (afterWrite s a v).status := rfl
@[simp] theorem hostWrite_hrpLen (s : State) (a : Addr) (v : Word) : (hostWrite s a v).hrpLen = (afterWrite s a v).hrpLen := rfl
@[simp] theorem hostWrite_inLen (s : State) (a : Addr) (v : Word) : (hostWrite s a v).inLen = (afterWrite s a v).inLen := rfl
@[simp] theorem hostWrite_outLen (s : State) (a : Addr) (v : Word) : (hostWrite s a v).outLen = (afterWrite s a v).outLen := rfl
@[simp] theorem hostWrite_out2Len (s : State) (a : Addr) (v : Word) : (hostWrite s a v).out2Len = (afterWrite s a v).out2Len := rfl
@[simp] theorem hostWrite_result (s : State) (a : Addr) (v : Word) : (hostWrite s a v).result = (afterWrite s a v).result := rfl
@[simp] theorem hostWrite_bufH (s : State) (a : Addr) (v : Word) : (hostWrite s a v).bufH = (afterWrite s a v).bufH := rfl
@[simp] theorem hostWrite_bufI (s : State) (a : Addr) (v : Word) : (hostWrite s a v).bufI = (afterWrite s a v).bufI := rfl
@[simp] theorem hostWrite_bufO (s : State) (a : Addr) (v : Word) : (hostWrite s a v).bufO = (afterWrite s a v).bufO := rfl
@[simp] theorem hostWrite_bufP (s : State) (a : Addr) (v : Word) : (hostWrite s a v).bufP = (afterWrite s a v).bufP := rfl
@[simp] theorem hostWrite_chk (s : State) (a : Addr) (v : Word) : (hostWrite s a v).chk = (afterWrite s a v).chk := rfl
@[simp] theorem hostWrite_conv85 (s : State) (a : Addr) (v : Word) : (hostWrite s a v).conv85 = (afterWrite s a v).conv85 := rfl
@[simp] theorem hostWrite_conv58 (s : State) (a : Addr) (v : Word) : (hostWrite s a v).conv58 = (afterWrite s a v).conv58 := rfl
@[simp] theorem hostWrite_inflight (s : State) (a : Addr) (v : Word) : (hostWrite s a v).inflight = (afterWrite s a v).inflight := rfl
@[simp] theorem hostWrite_host (s : State) (a : Addr) (v : Word) : (hostWrite s a v).host = (afterWrite s a v).host := rfl
@[simp] theorem hostWrite_turns (s : State) (a : Addr) (v : Word) : (hostWrite s a v).turns = (afterWrite s a v).turns := rfl
@[simp] theorem hostWrite_draws (s : State) (a : Addr) (v : Word) : (hostWrite s a v).draws = (afterWrite s a v).draws := rfl
@[simp] theorem hostWrite_log (s : State) (a : Addr) (v : Word) :
    (hostWrite s a v).log = s.log ++ [.write a v (portResponse a)] := rfl

/-! ### BUSY, whose one home is the command in flight -/

theorem busy_eq (s : State) : s.busy = s.inflight.isSome := rfl

theorem busy_iff (s : State) : s.busy = true ↔ ∃ q, s.inflight = some q := by
  rw [busy_eq, Option.isSome_iff_exists]

theorem not_busy_iff (s : State) : s.busy = false ↔ s.inflight = none := by
  rw [busy_eq, Option.isSome_eq_false_iff, Option.isNone_iff_eq_none]

@[simp] theorem accept_busy (s : State) (w : Word) : (accept s w).busy = true := rfl

@[simp] theorem completeOk_busy (s : State) (o : Output) : (completeOk s o).busy = false := rfl

@[simp] theorem completeFail_busy (s : State) (c : FailCode) : (completeFail s c).busy = false := rfl

@[simp] theorem resetBlock_busy (s : State) : (resetBlock s).busy = false := rfl

@[simp] theorem dropWrite_busy (s : State) : (dropWrite s).busy = s.busy := rfl

@[simp] theorem afterRead_busy (s : State) (a : Addr) : (afterRead s a).busy = s.busy := by
  simp [busy_eq]

/-! ### Updates of the fields outside the block -/

@[simp] theorem busy_withHost (s : State) (h : List Stmt) : ({ s with host := h } : State).busy = s.busy := rfl

@[simp] theorem busy_withTurns (s : State) (ts : List Turn) : ({ s with turns := ts } : State).busy = s.busy := rfl

@[simp] theorem busy_withLog (s : State) (l : List PortRecord) : ({ s with log := l } : State).busy = s.busy := rfl

end Sys2Proof.Machine
end

