-- ==== Sys2Proof/Laws/Complete.lean ====
section
/-! SUPPORT. What completing a command can do, said once: every meaning completes the command in flight with the outcome of
its rule, and the unit's step is the completion with the outcome function of R66. -/

namespace Sys2Proof.Machine

/-- The rule each command's meaning completes with. -/
def ruleOf : Instr → InFlight → Res Output
  | .nop => nopRule
  | .lutS2c imm => lutS2cRule imm
  | .lutC2s imm => lutC2sRule imm
  | .hrpExpand => hrpExpandRule
  | .polymod => polymodRule
  | .csumCreate var => csumCreateRule var
  | .csumVerify var => csumVerifyRule var
  | .conv8to5 pad => conv8to5Rule pad
  | .conv5to8 pad => conv5to8Rule pad
  | .strEncode var => strEncodeRule var
  | .strDecode var => strDecodeRule var
  | .addrEncode imm => addrEncodeRule imm
  | .addrDecode => addrDecodeRule

/-- Every meaning completes the command in flight with the outcome of its rule. -/
theorem exec_eq (i : Instr) (s : State) : exec i s = completeInFlight s (ruleOf i) := by
  cases i <;> rfl

theorem completeInFlight_some {s : State} {q : InFlight} (h : s.inflight = some q) (rule : InFlight → Res Output) :
    completeInFlight s rule = .next (complete s (rule q)) := by
  simp [completeInFlight, h]

theorem completeInFlight_none {s : State} (h : s.inflight = none) (rule : InFlight → Res Output) :
    completeInFlight s rule = .fault .noCommandInFlight := by
  simp [completeInFlight, h]

/-- A meaning that answers a next state completed the command in flight. -/
theorem completeInFlight_eq_next {s t : State} {rule : InFlight → Res Output} :
    completeInFlight s rule = .next t ↔ ∃ q, s.inflight = some q ∧ t = complete s (rule q) := by
  cases h : s.inflight <;> simp [completeInFlight, h, eq_comm]

/-- With a command in flight `exec` answers the completion with the outcome of the command's rule. -/
theorem exec_some {s : State} {q : InFlight} (h : s.inflight = some q) (i : Instr) :
    exec i s = .next (complete s (ruleOf i q)) := by
  rw [exec_eq, completeInFlight_some h]

/-- `exec` answers a next state only for the command in flight, and completes it with the outcome of its rule. -/
theorem exec_eq_next {i : Instr} {s t : State} :
    exec i s = .next t ↔ ∃ q, s.inflight = some q ∧ t = complete s (ruleOf i q) := by
  rw [exec_eq, completeInFlight_eq_next]

@[simp] theorem complete_ok (s : State) (o : Output) : complete s (.ok o) = completeOk s o := rfl

@[simp] theorem complete_fail (s : State) (c : FailCode) : complete s (.fail c) = completeFail s c := rfl

@[simp] theorem complete_cmd (s : State) (r : Res Output) : (complete s r).cmd = s.cmd := by cases r <;> rfl

@[simp] theorem complete_hrpLen (s : State) (r : Res Output) : (complete s r).hrpLen = s.hrpLen := by cases r <;> rfl

@[simp] theorem complete_inLen (s : State) (r : Res Output) : (complete s r).inLen = s.inLen := by cases r <;> rfl

@[simp] theorem complete_bufH (s : State) (r : Res Output) : (complete s r).bufH = s.bufH := by cases r <;> rfl

@[simp] theorem complete_bufI (s : State) (r : Res Output) : (complete s r).bufI = s.bufI := by cases r <;> rfl

@[simp] theorem complete_host (s : State) (r : Res Output) : (complete s r).host = s.host := by cases r <;> rfl

@[simp] theorem complete_turns (s : State) (r : Res Output) : (complete s r).turns = s.turns := by cases r <;> rfl

@[simp] theorem complete_log (s : State) (r : Res Output) : (complete s r).log = s.log := by cases r <;> rfl

@[simp] theorem complete_inflight (s : State) (r : Res Output) : (complete s r).inflight = none := by cases r <;> rfl

@[simp] theorem complete_busy (s : State) (r : Res Output) : (complete s r).busy = false := by cases r <;> rfl

@[simp] theorem complete_draws (s : State) (r : Res Output) : (complete s r).draws = s.draws + 2 := by cases r <;> rfl

@[simp] theorem complete_done (s : State) (r : Res Output) : (complete s r).status.done = true := by cases r <;> rfl

@[simp] theorem complete_wrIgnored (s : State) (r : Res Output) :
    (complete s r).status.wrIgnored = s.status.wrIgnored := by cases r <;> rfl

/-- The outcome function of R66: check 1 on the word, then the selected command's rule on the snapshot. -/
def outcomeOf (q : InFlight) : Res Output :=
  match decode q.word with
  | .ok i => ruleOf i q
  | .error _ => .fail .illegalCommand

/-- The unit's step is the completion with the outcome function of R66. -/
theorem unitStep_some {s : State} {q : InFlight} (h : s.inflight = some q) :
    unitStep s = .next (complete s (outcomeOf q)) := by
  unfold unitStep outcomeOf
  rw [h]
  cases hd : decode q.word with
  | ok i => simp [hd, exec_some h]
  | error e => simp [hd]

theorem unitStep_none {s : State} (h : s.inflight = none) : unitStep s = .next s := by
  simp [unitStep, h]

/-- The unit's step completes the command in flight, or does nothing. -/
theorem unitStep_cases (s : State) :
    (s.inflight = none ∧ unitStep s = .next s) ∨
      ∃ q, s.inflight = some q ∧ unitStep s = .next (complete s (outcomeOf q)) := by
  cases h : s.inflight with
  | none => exact .inl ⟨rfl, unitStep_none h⟩
  | some q => exact .inr ⟨q, rfl, unitStep_some h⟩

end Sys2Proof.Machine
end

