-- ==== Sys2Proof/Laws/Converter.lean ====
section
/-! SUPPORT. The bit-width converters: what one `push` and one `finish` do to the bitstream, and what `convRun` answers. -/

namespace Sys2Proof.Machine

/-- The low `n` bits of ACC, most significant first: the bits of the stream a converter still holds. -/
def heldBits (acc : BitVec 12) (n : Nat) : List Bool := (List.range n).map fun i => acc.getLsbD (n - 1 - i)

/-- The low `w` bits of one value, most significant first. -/
def valueBits (w : Nat) (v : Byte) : List Bool := (List.range w).map fun i => v.getLsbD (w - 1 - i)

@[simp] theorem heldBits_zero (acc : BitVec 12) : heldBits acc 0 = [] := rfl

@[simp] theorem heldBits_length (acc : BitVec 12) (n : Nat) : (heldBits acc n).length = n := by simp [heldBits]

@[simp] theorem valueBits_length (w : Nat) (v : Byte) : (valueBits w v).length = w := by simp [valueBits]

@[simp] theorem bitStream_nil (w : Nat) : bitStream w [] = [] := rfl

theorem bitStream_cons (w : Nat) (v : Byte) (vs : List Byte) :
    bitStream w (v :: vs) = valueBits w v ++ bitStream w vs := rfl

theorem bitStream_append (w : Nat) (xs ys : List Byte) :
    bitStream w (xs ++ ys) = bitStream w xs ++ bitStream w ys := by
  simp [bitStream]

theorem bitStream_length (w : Nat) (vs : List Byte) : (bitStream w vs).length = w * vs.length := by
  induction vs with
  | nil => simp
  | cons v vs ih => rw [bitStream_cons, List.length_append, ih, valueBits_length, List.length_cons]; ring

/-- Two lists of bits given by index agree if they agree at every index. -/
theorem mapRange_eq {n : Nat} {f g : Nat → Bool} (h : ∀ i, i < n → f i = g i) :
    (List.range n).map f = (List.range n).map g :=
  List.map_congr_left fun i hi => h i (List.mem_range.mp hi)

/-- A value below `2^f` has no bit at or above `f`. -/
theorem getLsbD_of_lt {v : Byte} {f i : Nat} (hv : v.toNat < 2 ^ f) (hi : f ≤ i) : v.getLsbD i = false := by
  rw [BitVec.getLsbD, Nat.testBit_lt_two_pow]
  exact Nat.lt_of_lt_of_le hv (Nat.pow_le_pow_right (by omega) hi)

theorem heldBits_split {acc : BitVec 12} {m n : Nat} (h : m ≤ n) :
    heldBits acc n = heldBits (acc >>> m) (n - m) ++ heldBits acc m := by
  have e : n = (n - m) + m := by omega
  unfold heldBits
  conv_lhs => rw [e, List.range_add, List.map_append, List.map_map]
  congr 1
  · apply mapRange_eq
    intro i hi
    rw [BitVec.getLsbD_ushiftRight]
    congr 1; omega
  · apply mapRange_eq
    intro i hi
    simp only [Function.comp]
    congr 1; omega

theorem heldBits_push {acc : BitVec 12} {v : Byte} {f n : Nat} (hf : f ≤ 8) (hn : n + f ≤ 12)
    (hv : v.toNat < 2 ^ f) :
    heldBits ((acc <<< f) ||| v.setWidth 12) (n + f) = heldBits acc n ++ valueBits f v := by
  rw [heldBits_split (m := f) (by omega), Nat.add_sub_cancel]
  congr 1
  · apply mapRange_eq
    intro i hi
    have : v.getLsbD (f + (n - 1 - i)) = false := getLsbD_of_lt hv (by omega)
    simp only [BitVec.getLsbD_ushiftRight, BitVec.getLsbD_or, BitVec.getLsbD_shiftLeft, BitVec.getLsbD_setWidth, this,
      show f + (n - 1 - i) < 12 by omega, show ¬ f + (n - 1 - i) < f by omega,
      show f + (n - 1 - i) - f = n - 1 - i by omega]
    simp
  · apply mapRange_eq
    intro i hi
    simp only [BitVec.getLsbD_or, BitVec.getLsbD_shiftLeft, BitVec.getLsbD_setWidth,
      show f - 1 - i < 12 by omega, show f - 1 - i < f by omega]
    simp

theorem valueBits_group {acc : BitVec 12} {t : Nat} (ht : t ≤ 8) :
    valueBits t ((acc &&& groupMask t).setWidth 8) = heldBits acc t := by
  apply mapRange_eq
  intro i hi
  have : (groupMask t).getLsbD (t - 1 - i) = true := by
    unfold groupMask
    rw [BitVec.getLsbD_ofNat, Nat.testBit_two_pow_sub_one]
    simp; omega
  simp only [BitVec.getLsbD_setWidth, BitVec.getLsbD_and, this, show t - 1 - i < 8 by omega]
  simp

theorem group_lt {acc : BitVec 12} {t : Nat} (ht : t ≤ 8) : ((acc &&& groupMask t).setWidth 8).toNat < 2 ^ t := by
  have h1 : (groupMask t).toNat = 2 ^ t - 1 := by
    unfold groupMask
    rw [BitVec.toNat_ofNat, Nat.mod_eq_of_lt]
    have : 2 ^ t ≤ 2 ^ 8 := Nat.pow_le_pow_right (by omega) ht
    omega
  have h2 : (acc &&& groupMask t).toNat ≤ 2 ^ t - 1 := by
    rw [BitVec.toNat_and, h1]; exact Nat.and_le_right
  have h3 : ((acc &&& groupMask t).setWidth 8).toNat ≤ (acc &&& groupMask t).toNat := by
    rw [BitVec.toNat_setWidth]; exact Nat.mod_le _ _
  have := Nat.pos_of_ne_zero (show 2 ^ t ≠ 0 by positivity)
  omega

/-- The emitting loop: the bits held are those of the groups emitted, then fewer than `t` bits still held. -/
theorem emitGroups_spec {t : Nat} (ht0 : 0 < t) (ht : t ≤ 8) (acc : BitVec 12) :
    ∀ rounds n, n ≤ rounds →
      heldBits acc n = bitStream t (emitGroups t acc rounds n).2 ++ heldBits acc (emitGroups t acc rounds n).1 ∧
        (emitGroups t acc rounds n).1 < t ∧ ∀ g ∈ (emitGroups t acc rounds n).2, g.toNat < 2 ^ t := by
  intro rounds
  induction rounds with
  | zero =>
    intro n hn
    have : n = 0 := by omega
    subst this
    simp [emitGroups, ht0]
  | succ rounds ih =>
    intro n hn
    by_cases h : t ≤ n
    · obtain ⟨h1, h2, h3⟩ := ih (n - t) (by omega)
      simp only [emitGroups, h, if_true]
      refine ⟨?_, h2, ?_⟩
      · rw [heldBits_split (m := n - t) (by omega), show n - (n - t) = t by omega, bitStream_cons, valueBits_group ht,
          List.append_assoc, ← h1]
      · intro g hg
        rcases List.mem_cons.1 hg with rfl | hg
        · exact group_lt ht
        · exact h3 g hg
    · simp only [emitGroups, h, if_false, bitStream_nil, List.nil_append]
      exact ⟨trivial, by omega, by simp⟩

/-- One `push` (R94, R95): the bits held and the value's bits are the groups emitted, then the bits held after. -/
theorem convPush_spec {f t : Nat} {r : ConvRegs} {v : Byte} (hf : f ≤ 8) (ht0 : 0 < t) (ht : t ≤ 8)
    (hn : r.nbits.toNat + f ≤ 12) (hv : v.toNat < 2 ^ f) :
    ∃ r' groups, convPush f t r v = .ok (r', groups) ∧ r'.nbits.toNat < t ∧ (∀ g ∈ groups, g.toNat < 2 ^ t) ∧
      heldBits r.acc r.nbits.toNat ++ valueBits f v = bitStream t groups ++ heldBits r'.acc r'.nbits.toNat := by
  obtain ⟨h1, h2, h3⟩ := emitGroups_spec ht0 ht ((r.acc <<< f) ||| v.setWidth 12) (r.nbits.toNat + f)
    (r.nbits.toNat + f) (le_refl _)
  have hb : decide (v.toNat / 2 ^ f ≠ 0) = false := by simp [Nat.div_eq_of_lt hv]
  refine ⟨_, _, by rw [convPush, hb, failIf_false], ?_, h3, ?_⟩
  · simp only [BitVec.toNat_ofNat]; omega
  · rw [← heldBits_push hf hn hv, h1]
    congr 2
    simp only [BitVec.toNat_ofNat]; omega

/-- A value that does not fit stops the conversion (R92). -/
theorem convPush_overflow {f t : Nat} {r : ConvRegs} {v : Byte} (hv : 2 ^ f ≤ v.toNat) :
    convPush f t r v = .fail .bitConversionOverflow := by
  have hb : decide (v.toNat / 2 ^ f ≠ 0) = true := by
    have := Nat.div_pos hv (by positivity)
    simp; omega
  rw [convPush, hb, failIf_true]

theorem valueBits_finalGroup {t : Nat} {r : ConvRegs} (ht : t ≤ 8) (h : r.nbits.toNat ≤ t) :
    valueBits t (finalGroup t r) = heldBits r.acc r.nbits.toNat ++ List.replicate (t - r.nbits.toNat) false := by
  unfold finalGroup
  rw [valueBits_group ht, heldBits_split (m := t - r.nbits.toNat) (by omega)]
  congr 1
  · rw [show t - (t - r.nbits.toNat) = r.nbits.toNat by omega]
    apply mapRange_eq
    intro i hi
    simp only [BitVec.getLsbD_ushiftRight, BitVec.getLsbD_shiftLeft]
    rw [show t - r.nbits.toNat + (r.nbits.toNat - 1 - i) - (t - r.nbits.toNat) = r.nbits.toNat - 1 - i by omega]
    simp; omega
  · rw [List.eq_replicate_iff]
    refine ⟨by simp, ?_⟩
    intro b hb
    simp only [heldBits, List.mem_map, List.mem_range] at hb
    obtain ⟨i, hi, rfl⟩ := hb
    simp; omega

theorem finalGroup_lt {t : Nat} {r : ConvRegs} (ht : t ≤ 8) : (finalGroup t r).toNat < 2 ^ t := group_lt ht

/-- A value of `w` bits is 0 exactly when all its bits are. -/
theorem valueBits_eq_zero {w : Nat} {v : Byte} (hv : v.toNat < 2 ^ w) :
    v = 0 ↔ valueBits w v = List.replicate w false := by
  constructor
  · rintro rfl
    rw [List.eq_replicate_iff]
    refine ⟨by simp, ?_⟩
    intro b hb
    simp only [valueBits, List.mem_map] at hb
    obtain ⟨i, _, rfl⟩ := hb
    simp
  · intro h
    apply BitVec.eq_of_getLsbD_eq
    intro i hi
    by_cases hiw : i < w
    · have := congrArg (fun l => l[w - 1 - i]?) h
      have e : w - 1 - i < w := by omega
      simp only [valueBits, List.getElem?_map, List.getElem?_range e, Option.map_some, List.getElem?_replicate, e,
        if_true, Option.some.injEq] at this
      rw [show w - 1 - (w - 1 - i) = i by omega] at this
      simpa using this
    · rw [getLsbD_of_lt hv (by omega)]
      simp

/-- The loop over the values (R92): the bits held and the values' bits are the groups emitted, then the bits held before
`finish`. -/
theorem convRun_spec {f t : Nat} {pad : Bool} (hf : f ≤ 8) (ht0 : 0 < t) (ht : t ≤ 8) (hft : t + f ≤ 13)
    {vs : List Byte} (hfit : ∀ v ∈ vs, v.toNat < 2 ^ f) {r : ConvRegs} (hn : r.nbits.toNat < t) :
    ∃ r' groups, r'.nbits.toNat < t ∧ (∀ g ∈ groups, g.toNat < 2 ^ t) ∧
      heldBits r.acc r.nbits.toNat ++ bitStream f vs = bitStream t groups ++ heldBits r'.acc r'.nbits.toNat ∧
      convRun f t pad r vs = (convFinish f t pad r').bind fun last => .ok (groups ++ last) := by
  induction vs generalizing r with
  | nil =>
    refine ⟨r, [], hn, by simp, by simp, ?_⟩
    rw [convRun]
    cases convFinish f t pad r <;> simp
  | cons v vs ih =>
    obtain ⟨r₁, g₁, hp, hn₁, hg₁, hs₁⟩ := convPush_spec (r := r) hf ht0 ht (by omega) (hfit v (by simp))
    obtain ⟨r₂, g₂, hn₂, hg₂, hs₂, hr₂⟩ := ih (fun w hw => hfit w (by simp [hw])) hn₁
    refine ⟨r₂, g₁ ++ g₂, hn₂, ?_, ?_, ?_⟩
    · intro g hg
      rcases List.mem_append.1 hg with h | h
      · exact hg₁ g h
      · exact hg₂ g h
    · rw [bitStream_cons, ← List.append_assoc, hs₁, List.append_assoc, hs₂, bitStream_append, List.append_assoc]
    · rw [convRun, hp, Res.bind_ok, hr₂]
      cases convFinish f t pad r₂ <;> simp

/-- A value that does not fit stops the loop, wherever it stands (R92, R97). -/
theorem convRun_overflow {f t : Nat} {pad : Bool} {vs : List Byte} (h : ∃ v ∈ vs, 2 ^ f ≤ v.toNat) (r : ConvRegs) :
    convRun f t pad r vs = .fail .bitConversionOverflow := by
  induction vs generalizing r with
  | nil => simp at h
  | cons v vs ih =>
    by_cases hv : 2 ^ f ≤ v.toNat
    · rw [convRun, convPush_overflow hv, Res.bind_fail]
    · have hb : decide (v.toNat / 2 ^ f ≠ 0) = false := by simp [Nat.div_eq_of_lt (Nat.lt_of_not_le hv)]
      have : ∃ w ∈ vs, 2 ^ f ≤ w.toNat := by
        obtain ⟨w, hw, hlt⟩ := h
        rcases List.mem_cons.1 hw with rfl | hw
        · exact absurd hlt hv
        · exact ⟨w, hw, hlt⟩
      rw [convRun, convPush, hb, failIf_false, Res.bind_ok, ih this, Res.bind_fail]

/-- `finish` with padding (R92): the final partial group, if a bit is held. -/
theorem convFinish_pad (f t : Nat) (r : ConvRegs) :
    convFinish f t true r = .ok (if 0 < r.nbits.toNat then [finalGroup t r] else []) := rfl

/-- `finish` without padding (R92): nothing, if fewer than `f` bits are held and all of them are 0; else InvalidPadding. -/
theorem convFinish_noPad {f t : Nat} {r : ConvRegs} (ht : t ≤ 8) (h : r.nbits.toNat < t) :
    convFinish f t false r =
      if r.nbits.toNat < f ∧ heldBits r.acc r.nbits.toNat = List.replicate r.nbits.toNat false then .ok []
      else .fail .invalidPadding := by
  have hz : finalGroup t r = 0 ↔ heldBits r.acc r.nbits.toNat = List.replicate r.nbits.toNat false := by
    rw [valueBits_eq_zero (finalGroup_lt ht), valueBits_finalGroup ht (by omega)]
    constructor
    · intro e
      have e2 : List.replicate t false = List.replicate r.nbits.toNat false ++
          List.replicate (t - r.nbits.toNat) false := by
        rw [List.replicate_append_replicate]; congr 1; omega
      rw [e2] at e
      exact List.append_cancel_right e
    · intro e
      rw [e, List.replicate_append_replicate]; congr 1; omega
  unfold convFinish
  by_cases h1 : r.nbits.toNat < f <;> by_cases h2 : finalGroup t r = 0
  · simp [h1, h2, hz.1 h2, Nat.not_le.mpr h1]
  · have hb : (finalGroup t r != 0) = true := by simpa using h2
    rw [hb]
    simp [mt hz.2 h2]
  · simp [h1, Nat.not_lt.mp h1]
  · simp [h1, Nat.not_lt.mp h1]

/-- An `Ok` conversion emits less than one group more than the input's bits fill. -/
theorem convertbits_length {f t : Nat} {pad : Bool} (hf : f ≤ 8) (ht0 : 0 < t) (ht : t ≤ 8) (hft : t + f ≤ 13)
    {vs out : List Byte} (h : convertbits vs f t pad = .ok out) : t * out.length < f * vs.length + t := by
  have hfit : ∀ v ∈ vs, v.toNat < 2 ^ f := by
    by_contra hc
    simp only [not_forall, Nat.not_lt] at hc
    obtain ⟨v, hv, hlt⟩ := hc
    rw [convertbits, convRun_overflow ⟨v, hv, hlt⟩] at h
    cases h
  obtain ⟨r, g, hn, _, hs, hr⟩ := convRun_spec (pad := pad) (r := convStart) hf ht0 ht hft hfit ht0
  have hlen := congrArg List.length hs
  simp only [List.length_append, bitStream_length, heldBits_length] at hlen
  rw [show convStart.nbits.toNat = 0 from rfl, Nat.zero_add] at hlen
  rw [convertbits, hr, Res.bind_eq_ok] at h
  obtain ⟨last, hl, ho⟩ := h
  cases ho
  have : last.length ≤ if 0 < r.nbits.toNat then 1 else 0 := by
    cases pad with
    | true => rw [convFinish_pad] at hl; cases hl; split <;> simp
    | false =>
      rw [convFinish_noPad ht hn] at hl
      split at hl <;> cases hl
      simp
  rw [List.length_append, Nat.mul_add]
  split at this
  · have : t * last.length ≤ t * 1 := Nat.mul_le_mul_left t this
    omega
  · have : last.length = 0 := by omega
    rw [this]; omega

end Sys2Proof.Machine
end

