-- ==== Sys2Proof/Laws/StringCodec.lean ====
section
/-! SUPPORT. The string codec: the last separator, and the sizes of what the codec returns. -/

namespace Sys2Proof.Machine

/-- There is no last index exactly when the character does not occur. -/
theorem lastIndex_eq_none {c : Byte} {s : List Byte} : lastIndex c s = none ↔ c ∉ s := by
  induction s with
  | nil => simp [lastIndex]
  | cons x xs ih =>
    rw [lastIndex]
    cases h : lastIndex c xs with
    | some i => simp [mt ih.2 (by simp [h])]
    | none =>
      have := ih.1 h
      by_cases hx : x = c
      · simp [hx]
      · simp [hx, this, Ne.symm hx]

/-- The last index splits the string at the last occurrence. -/
theorem lastIndex_eq_some {c : Byte} {s : List Byte} {i : Nat} :
    lastIndex c s = some i ↔ ∃ h t, s = h ++ c :: t ∧ c ∉ t ∧ h.length = i := by
  induction s generalizing i with
  | nil => simp [lastIndex]
  | cons x xs ih =>
    rw [lastIndex]
    cases hl : lastIndex c xs with
    | some j =>
      obtain ⟨h, t, hs, ht, hj⟩ := ih.1 hl
      simp only [Option.some.injEq]
      constructor
      · rintro rfl
        exact ⟨x :: h, t, by simp [hs], ht, by simp [hj]⟩
      · rintro ⟨h', t', hs', ht', rfl⟩
        cases h' with
        | nil =>
          simp only [List.nil_append, List.cons.injEq] at hs'
          rw [← hs'.2, hs] at ht'
          simp at ht'
        | cons y h' =>
          simp only [List.cons_append, List.cons.injEq] at hs'
          have := ih.2 ⟨h', t', hs'.2, ht', rfl⟩
          rw [hl] at this
          cases this
          simp
    | none =>
      have hn := lastIndex_eq_none.1 hl
      by_cases hx : x = c
      · subst hx
        simp only [if_true, Option.some.injEq]
        constructor
        · rintro rfl
          exact ⟨[], xs, rfl, hn, rfl⟩
        · rintro ⟨h', t', hs', ht', rfl⟩
          cases h' with
          | nil => rfl
          | cons y h' =>
            simp only [List.cons_append, List.cons.injEq] at hs'
            rw [hs'.2] at hn
            simp at hn
      · simp only [hx, if_false, reduceCtorEq, false_iff, not_exists, not_and]
        intro h' t' hs' ht'
        cases h' with
        | nil =>
          simp only [List.nil_append, List.cons.injEq] at hs'
          exact absurd hs'.1 hx
        | cons y h' =>
          simp only [List.cons_append, List.cons.injEq] at hs'
          rw [hs'.2] at hn
          simp at hn

@[simp] theorem lowerString_length (s : List Byte) : (lowerString s).length = s.length := by simp [lowerString]

theorem charsToSymbols_length {cs : List Byte} {ds : List Symbol} (h : charsToSymbols cs = .ok ds) :
    ds.length = cs.length := by
  induction cs generalizing ds with
  | nil => cases h; rfl
  | cons c cs ih =>
    rw [charsToSymbols] at h
    cases hc : charToSymbol c with
    | none => rw [hc] at h; cases h
    | some d =>
      rw [hc] at h
      obtain ⟨ds', h', he⟩ := Res.bind_eq_ok.1 h
      cases he
      simp [ih h']

@[simp] theorem symbolCells_length (l : List Symbol) : (symbolCells l).length = l.length := by simp [symbolCells]

@[simp] theorem checksumGroups_length (m : Word) : (checksumGroups m).length = 6 := rfl

@[simp] theorem createChecksum_length (hrp : List Byte) (data : List Symbol) (v : Variant) :
    (createChecksum hrp data v).2.length = 6 := rfl

/-- The length of an encoded string (R100). -/
theorem stringEncode_length (hrp : List Byte) (data : List Symbol) (v : Variant) :
    (stringEncode hrp data v).length = hrp.length + data.length + 7 := by
  simp [stringEncode]; omega

@[simp] theorem hrpExpand_length (hrp : List Byte) : (hrpExpand hrp).length = 2 * hrp.length + 1 := by
  simp [hrpExpand]; omega

/-- A decoded string was at most 90 characters: its HRP, the separator, the data and six more. -/
theorem stringDecode_length {s hrp : List Byte} {data : List Symbol} {v : Variant}
    (h : stringDecode s v = .ok (hrp, data)) : 1 ≤ hrp.length ∧ hrp.length + data.length + 7 = s.length ∧ s.length ≤ 90 := by
  unfold stringDecode at h
  obtain ⟨_, h⟩ := failIf_eq_ok.1 h
  obtain ⟨_, h⟩ := failIf_eq_ok.1 h
  unfold decodeLowered at h
  split at h
  · cases h
  · rename_i pos hpos
    obtain ⟨h1, h⟩ := failIf_eq_ok.1 h
    obtain ⟨h2, h⟩ := failIf_eq_ok.1 h
    obtain ⟨h3, h⟩ := failIf_eq_ok.1 h
    obtain ⟨d, hd, h⟩ := Res.bind_eq_ok.1 h
    obtain ⟨_, h⟩ := failIf_eq_ok.1 h
    cases h
    have hl := charsToSymbols_length hd
    simp only [decide_eq_false_iff_not, Nat.not_lt, lowerString_length, maxStr, List.length_drop, List.length_take,
      csumLen] at h1 h2 h3 hl ⊢
    omega

end Sys2Proof.Machine
end

