-- ==== Sys2Proof/Laws/Outputs.lean ====
section
/-! SUPPORT. The sizes of what a command's rule returns: an `Ok` never carries more values than a buffer holds. -/

namespace Sys2Proof.Machine

theorem addressDecode_length {eh s : List Byte} {w : Witness} (h : addressDecode eh s = .ok w) :
    2 ≤ w.program.length ∧ w.program.length ≤ 40 := by
  obtain ⟨⟨⟨hrp, data⟩, m⟩, _, h⟩ := Res.bind_eq_ok.1 h
  obtain ⟨_, h⟩ := failIf_eq_ok.1 h
  cases data with
  | nil => cases h
  | cons ver rest =>
    obtain ⟨_, h⟩ := failIf_eq_ok.1 h
    obtain ⟨p, _, h⟩ := Res.bind_eq_ok.1 h
    obtain ⟨hb, h⟩ := failIf_eq_ok.1 h
    have hw : w.program = p := by
      split at h
      · obtain ⟨_, h⟩ := failIf_eq_ok.1 h
        obtain ⟨_, h⟩ := failIf_eq_ok.1 h
        cases h; rfl
      · obtain ⟨_, h⟩ := failIf_eq_ok.1 h
        cases h; rfl
    rw [hw]
    simp only [Bool.or_eq_false_iff, decide_eq_false_iff_not, Nat.not_lt] at hb
    exact hb

theorem addressDecode_string_length {eh s : List Byte} {w : Witness} (h : addressDecode eh s = .ok w) :
    s.length ≤ 90 := by
  obtain ⟨⟨⟨hrp, data⟩, m⟩, h, _⟩ := Res.bind_eq_ok.1 h
  unfold decodeEither at h
  split at h
  · rename_i r hr
    obtain ⟨hrp', data'⟩ := r
    exact (stringDecode_length hr).2.2
  · obtain ⟨⟨hrp', data'⟩, hr, _⟩ := Res.bind_eq_ok.1 h
    exact (stringDecode_length hr).2.2

theorem addressEncode_length {hrp prog str : List Byte} {ver : Byte} {m : Bool}
    (h : addressEncode hrp ver prog = .ok (str, m)) : str.length ≤ 90 := by
  obtain ⟨_, h⟩ := failIf_eq_ok.1 h
  obtain ⟨_, _, h⟩ := Res.bind_eq_ok.1 h
  obtain ⟨_, hd, h⟩ := Res.bind_eq_ok.1 h
  cases h
  exact addressDecode_string_length hd

/-- The outcome function's bound (R66): an `Ok` of any command carries at most `CAP` values in either list. -/
theorem ruleOf_ok_length {i : Instr} {q : InFlight} {o : Output} (h : ruleOf i q = .ok o) :
    o.out.length ≤ capacity ∧ o.out2.length ≤ capacity := by
  cases i with
  | nop => cases h; simp
  | lutS2c imm => obtain ⟨_, h⟩ := failIf_eq_ok.1 h; cases h; simp
  | lutC2s imm => cases h; simp
  | hrpExpand =>
    obtain ⟨_, _, h⟩ := Res.bind_eq_ok.1 h
    obtain ⟨hb, h⟩ := failIf_eq_ok.1 h
    cases h
    simpa using hb
  | polymod =>
    obtain ⟨_, _, h⟩ := Res.bind_eq_ok.1 h
    obtain ⟨_, _, h⟩ := Res.bind_eq_ok.1 h
    cases h; simp
  | csumCreate var =>
    obtain ⟨_, _, h⟩ := Res.bind_eq_ok.1 h
    obtain ⟨_, _, h⟩ := Res.bind_eq_ok.1 h
    obtain ⟨_, _, h⟩ := Res.bind_eq_ok.1 h
    obtain ⟨_, _, h⟩ := Res.bind_eq_ok.1 h
    cases h; simp [capacity]
  | csumVerify var =>
    obtain ⟨_, _, h⟩ := Res.bind_eq_ok.1 h
    obtain ⟨_, _, h⟩ := Res.bind_eq_ok.1 h
    obtain ⟨_, _, h⟩ := Res.bind_eq_ok.1 h
    obtain ⟨_, _, h⟩ := Res.bind_eq_ok.1 h
    cases h; simp
  | conv8to5 pad =>
    obtain ⟨_, _, h⟩ := Res.bind_eq_ok.1 h
    obtain ⟨_, _, h⟩ := Res.bind_eq_ok.1 h
    obtain ⟨hb, h⟩ := failIf_eq_ok.1 h
    cases h
    simpa using hb
  | conv5to8 pad =>
    obtain ⟨l, hl, h⟩ := Res.bind_eq_ok.1 h
    obtain ⟨out, hc, h⟩ := Res.bind_eq_ok.1 h
    cases h
    obtain ⟨hb, hl⟩ := failIf_eq_ok.1 hl
    cases hl
    have := convertbits_length (by omega) (by omega) (by omega) (by omega) hc
    rw [bufPrefix_length] at this
    have hb : q.ilen.toNat ≤ 256 := by
      rw [decide_eq_false_iff_not, Nat.not_lt] at hb
      exact hb
    simp only [capacity, List.length_nil]
    omega
  | strEncode var =>
    obtain ⟨_, _, h⟩ := Res.bind_eq_ok.1 h
    obtain ⟨_, _, h⟩ := Res.bind_eq_ok.1 h
    obtain ⟨_, _, h⟩ := Res.bind_eq_ok.1 h
    obtain ⟨_, _, h⟩ := Res.bind_eq_ok.1 h
    obtain ⟨hb, h⟩ := failIf_eq_ok.1 h
    cases h
    simpa [stringEncode_length] using hb
  | strDecode var =>
    obtain ⟨_, _, h⟩ := Res.bind_eq_ok.1 h
    obtain ⟨_, _, h⟩ := Res.bind_eq_ok.1 h
    obtain ⟨⟨hrp, data⟩, hr, h⟩ := Res.bind_eq_ok.1 h
    cases h
    have := stringDecode_length hr
    simp only [symbolCells_length, capacity]
    omega
  | addrEncode imm =>
    obtain ⟨_, _, h⟩ := Res.bind_eq_ok.1 h
    obtain ⟨_, _, h⟩ := Res.bind_eq_ok.1 h
    obtain ⟨⟨str, m⟩, hr, h⟩ := Res.bind_eq_ok.1 h
    cases h
    have := addressEncode_length hr
    simp only [capacity, List.length_nil]
    omega
  | addrDecode =>
    obtain ⟨_, _, h⟩ := Res.bind_eq_ok.1 h
    obtain ⟨_, _, h⟩ := Res.bind_eq_ok.1 h
    obtain ⟨w, hr, h⟩ := Res.bind_eq_ok.1 h
    cases h
    have := addressDecode_length hr
    simp only [capacity, List.length_nil]
    omega

theorem outcomeOf_ok_length {q : InFlight} {o : Output} (h : outcomeOf q = .ok o) :
    o.out.length ≤ capacity ∧ o.out2.length ≤ capacity := by
  unfold outcomeOf at h
  split at h
  · exact ruleOf_ok_length h
  · cases h

end Sys2Proof.Machine
end

