-- ==== Sys2Proof/Laws/Completion.lean ====
section
/-! SUPPORT. A completion in the terms the statements use. -/

namespace Sys2Proof.Machine

theorem busy_iff_some {s : State} : s.busy = true ↔ ∃ q, s.inflight = some q := by
  simp [State.busy, Option.isSome_iff_exists]

theorem busy_eq_false_iff {s : State} : s.busy = false ↔ s.inflight = none := by
  simp [State.busy]

/-- No completion changes an input or anything outside the block (R68, R69). -/
theorem inputsKept_complete (s : State) (r : Res Output) : InputsKept s (complete s r) := by
  constructor <;> simp

/-- An output buffer holds the output and nothing else (R30). -/
theorem holdsExactly_outputBuffer (draw : Nat) (out : List Byte) : HoldsExactly (outputBuffer draw out) out :=
  ⟨fun _ h => bufRead_outputBuffer h, fun _ h => lookupCell_outputBuffer_above h⟩

/-- A command whose rule gives `Ok` on the snapshot completes with it. -/
theorem completesOk_of_rule {i : Instr} {s : State} {q : InFlight} {o : Output} (hq : s.inflight = some q)
    (h : ruleOf i q = .ok o) : CompletesOk i s o.result o.out o.out2 := by
  obtain ⟨h1, h2⟩ := ruleOf_ok_length h
  refine ⟨_, exec_some hq i, ?_⟩
  rw [h]
  unfold capacity at h1 h2
  refine ⟨inputsKept_complete _ _, rfl, ?_, ?_, holdsExactly_outputBuffer _ _, holdsExactly_outputBuffer _ _,
    rfl, rfl, rfl, rfl, rfl⟩
  · simp only [complete_ok, completeOk_outLen, BitVec.toNat_ofNat]
    omega
  · simp only [complete_ok, completeOk_out2Len, BitVec.toNat_ofNat]
    omega

/-- A command whose rule gives `Fail` on the snapshot completes with it. -/
theorem completesFail_of_rule {i : Instr} {s : State} {q : InFlight} {c : FailCode} (hq : s.inflight = some q)
    (h : ruleOf i q = .fail c) : CompletesFail i s (failNumber c).toNat := by
  refine ⟨_, exec_some hq i, ?_⟩
  rw [h]
  exact ⟨inputsKept_complete _ _, rfl, rfl, rfl, holdsExactly_outputBuffer _ [], holdsExactly_outputBuffer _ [],
    rfl, rfl, rfl, rfl, rfl⟩

/-- The outcome shown after a completion depends on the outcome alone. -/
theorem sameOutcome_complete (s u : State) (r : Res Output) : SameOutcome (complete s r) (complete u r) := by
  cases r <;> constructor <;> simp [okStatus, failStatus, outputBuffer_cells]

end Sys2Proof.Machine
end

