-- ==== Sys2Proof/Laws/HostAgent.lean ====
section
/-! SUPPORT. What the host's access does for each form of its first statement, and the words of the `CMD` pseudo-instruction. -/

namespace Sys2Proof.Machine

theorem hostStep_nil {s : State} (h : s.host = []) : hostStep s = s := by
  simp [hostStep, h]

theorem hostStep_rd {s : State} {a : Addr} {rest : List Stmt} (h : s.host = .rd a :: rest) :
    hostStep s =
      { afterRead s a with host := rest, log := s.log ++ [.read a (portResponse a) (readData s a)] } := by
  simp [hostStep, h, hostRead, readRecord]

theorem hostStep_wr {s : State} {a : Addr} {v : Word} {rest : List Stmt} (h : s.host = .wr a v :: rest) :
    hostStep s = { afterWrite s a v with host := rest, log := s.log ++ [.write a v (portResponse a)] } := by
  simp [hostStep, h, hostWrite]

/-- A read of STATUS changes nothing, whether or not a command is in flight (R47). -/
theorem afterRead_of_status (s : State) : afterRead s 0x004 = s := by
  simp [afterRead, readIsFree, locate, locateRegister, isOutput]

theorem hostStep_wait {s : State} {rest : List Stmt} (h : s.host = .wait :: rest) :
    hostStep s =
      { s with
        host := if (readData s 0x004).getLsbD 1 then rest else .wait :: rest
        log := s.log ++ [.read 0x004 .okay (readData s 0x004)] } := by
  simp only [hostStep, h, hostRead, readRecord, statusAddr, afterRead_of_status]
  rfl

/-- With the fields its mnemonic uses and no other, `CMD` writes the command's word (R58, R63). -/
theorem cmdWord_eq_encode :
    cmdWord .nop = encode .nop ∧ cmdWord .hrpExpand = encode .hrpExpand ∧ cmdWord .polymod = encode .polymod ∧
    cmdWord .addrDecode = encode .addrDecode ∧
    (∀ var : BitVec 2,
      cmdWord .csumCreate (v := var.setWidth 32) = encode (.csumCreate var) ∧
      cmdWord .csumVerify (v := var.setWidth 32) = encode (.csumVerify var) ∧
      cmdWord .strEncode (v := var.setWidth 32) = encode (.strEncode var) ∧
      cmdWord .strDecode (v := var.setWidth 32) = encode (.strDecode var)) ∧
    (∀ pad : Bool,
      cmdWord .conv8to5 (p := (BitVec.ofBool pad).setWidth 32) = encode (.conv8to5 pad) ∧
      cmdWord .conv5to8 (p := (BitVec.ofBool pad).setWidth 32) = encode (.conv5to8 pad)) ∧
    (∀ imm : Byte,
      cmdWord .lutS2c (i := imm.setWidth 32) = encode (.lutS2c imm) ∧
      cmdWord .lutC2s (i := imm.setWidth 32) = encode (.lutC2s imm) ∧
      cmdWord .addrEncode (i := imm.setWidth 32) = encode (.addrEncode imm)) := by
  decide +kernel

end Sys2Proof.Machine
end

