-- ==== Sys2Proof/Laws/PerInstr.lean ====
section
/-! SUPPORT. A law of every command as syntax, one lemma a constructor. -/

namespace Sys2Proof.Laws.EncodeRow

/-- The word of a command matches the command's own row of R60, and its reserved bits are 0 (R55, R60). -/
def Statement (i : Instr) : Prop := rowMatches (rowOf i) (encode i) = true ∧ resField (encode i) = 0

theorem nop : Statement .nop := by
  unfold Statement
  decide +kernel

theorem lutS2c (imm : Byte) : Statement (.lutS2c imm) := by
  unfold Statement
  revert imm
  decide +kernel

theorem lutC2s (imm : Byte) : Statement (.lutC2s imm) := by
  unfold Statement
  revert imm
  decide +kernel

theorem hrpExpand : Statement .hrpExpand := by
  unfold Statement
  decide +kernel

theorem polymod : Statement .polymod := by
  unfold Statement
  decide +kernel

theorem csumCreate (var : BitVec 2) : Statement (.csumCreate var) := by
  unfold Statement
  revert var
  decide +kernel

theorem csumVerify (var : BitVec 2) : Statement (.csumVerify var) := by
  unfold Statement
  revert var
  decide +kernel

theorem conv8to5 (pad : Bool) : Statement (.conv8to5 pad) := by
  unfold Statement
  revert pad
  decide +kernel

theorem conv5to8 (pad : Bool) : Statement (.conv5to8 pad) := by
  unfold Statement
  revert pad
  decide +kernel

theorem strEncode (var : BitVec 2) : Statement (.strEncode var) := by
  unfold Statement
  revert var
  decide +kernel

theorem strDecode (var : BitVec 2) : Statement (.strDecode var) := by
  unfold Statement
  revert var
  decide +kernel

theorem addrEncode (imm : Byte) : Statement (.addrEncode imm) := by
  unfold Statement
  revert imm
  decide +kernel

theorem addrDecode : Statement .addrDecode := by
  unfold Statement
  decide +kernel

end Sys2Proof.Laws.EncodeRow
end

