-- ==== Sys2Proof/Laws/Port.lean ====
section
/-! SUPPORT. What a port transaction and a host access can do, said once. -/

namespace Sys2Proof.Machine

theorem aligned_iff (a : Addr) : aligned a = true ↔ a.toNat % 4 = 0 := by
  simp [aligned, ← BitVec.toNat_inj]

/-- The cell a buffer location names is the lowest of four inside the buffer. -/
theorem locate_cell_lt {a : Addr} (ha : aligned a = true) {i : Nat}
    (h : locate a = .bufH i ∨ locate a = .bufI i ∨ locate a = .bufO i ∨ locate a = .bufP i) : i + 4 ≤ capacity := by
  rw [aligned_iff] at ha
  have hreg : ∀ n, locateRegister n ≠ .bufH i ∧ locateRegister n ≠ .bufI i ∧ locateRegister n ≠ .bufO i ∧
      locateRegister n ≠ .bufP i := by
    intro n; unfold locateRegister; split <;> simp
  have := hreg a.toNat
  unfold locate at h
  unfold capacity
  split at h
  · simp_all
  · split at h
    · simp at h; omega
    · split at h
      · simp at h; omega
      · split at h
        · simp at h; omega
        · split at h
          · simp at h; omega
          · simp at h

theorem afterWrite_misaligned {a : Addr} (h : aligned a = false) (s : State) (v : Word) : afterWrite s a v = s := by
  simp [afterWrite, h]

theorem afterWrite_busy {s : State} {a : Addr} (ha : aligned a = true) (hb : s.busy = true) (v : Word) :
    afterWrite s a v = dropWrite s := by
  simp [afterWrite, ha, hb]

theorem afterWrite_idle {s : State} {a : Addr} (ha : aligned a = true) (hb : s.busy = false) (v : Word) :
    afterWrite s a v = storeAt s (locate a) v := by
  simp [afterWrite, ha, hb]

/-- What a write can do: nothing, set WR_IGNORED, launch a command, or store an input. -/
theorem afterWrite_cases (s : State) (a : Addr) (v : Word) :
    afterWrite s a v = s ∨
    (aligned a = true ∧ s.busy = true ∧ afterWrite s a v = dropWrite s) ∨
    (aligned a = true ∧ s.busy = false ∧ locate a = .cmd ∧ afterWrite s a v = accept s v) ∨
    (s.busy = false ∧ afterWrite s a v = { s with hrpLen := v.setWidth 9 }) ∨
    (s.busy = false ∧ afterWrite s a v = { s with inLen := v.setWidth 9 }) ∨
    (∃ i, s.busy = false ∧ i + 4 ≤ capacity ∧ afterWrite s a v = { s with bufH := writeCells4 s.bufH i v }) ∨
    (∃ i, s.busy = false ∧ i + 4 ≤ capacity ∧ afterWrite s a v = { s with bufI := writeCells4 s.bufI i v }) := by
  cases ha : aligned a with
  | false => exact .inl (afterWrite_misaligned ha s v)
  | true =>
    cases hb : s.busy with
    | true => exact .inr (.inl ⟨rfl, rfl, afterWrite_busy ha hb v⟩)
    | false =>
      have hw := afterWrite_idle ha hb v
      rw [hw]
      cases hl : locate a with
      | cmd => exact .inr (.inr (.inl ⟨rfl, rfl, rfl, rfl⟩))
      | hrpLen => exact .inr (.inr (.inr (.inl ⟨rfl, rfl⟩)))
      | inLen => exact .inr (.inr (.inr (.inr (.inl ⟨rfl, rfl⟩))))
      | bufH i => exact .inr (.inr (.inr (.inr (.inr (.inl ⟨i, rfl, locate_cell_lt ha (.inl hl), rfl⟩)))))
      | bufI i => exact .inr (.inr (.inr (.inr (.inr (.inr ⟨i, rfl, locate_cell_lt ha (.inr (.inl hl)), rfl⟩)))))
      | _ => exact .inl rfl

/-- While a command is in flight a host access changes nothing of the block but WR_IGNORED. -/
theorem afterWrite_inflight {s : State} (h : s.busy = true) (a : Addr) (v : Word) :
    afterWrite s a v = s ∨ afterWrite s a v = dropWrite s := by
  cases ha : aligned a with
  | false => exact .inl (afterWrite_misaligned ha s v)
  | true => exact .inr (afterWrite_busy ha h v)

/-- What the host's access can do: nothing, a read, a write, or one read of STATUS for a `WAIT`. -/
theorem hostStep_cases (s : State) :
    (s.host = [] ∧ hostStep s = s) ∨
    (∃ a rest, s.host = .rd a :: rest ∧ hostStep s = { hostRead s a with host := rest }) ∨
    (∃ a v rest, s.host = .wr a v :: rest ∧ hostStep s = { hostWrite s a v with host := rest }) ∨
    (∃ rest h', s.host = .wait :: rest ∧ (h' = rest ∨ h' = s.host) ∧
      hostStep s = { hostRead s statusAddr with host := h' }) := by
  unfold hostStep
  split
  · exact .inl ⟨by assumption, rfl⟩
  · rename_i a rest heq; exact .inr (.inl ⟨a, rest, heq, rfl⟩)
  · rename_i a v rest heq; exact .inr (.inr (.inl ⟨a, v, rest, heq, rfl⟩))
  · rename_i rest heq
    refine .inr (.inr (.inr ⟨rest, _, heq, ?_, rfl⟩))
    split
    · exact .inl rfl
    · exact .inr rfl

/-- What the host's access leaves of the block is what one read or one write leaves. -/
theorem hostStep_block (s : State) :
    ∃ (u : State) (h' : List Stmt) (l' : List PortRecord), hostStep s = { u with host := h', log := l' } ∧
      (u = s ∨ (∃ a, u = afterRead s a) ∨ ∃ a v rest, s.host = .wr a v :: rest ∧ u = afterWrite s a v) := by
  rcases hostStep_cases s with ⟨_, h⟩ | ⟨a, rest, _, h⟩ | ⟨a, v, rest, hh, h⟩ | ⟨rest, h', _, _, h⟩
  · exact ⟨s, s.host, s.log, h, .inl rfl⟩
  · exact ⟨afterRead s a, rest, _, h, .inr (.inl ⟨a, rfl⟩)⟩
  · exact ⟨afterWrite s a v, rest, _, h, .inr (.inr ⟨a, v, rest, hh, rfl⟩)⟩
  · exact ⟨afterRead s statusAddr, h', _, h, .inr (.inl ⟨statusAddr, rfl⟩)⟩

/-- While a command is in flight the host's access leaves it, and the order of turns, alone. -/
theorem hostStep_inflight {s : State} (hb : s.busy = true) :
    (hostStep s).inflight = s.inflight ∧ (hostStep s).turns = s.turns := by
  rcases hostStep_cases s with ⟨_, h⟩ | ⟨a, rest, _, h⟩ | ⟨a, v, rest, _, h⟩ | ⟨rest, h', _, _, h⟩ <;> rw [h] <;> simp
  rcases afterWrite_inflight hb a v with hc | hc <;> rw [hc] <;> simp

/-- The only address of CMD is 0. -/
theorem eq_zero_of_locate_cmd {a : Addr} (h : locate a = .cmd) : a = 0 := by
  unfold locate at h
  repeat' split at h
  · unfold locateRegister at h
    split at h <;> cases h
    rename_i h0
    apply BitVec.eq_of_toNat_eq
    simpa using h0
  all_goals cases h

/-- The reserved addresses of the map (R42). -/
theorem locate_reserved {a : Addr} (h : (0x01C ≤ a.toNat ∧ a.toNat < 0x400) ∨ 0x800 ≤ a.toNat) :
    locate a = .reserved := by
  unfold locate
  rcases h with h | h
  · rw [if_pos h.2]
    unfold locateRegister
    split <;> first | omega | rfl
  · simp only [show ¬ a.toNat < 0x400 by omega, show ¬ a.toNat < 0x500 by omega, show ¬ a.toNat < 0x600 by omega,
      show ¬ a.toNat < 0x700 by omega, show ¬ a.toNat < 0x800 by omega, if_false]

/-- Word `k` of a buffer (R42, R43): its address is aligned and names cell `4k`. -/
theorem locate_bufferWord {k : Nat} (hk : k < 64) :
    locate (BitVec.ofNat 12 (0x400 + 4 * k)) = .bufH (4 * k) ∧
      locate (BitVec.ofNat 12 (0x500 + 4 * k)) = .bufI (4 * k) ∧
      locate (BitVec.ofNat 12 (0x600 + 4 * k)) = .bufO (4 * k) ∧
      locate (BitVec.ofNat 12 (0x700 + 4 * k)) = .bufP (4 * k) := by
  have e : ∀ b, b ≤ 0x700 → (BitVec.ofNat 12 (b + 4 * k)).toNat = b + 4 * k := by
    intro b hb
    rw [BitVec.toNat_ofNat, Nat.mod_eq_of_lt]
    omega
  simp only [locate, e 0x400 (by omega), e 0x500 (by omega), e 0x600 (by omega), e 0x700 (by omega)]
  refine ⟨?_, ?_, ?_, ?_⟩
  · simp only [show ¬ 0x400 + 4 * k < 0x400 by omega, show 0x400 + 4 * k < 0x500 by omega, if_true, if_false,
      Nat.add_sub_cancel_left]
  · simp only [show ¬ 0x500 + 4 * k < 0x400 by omega, show ¬ 0x500 + 4 * k < 0x500 by omega,
      show 0x500 + 4 * k < 0x600 by omega, if_true, if_false, Nat.add_sub_cancel_left]
  · simp only [show ¬ 0x600 + 4 * k < 0x400 by omega, show ¬ 0x600 + 4 * k < 0x500 by omega,
      show ¬ 0x600 + 4 * k < 0x600 by omega, show 0x600 + 4 * k < 0x700 by omega, if_true, if_false,
      Nat.add_sub_cancel_left]
  · simp only [show ¬ 0x700 + 4 * k < 0x400 by omega, show ¬ 0x700 + 4 * k < 0x500 by omega,
      show ¬ 0x700 + 4 * k < 0x600 by omega, show ¬ 0x700 + 4 * k < 0x700 by omega,
      show 0x700 + 4 * k < 0x800 by omega, if_true, if_false, Nat.add_sub_cancel_left]

theorem aligned_bufferWord {b k : Nat} (hb : b % 4 = 0) (h : b + 4 * k < 4096) :
    aligned (BitVec.ofNat 12 (b + 4 * k)) = true := by
  rw [aligned_iff, BitVec.toNat_ofNat, Nat.mod_eq_of_lt (show b + 4 * k < 2 ^ 12 by omega)]
  omega

/-- Byte `j` of a word read is cell `i + j` (R43). -/
theorem readCells4_byte (m : Memory) (i : Nat) {j : Nat} (hj : j < 4) :
    (readCells4 m i).extractLsb' (8 * j) 8 = bufRead m (i + j) := by
  unfold readCells4
  apply BitVec.eq_of_getLsbD_eq
  intro b hb
  simp only [BitVec.getLsbD_extractLsb', BitVec.getLsbD_append]
  interval_cases j
  · simp [hb]
  · simp only [show ¬ 8 * 1 + b < 8 by omega, show 8 * 1 + b - 8 = b by omega, hb]
    simp
  · simp only [show ¬ 8 * 2 + b < 8 by omega, show ¬ 8 * 2 + b - 8 < 8 by omega, show 8 * 2 + b - 8 - 8 = b by omega, hb]
    simp
  · simp only [show ¬ 8 * 3 + b < 8 by omega, show ¬ 8 * 3 + b - 8 < 8 by omega,
      show ¬ 8 * 3 + b - 8 - 8 < 8 by omega, show 8 * 3 + b - 8 - 8 - 8 = b by omega, hb]
    simp

end Sys2Proof.Machine
end

