-- ==== Sys2Proof/Laws/Step.lean ====
section
/-! SUPPORT. What one step can do, said once; every invariant follows from `step_cases`. -/

namespace Sys2Proof.Machine

theorem takeTurn_nil_busy {s : State} (ht : s.turns = []) (hb : s.busy = true) : takeTurn s = (.unit, s) := by
  simp [takeTurn, ht, hb]

theorem takeTurn_nil_idle {s : State} (ht : s.turns = []) (hb : s.busy = false) : takeTurn s = (.host, s) := by
  simp [takeTurn, ht, hb]

theorem takeTurn_cons {s : State} {t : Turn} {rest : List Turn} (ht : s.turns = t :: rest) :
    takeTurn s = (t, { s with turns := rest }) := by
  simp [takeTurn, ht]

/-- A turn changes only the list of turns. -/
theorem takeTurn_snd (s : State) : (takeTurn s).2 = { s with turns := s.turns.tail } := by
  unfold takeTurn
  cases h : s.turns with
  | nil => cases s; simp_all
  | cons t rest => rfl

theorem step_host {s : State} (h : (takeTurn s).1 = .host) : step s = .next (hostStep (takeTurn s).2) := by
  unfold step
  generalize takeTurn s = p at h
  obtain ⟨t, u⟩ := p
  cases h; rfl

theorem step_unit {s : State} (h : (takeTurn s).1 = .unit) : step s = unitStep (takeTurn s).2 := by
  unfold step
  generalize takeTurn s = p at h
  obtain ⟨t, u⟩ := p
  cases h; rfl

theorem step_reset {s : State} (h : (takeTurn s).1 = .reset) : step s = .next (resetBlock (takeTurn s).2) := by
  unfold step
  generalize takeTurn s = p at h
  obtain ⟨t, u⟩ := p
  cases h; rfl

/-- One step is a host access, an idle turn of the unit, the completion of the command in flight, or a reset, on the
state with the turn taken. -/
theorem step_cases (s : State) :
    ((takeTurn s).1 = .host ∧ step s = .next (hostStep (takeTurn s).2)) ∨
    ((takeTurn s).1 = .unit ∧ s.inflight = none ∧ step s = .next (takeTurn s).2) ∨
    (∃ q, (takeTurn s).1 = .unit ∧ s.inflight = some q ∧ step s = .next (complete (takeTurn s).2 (outcomeOf q))) ∨
    ((takeTurn s).1 = .reset ∧ step s = .next (resetBlock (takeTurn s).2)) := by
  have hin : (takeTurn s).2.inflight = s.inflight := by rw [takeTurn_snd]
  cases h : (takeTurn s).1 with
  | host => exact .inl ⟨rfl, step_host h⟩
  | reset => exact .inr (.inr (.inr ⟨rfl, step_reset h⟩))
  | unit =>
    rcases unitStep_cases (takeTurn s).2 with ⟨hn, hu⟩ | ⟨q, hq, hu⟩
    · exact .inr (.inl ⟨rfl, hin ▸ hn, (step_unit h).trans hu⟩)
    · exact .inr (.inr (.inl ⟨q, rfl, hin ▸ hq, (step_unit h).trans hu⟩))

/-- The step after a command word is put in flight completes the command it selects. -/
theorem step_withFetchWord (s : State) (nbits w : Nat) :
    step (s.withFetchWord nbits w) = unitStep { accept s (tableWord nbits w) with turns := s.turns } := by
  rw [step_unit] <;> rfl

/-- A run goes on from the next state. -/
theorem run_of_next (M : Host.Core) {k : Nat} {s t : M.State} (h : M.step s = .next t) :
    Host.Core.run M (k + 1) s = Host.Core.run M k t := by
  rw [Host.Core.run, h]

end Sys2Proof.Machine
end

