-- ==== Sys2Proof/Tests/Slice0.lean ====
section
/-! SUPPORT. Tests of the model, one step each, their expected results from spec/95_test_vectors.md and from the rules named;
the ill-formed terms `wellFormed` refuses; and, for every statement with hypotheses, a state and operands that meet them
(`witness_<statement>`). -/

namespace Sys2Proof.Tests

-- One theorem after another: elaborated all at once, so many small theorems need more threads than the check allows.
set_option Elab.async false

open Sys2Proof Sys2Proof.Machine

/-! ### Helpers -/

/-- The codes of a string's characters. -/
def codes (l : List Char) : List Byte := l.map fun c => BitVec.ofNat 8 c.toNat

/-- Cells from numbers. -/
def cells (l : List Nat) : List Byte := l.map (BitVec.ofNat 8)

/-- The block after reset with an HRP and an input loaded, their lengths set. -/
def loaded (h i : List Byte) : State :=
  { State.reset with
    hrpLen := BitVec.ofNat 9 h.length
    inLen := BitVec.ofNat 9 i.length
    bufH := outputBuffer 0 h
    bufI := outputBuffer 1 i }

/-- The same with a command word accepted: the next step completes it. -/
def running (w : Word) (h i : List Byte) : State := accept (loaded h i) w

/-- A command in flight with these lengths, its buffers unspecified. -/
def sized (w : Word) (hl il : Len) : State := accept { State.reset with hrpLen := hl, inLen := il } w

/-- The snapshot `running` holds. -/
def flight (w : Word) (h i : List Byte) : InFlight :=
  { word := w
    hlen := BitVec.ofNat 9 h.length
    ilen := BitVec.ofNat 9 i.length
    bufH := outputBuffer 0 h
    bufI := outputBuffer 1 i }

theorem running_inflight (w : Word) (h i : List Byte) : (running w h i).inflight = some (flight w h i) := rfl

theorem flight_hrp {w : Word} {h i : List Byte} (hl : h.length ≤ 256) : (flight w h i).hrp = h :=
  bufPrefix_outputBuffer_of_length (by simp only [flight, BitVec.toNat_ofNat]; omega)

theorem flight_input {w : Word} {h i : List Byte} (hl : i.length ≤ 256) : (flight w h i).input = i :=
  bufPrefix_outputBuffer_of_length (by simp only [flight, BitVec.toNat_ofNat]; omega)

/-- What a host sees after a step: STATUS, RESULT, OUT_LEN, OUT2_LEN, then the specified output cells. -/
def shown : Host.Outcome State Fault Refusal → List Nat
  | .next t =>
    [(statusWord t).toNat, t.result.toNat, t.outLen.toNat, t.out2Len.toNat] ++
      (bufPrefix t.bufO t.outLen.toNat ++ bufPrefix t.bufP t.out2Len.toNat).map BitVec.toNat
  | .fault _ => []
  | .refused _ => []

/-! ### Well-formedness: an ill-formed term for each check -/

theorem test_illFormed_lutS2c : (Instr.lutS2c 32).wellFormed = false := by decide

theorem test_illFormed_csumCreate : (Instr.csumCreate 2).wellFormed = false := by decide

theorem test_illFormed_csumVerify : (Instr.csumVerify 3).wellFormed = false := by decide

theorem test_illFormed_strEncode : (Instr.strEncode 2).wellFormed = false := by decide

theorem test_illFormed_strDecode : (Instr.strDecode 3).wellFormed = false := by decide

theorem test_illFormed_addrEncode : (Instr.addrEncode 17).wellFormed = false := by decide

theorem test_wellFormed_boundaries :
    ([.lutS2c 31, .csumCreate 1, .csumVerify 1, .strEncode 1, .strDecode 1, .addrEncode 16] : List Instr).all
      Instr.wellFormed = true := by decide

/-! ### Decoding: each row's word, written bit by bit from the pattern column of R60 -/

theorem test_decode_nop : decode 0b00000000_00000000_00000_0_00_000_00000 = .ok (.nop) := by decide

theorem test_decode_lutS2c : decode 0b00000000_00000101_00000_0_00_000_00001 = .ok (.lutS2c 5) := by decide

theorem test_decode_lutC2s : decode 0b00000000_01101100_00000_0_00_000_00010 = .ok (.lutC2s 0x6C) := by decide

theorem test_decode_hrpExpand : decode 0b00000000_00000000_00000_0_00_000_00011 = .ok (.hrpExpand) := by decide

theorem test_decode_polymod : decode 0b00000000_00000000_00000_0_00_000_00100 = .ok (.polymod) := by decide

theorem test_decode_csumCreate : decode 0b00000000_00000000_00000_0_01_000_00101 = .ok (.csumCreate 1) := by decide

theorem test_decode_csumVerify : decode 0b00000000_00000000_00000_0_11_000_00110 = .ok (.csumVerify 3) := by decide

theorem test_decode_conv8to5 : decode 0b00000000_00000000_00000_1_00_000_00111 = .ok (.conv8to5 true) := by decide

theorem test_decode_conv5to8 : decode 0b00000000_00000000_00000_0_00_000_01000 = .ok (.conv5to8 false) := by decide

theorem test_decode_strEncode : decode 0b00000000_00000000_00000_0_00_000_01001 = .ok (.strEncode 0) := by decide

theorem test_decode_strDecode : decode 0b00000000_00000000_00000_0_10_000_01010 = .ok (.strDecode 2) := by decide

theorem test_decode_addrEncode : decode 0b00000000_10010000_00000_0_00_000_01011 = .ok (.addrEncode 0x90) := by decide

theorem test_decode_addrDecode : decode 0b00000000_00000000_00000_0_00_000_01100 = .ok (.addrDecode) := by decide

/-- R59, R60 (95_test_vectors.md I1 to I6, L15, B16): a reserved opcode, each RES field, an unused IMM, VAR and PAD. -/
theorem test_decode_refused :
    decode 0x0000000D = .error .reservedOpcode ∧ decode 0x0000001F = .error .reservedOpcode ∧
    decode 0x00000020 = .error .reservedBits ∧ decode 0x00000800 = .error .reservedBits ∧
    decode 0x01000005 = .error .reservedBits ∧ decode 0x00010000 = .error .unusedField ∧
    decode 0x00010101 = .error .unusedField ∧ decode 0x00000409 = .error .unusedField := by decide

theorem test_decodeTableWord : decodeTableWord 32 0x0010000B = some (.addrEncode 16) := by decide

/-! ### Each command, from the vectors of 95_test_vectors.md -/

/-- Vector I7. -/
theorem test_nop :
    shown (step (running 0x00000000 [] [])) =
      [6, 0, 0, 0] := by decide +kernel

/-- R71 corner case: NOP clears what the command before it left. -/
theorem test_nop_after_output :
    shown (step (running 0x00000000 (codes ['b', 'c']) (cells [1]))) =
      [6, 0, 0, 0] := by decide +kernel

/-- Vector L2. -/
theorem test_lutS2c :
    shown (step (running 0x00050001 [] [])) =
      [6, 57, 0, 0] := by decide +kernel

/-- Vector L4. -/
theorem test_lutS2c_32 :
    shown (step (running 0x00200001 [] [])) =
      [4106, 0, 0, 0] := by decide +kernel

/-- Vector L6. -/
theorem test_lutC2s :
    shown (step (running 0x006C0002 [] [])) =
      [6, 287, 0, 0] := by decide +kernel

/-- Vector L8. -/
theorem test_lutC2s_uppercase :
    shown (step (running 0x00510002 [] [])) =
      [6, 0, 0, 0] := by decide +kernel

/-- Vector X1. -/
theorem test_hrpExpand :
    shown (step (running 0x00000003 (codes ['b', 'c']) [])) =
      [6, 0, 5, 0, 3, 3, 0, 2, 3] := by decide +kernel

/-- Vector X6. -/
theorem test_hrpExpand_255 :
    shown (step (running 0x00000003 (cells [255]) [])) =
      [6, 0, 3, 0, 7, 0, 31] := by decide +kernel

/-- Vector P6. -/
theorem test_polymod_sixZeros :
    shown (step (running 0x00000004 [] (cells [0, 0, 0, 0, 0, 0]))) =
      [6, 996825010, 0, 0] := by decide +kernel

/-- Vector P9. -/
theorem test_polymod_32 :
    shown (step (running 0x00000004 [] (cells [32]))) =
      [4106, 0, 0, 0] := by decide +kernel

/-- Vector K2. -/
theorem test_csumCreate_bech32m :
    shown (step (running 0x00000105 (codes ['a']) [])) =
      [6, 1040502333, 6, 0, 31, 0, 9, 19, 17, 29] := by decide +kernel

/-- Vector K10. -/
theorem test_csumCreate_var2 :
    shown (step (running 0x00000205 (codes ['a']) [])) =
      [1546, 0, 0, 0] := by decide +kernel

/-- Vector V3. -/
theorem test_csumVerify_valid :
    shown (step (running 0x00000106 (codes ['a']) (cells [31, 0, 9, 19, 17, 29]))) =
      [6, 1, 0, 0] := by decide +kernel

/-- Vector V4: a false verification is an Ok. -/
theorem test_csumVerify_other :
    shown (step (running 0x00000006 (codes ['a']) (cells [31, 0, 9, 19, 17, 29]))) =
      [6, 0, 0, 0] := by decide +kernel

/-- Vector B9. -/
theorem test_conv8to5_noPad :
    shown (step (running 0x00000007 [] (cells [1, 2, 3, 4, 5]))) =
      [6, 0, 8, 0, 0, 4, 1, 0, 6, 1, 0, 5] := by decide +kernel

/-- Vector B4. -/
theorem test_conv8to5_padding :
    shown (step (running 0x00000007 [] (cells [255]))) =
      [3850, 0, 0, 0] := by decide +kernel

/-- Vector C12. -/
theorem test_conv5to8_pad :
    shown (step (running 0x00000408 [] (cells [31, 31, 31, 31, 31, 31, 31]))) =
      [6, 0, 5, 0, 255, 255, 255, 255, 224] := by decide +kernel

/-- Vector C8: fifteen zero bits leave seven over, not below five. -/
theorem test_conv5to8_zeros :
    shown (step (running 0x00000008 [] (cells [0, 0, 0]))) =
      [3850, 0, 0, 0] := by decide +kernel

/-- Vector S6. -/
theorem test_strEncode_bech32m :
    shown (step (running 0x00000109 (codes ['a', 'b', 'c']) (cells [0, 1, 2, 3]))) =
      [6, 0, 14, 0, 97, 98, 99, 49, 113, 112, 122, 114, 108, 118, 112, 57, 99, 97] := by decide +kernel

/-- Vector S4: the HRP is copied as given. -/
theorem test_strEncode_uppercase :
    shown (step (running 0x00000009 (codes ['A']) (cells [0]))) =
      [6, 0, 9, 0, 65, 49, 113, 113, 121, 118, 112, 99, 117] := by decide +kernel

/-- Vector T2. -/
theorem test_strDecode_uppercase :
    shown (step (running 0x0000000A [] (codes ['A', '1', '2', 'U', 'E', 'L', '5', 'L']))) =
      [6, 0, 0, 1, 97] := by decide +kernel

/-- Vector T13. -/
theorem test_strDecode_emptyHrp :
    shown (step (running 0x0000000A [] (codes ['1', 'q', 'q', 'q', 'q', 'q', 'q']))) =
      [2826, 0, 0, 0] := by decide +kernel

/-- Vector E3. -/
theorem test_addrEncode :
    shown (step (running 0x0010000B (codes ['b', 'c']) (cells [255, 64]))) =
      [6, 272, 14, 0, 98, 99, 49, 115, 108, 97, 113, 113, 120, 110, 112, 55, 104, 117] := by decide +kernel

/-- By hand from R106 and R107 (log entry 16): HRP "A", version 10, and a program whose string A1254234963493608 has
no lowercase letter. Lowercased it reads "a", over which the checksum does not verify. -/
theorem test_addrEncode_checksumMismatch :
    shown (step (running 0x000A000B (codes ['A']) (cells [165, 85, 26, 151, 81]))) =
      [1290, 0, 0, 0] := by decide +kernel

/-- Vector D10. -/
theorem test_addrDecode :
    shown (step (running 0x0000000C (codes ['b', 'c']) (codes ['b', 'c', '1', 's', 'l', 'a', 'q', 'q', 'x', 'n', 'p', '7', 'h', 'u']))) =
      [6, 272, 2, 0, 255, 64] := by decide +kernel

/-- Vector D12: BECH32M at version 0. -/
theorem test_addrDecode_variant :
    shown (step (running 0x0000000C (codes ['b', 'c']) (codes ['b', 'c', '1', 'q', 'q', 'q', 'q', 'q', 'q', 'q', 'q', 'q', 'q', 'q', 'q', 'q', 'q', 'q', 'q', 'q', 'q', 'q', 'q', 'q', 'q', 'q', 'q', 'q', 'q', 'q', 'q', 'q', 'q', 'q', 'q', 'q', 's', '9', 'w', 'c', 'x', 'j']))) =
      [2314, 0, 0, 0] := by decide +kernel

/-- Vector I2: an illegal word completes with IllegalCommand. -/
theorem test_illegal :
    shown (step (running 0x0000001F [] [])) =
      [4874, 0, 0, 0] := by decide +kernel

/-! ### The port and the other steps -/

/-- R43: a buffer word's lowest byte goes to its lowest cell. -/
theorem test_write_littleEndian :
    (bufPrefix (afterWrite State.reset 0x404 0x44332211).bufH 8).drop 4 = [0x11, 0x22, 0x33, 0x44] := by decide +kernel

/-- R24: a length register keeps bits 8:0. -/
theorem test_write_length : readData (afterWrite State.reset 0x008 0xFFFFFF01) 0x008 = 0x00000101 := by decide

/-- R45: a misaligned write launches nothing and responds ERR. -/
theorem test_write_misaligned : (afterWrite State.reset 0x001 0).busy = false ∧ portResponse 0x001 = .err := by decide

/-- R65, R70: a write while BUSY = 1 is dropped, and STATUS then reads BUSY and WR_IGNORED. -/
theorem test_write_busy :
    readData (afterWrite (running 0 [] []) 0x008 5) 0x004 = 0x00000011 ∧
      readData (afterWrite (running 0 [] []) 0x008 5) 0x008 = 0 := by decide

/-- R128: a reset turn abandons the command in flight. -/
theorem test_reset_abandons :
    shown (step { running 0x00050001 [] [] with turns := [.reset] }) = [0, 0, 0, 0] := by decide +kernel

/-- R63: the command pseudo-instruction's one write, whatever the mnemonic uses of its fields. -/
theorem test_pseudo_cmd :
    cmdStmts .csumCreate (v := variantValue .bech32m) = [.wr 0x000 0x00000105] ∧
      cmdStmts .nop (i := 1) = [.wr 0x000 0x00010000] ∧ cmdStmts .csumCreate (p := 1) = [.wr 0x000 0x00000405] ∧
      cmdStmts .addrEncode (v := 1) (p := 1) (i := 16) = [.wr 0x000 0x0010050B] := by decide

/-- R63: a literal's last word is filled with zeros. -/
theorem test_pseudo :
    loadStmts 0x500 [0x61, 0x31, 0x32, 0x75, 0x65] = [.wr 0x500 0x75323161, .wr 0x504 0x00000065] ∧
      setlenStmts 0x00C [0x61, 0x31, 0x32, 0x75, 0x65] = [.wr 0x00C 5] ∧
      dumpStmts 0x600 5 = [.rd 0x600, .rd 0x604] := by decide

/-- R63: WAIT reads STATUS again while DONE = 0, and goes on once it reads 1. -/
theorem test_wait :
    (hostStep { running 0 [] [] with host := [.wait] }).host = [.wait] ∧
      (hostStep { complete (running 0 [] []) (.fail .illegalCommand) with host := [.wait] }).host = [] := by
  decide +kernel
/-! ### Witnesses: for each statement with hypotheses, a state and operands that meet them, clause by clause -/

/-- NOP in flight, no turn listed. -/
def busyNop : State := running 0x00000000 [] []

/-- An illegal word in flight, no turn listed. -/
def busyIllegal : State := running 0x0000000D [] []

theorem witness_EncodeInvertsDecode :
    decode 0x00000300 = .error .unusedField ∧ decode 0x00000305 = .ok (.csumCreate 3) ∧
      decode 0x00FF0001 = .ok (.lutS2c 255) := by decide

theorem witness_DecodeSelectsMatchingRow :
    decode 0x00FF0002 = .ok (.lutC2s 255) ∧ rowOf (.lutC2s 255) ∈ opcodeRows ∧
      rowMatches (rowOf (.lutC2s 0)) 0x00FF0002 = true := by decide

theorem witness_IllegalWordFails :
    0x0D ≤ (0x0000000D : Word).toNat % 32 ∧ 0x0D ≤ (0xFFFFFFFF : Word).toNat % 32 ∧
      (∃ q, busyIllegal.inflight = some q ∧ (∀ r ∈ opcodeRows, rowMatches r q.word = false) ∧
        ({ busyIllegal with turns := [.unit, .host] } : State).turns = .unit :: [.host]) :=
  ⟨by decide, by decide, _, rfl, by decide, rfl⟩

theorem witness_StepRunsDecodedCommand :
    (∃ q, busyNop.inflight = some q ∧ decode q.word = .ok .nop ∧ busyNop.turns = []) ∧
      (∃ q, (running 0x00100001 [] []).inflight = some q ∧ decode q.word = .ok (.lutS2c 16)) ∧
      ({ busyNop with turns := [.unit] } : State).turns = .unit :: [] ∧
      ({ busyNop with turns := [.host, .reset] } : State).turns = .host :: [.reset] ∧
      ({ busyNop with turns := [.reset] } : State).turns = .reset :: [] ∧ decode 0x00FF000B = .ok (.addrEncode 255) :=
  ⟨⟨_, rfl, by decide, rfl⟩, ⟨_, rfl, by decide⟩, rfl, rfl, rfl, by decide⟩

/-- Host turns with nothing in flight and none listed, and with a command in flight; the four forms of a program. -/
theorem witness_StepRunsDecodedCommand_host :
    (∃ u, HostTurn State.reset u ∧ State.reset.host = []) ∧
      (∃ u, HostTurn { State.reset with host := [.wr 0x008 5] } u) ∧
      (∃ u, HostTurn { busyNop with turns := [.host], host := [.rd 0x010, .wait] } u) ∧
      (∃ u, HostTurn { busyNop with turns := [.host, .unit], host := [.wait] } u) ∧
      (State.reset.inflight = none ∧ ({ State.reset with turns := [.unit] } : State).turns = .unit :: []) :=
  ⟨⟨_, .inl ⟨rfl, rfl, rfl⟩, rfl⟩, ⟨_, .inl ⟨rfl, rfl, rfl⟩⟩, ⟨_, .inr ⟨_, rfl, rfl⟩⟩, ⟨_, .inr ⟨_, rfl, rfl⟩⟩, rfl, rfl⟩

/-- A state with a command in flight that meets the invariant. -/
theorem witness_inv : Inv (sized 0x00000003 511 0) := by
  refine ⟨⟨?_, rfl, rfl, fun _ => rfl, ?_⟩, ⟨rfl, rfl, rfl, rfl, ?_⟩, ?_, ⟨?_, ?_, rfl, rfl⟩, ⟨?_, ?_⟩, ⟨?_, ?_⟩⟩
  · intro _; exact ⟨rfl, rfl, rfl, rfl⟩
  · intro h; cases h
  · intro q hq; cases hq; exact ⟨rfl, rfl⟩
  · intro q hq; cases hq; exact ⟨rfl, rfl, rfl, rfl, rfl⟩
  all_goals decide

theorem witness_StepKeepsInv : ∃ t, Inv (sized 0x00000003 511 0) ∧ step (sized 0x00000003 511 0) = .next t :=
  ⟨_, witness_inv, rfl⟩

/-- The block idle, the host about to write the NOP word to CMD. -/
def hostLaunches : State := { State.reset with host := [.wr 0x000 0x00000000] }

theorem witness_BusyFollowsTheCommand :
    (∃ t, step hostLaunches = .next t ∧ hostLaunches.busy = false ∧ (takeTurn hostLaunches).1 = .host ∧
        hostLaunches.host = .wr 0x000 0 :: [] ∧ t.busy = true) ∧
      (∃ t, step busyNop = .next t ∧ (takeTurn busyNop).1 = .unit ∧ busyNop.busy = true ∧ t.busy = false) ∧
      (∃ t, step { busyNop with turns := [.reset] } = .next t ∧
        (takeTurn { busyNop with turns := [.reset] }).1 = .reset ∧ t.busy = false) :=
  ⟨⟨_, rfl, rfl, rfl, rfl, rfl⟩, ⟨_, rfl, rfl, rfl, rfl⟩, ⟨_, rfl, rfl, rfl⟩⟩

/-- NOP in flight, the host's turn, and its write to the last word of the window. -/
def hostDisturbs : State := { busyNop with turns := [.host], host := [.wr 0xFFC 0x00000001] }

/-- The same after the write was dropped, idle again, the host about to launch. -/
def flagSet : State :=
  { State.reset with
    status := { done := true, ok := true, fail := false, wrIgnored := true, failcode := 0 }
    host := [.wr 0x000 0x00000000] }

theorem witness_WriteIgnoredFlagIsSticky :
    (∃ t, step hostDisturbs = .next t ∧ hostDisturbs.busy = true ∧ (takeTurn hostDisturbs).1 = .host ∧
        hostDisturbs.host = .wr 0xFFC 1 :: [] ∧ (0xFFC : Addr).toNat % 4 = 0 ∧ hostDisturbs.status.wrIgnored = false ∧
        t.status.wrIgnored = true) ∧
      (∃ t, step flagSet = .next t ∧ flagSet.busy = false ∧ (takeTurn flagSet).1 = .host ∧
        flagSet.host = .wr 0x000 0 :: [] ∧ flagSet.status.wrIgnored = true ∧ t.status.wrIgnored = false) ∧
      (∃ t, step { flagSet with turns := [.reset] } = .next t ∧
        (takeTurn { flagSet with turns := [.reset] }).1 = .reset ∧ t.status.wrIgnored = false) :=
  ⟨⟨_, rfl, rfl, rfl, rfl, by decide, rfl, rfl⟩, ⟨_, rfl, rfl, rfl, rfl, rfl, rfl⟩, ⟨_, rfl, rfl, rfl⟩⟩

theorem witness_OutputsStableUntilNextCommand :
    ∃ t, step { State.reset with result := 7, host := [.wr 0x400 1] } = .next t ∧
      ({ State.reset with result := 7, host := [.wr 0x400 1] } : State).busy = false ∧ t.busy = false ∧
      (takeTurn { State.reset with result := 7, host := [.wr 0x400 1] }).1 ≠ .reset :=
  ⟨_, rfl, rfl, rfl, by decide⟩

theorem witness_HostCannotTouchInFlightCommand :
    ∃ t, hostDisturbs.busy = true ∧ (takeTurn hostDisturbs).1 = .host ∧ step hostDisturbs = .next t :=
  ⟨_, rfl, rfl, rfl⟩

theorem witness_ResetClearsTheBlock :
    ({ busyNop with result := 7, turns := [.reset, .unit] } : State).turns = .reset :: [.unit] := rfl

theorem witness_EveryCommandEnds : ({ busyNop with turns := [.host, .host] } : State).busy = true := rfl

theorem witness_OutcomeDependsOnSnapshotOnly :
    ∃ s' u', busyNop.inflight = ({ busyNop with result := 7, draws := 9 } : State).inflight ∧
      exec .nop busyNop = .next s' ∧ exec .nop { busyNop with result := 7, draws := 9 } = .next u' :=
  ⟨_, _, rfl, rfl, rfl⟩

theorem witness_LatencyDoesNotChangeTheOutcome :
    busyNop.busy = true ∧
      ({ busyNop with turns := [.host, .host, .unit, .reset] } : State).turns =
        List.replicate 2 .host ++ .unit :: [.reset] := ⟨rfl, rfl⟩

theorem witness_CmdWriteIsAccepted :
    State.reset.busy = false ∧ flagSet.busy = false ∧ ∀ r ∈ opcodeRows, rowMatches r 0x0000000D = false :=
  ⟨rfl, rfl, by decide⟩

theorem witness_BusyWriteIsDropped :
    busyNop.busy = true ∧ (0x000 : Addr).toNat % 4 = 0 ∧ (0xFFC : Addr).toNat % 4 = 0 ∧
      (0x001 : Addr).toNat % 4 ≠ 0 ∧ (0xFFF : Addr).toNat % 4 ≠ 0 := by decide

theorem witness_AlignmentDecidesTheResponse :
    (0x003 : Addr).toNat % 4 ≠ 0 ∧
      ((0x01C : Addr).toNat % 4 = 0 ∧ 0x01C ≤ (0x01C : Addr).toNat ∧ (0x01C : Addr).toNat < 0x400) ∧
      ((0x3FC : Addr).toNat % 4 = 0 ∧ 0x01C ≤ (0x3FC : Addr).toNat ∧ (0x3FC : Addr).toNat < 0x400) ∧
      ((0x800 : Addr).toNat % 4 = 0 ∧ 0x800 ≤ (0x800 : Addr).toNat) ∧
      ((0xFFC : Addr).toNat % 4 = 0 ∧ 0x800 ≤ (0xFFC : Addr).toNat) ∧ State.reset.busy = false := by decide

theorem witness_StatusReadsItsFields : flagSet.busy = false := rfl

theorem witness_IdleReadsReturnStoredValues :
    State.reset.busy = false ∧ (0 : Nat) < 64 ∧ (63 : Nat) < 64 ∧ (0 : Nat) < 4 ∧ (3 : Nat) < 4 := by decide

theorem witness_BusyReadsServeInputsOnly :
    busyNop.busy = true ∧
      ((0x018 : Addr).toNat % 4 = 0 ∧ (0x600 : Addr).toNat % 4 = 0 ∧ 0x600 ≤ (0x600 : Addr).toNat ∧
        (0x7FC : Addr).toNat % 4 = 0 ∧ (0x7FC : Addr).toNat < 0x800) ∧
      (¬ ((0x5FC : Addr) = 0x010 ∨ (0x5FC : Addr) = 0x014 ∨ (0x5FC : Addr) = 0x018 ∨
        (0x600 ≤ (0x5FC : Addr).toNat ∧ (0x5FC : Addr).toNat < 0x800))) ∧
      (63 : Nat) < 64 ∧ (3 : Nat) < 4 ∧ (0x01C : Addr).toNat % 4 = 0 ∧ 0x800 ≤ (0x800 : Addr).toNat := by decide

theorem witness_BusyReadsServeInputsOnly_status : StatusLegal busyNop :=
  ⟨fun _ => ⟨rfl, rfl, rfl, rfl⟩, rfl, rfl, fun _ => rfl, fun h => by cases h⟩

theorem witness_IdleRegisterWrites :
    State.reset.busy = false ∧ 0x600 ≤ (0x600 : Addr).toNat ∧ (0x7FF : Addr).toNat < 0x800 := by decide

theorem witness_BufferWordsPackLittleEndian : State.reset.busy = false ∧ (0 : Nat) < 64 ∧ (63 : Nat) < 64 := by decide

theorem witness_OkWritesTheOutputs : (List.replicate 256 (0 : Byte)).length ≤ 256 ∧ ([] : List Byte).length ≤ 256 :=
  ⟨by rw [List.length_replicate], by decide⟩

theorem witness_CommandsKeepTheInputs : ∃ t, exec .nop busyNop = .next t := ⟨_, rfl⟩

theorem witness_LengthsThenVariantAreChecked :
    (∃ q, (sized 0x00000003 257 0).inflight = some q ∧ readsHrpLen .hrpExpand = true ∧ 256 < q.hlen.toNat) ∧
      (∃ q, (sized 0x00000004 0 257).inflight = some q ∧ readsInLen .polymod = true ∧ 256 < q.ilen.toNat) ∧
      (∃ q, (sized 0x00000205 256 256).inflight = some q ∧ varUsed (.csumCreate 2) = some 2 ∧
        2 ≤ (2 : BitVec 2).toNat ∧ q.hlen.toNat ≤ 256 ∧ q.ilen.toNat ≤ 256) ∧
      (∃ q, (sized 0x0000030A 511 256).inflight = some q ∧ varUsed (.strDecode 3) = some 3 ∧
        2 ≤ (3 : BitVec 2).toNat ∧ readsHrpLen (.strDecode 3) = false ∧ q.ilen.toNat ≤ 256) :=
  ⟨⟨_, rfl, by decide⟩, ⟨_, rfl, by decide⟩, ⟨_, rfl, by decide⟩, ⟨_, rfl, by decide⟩⟩

theorem witness_CommandsReportListedCodes :
    ∃ t, exec (.lutS2c 32) (running 0x00200001 [] []) = .next t ∧ t.status.fail = true := ⟨_, rfl, rfl⟩

theorem witness_IllFormedCommandsFail :
    ∃ t, (Instr.lutS2c 32).wellFormed = false ∧ exec (.lutS2c 32) (running 0x00200001 [] []) = .next t :=
  ⟨_, by decide, rfl⟩

theorem witness_NopCompletes : busyNop.busy = true := rfl

theorem witness_LutCommandsLookUp :
    busyNop.busy = true ∧ charset[(31 : Byte).toNat]? = some 0x6C ∧ (31 : Byte).toNat ≤ 31 ∧ 31 < (32 : Byte).toNat ∧
      charset[0]? = some (0x71 : Byte) ∧ (0x51 : Byte) ∉ charset := by decide

theorem witness_CharsetIsABijection :
    charToSymbol 0x6C = some 31 ∧ charToSymbol 0x31 = none ∧ 0x41 ≤ (0x41 : Byte).toNat ∧ (0x5A : Byte).toNat ≤ 0x5A := by
  decide

theorem witness_PolymodStaysBelowTwoPow30 : (0x3FFFFFFF : Word).toNat < 2 ^ 30 := by decide

theorem witness_PolymodIsLinear : (0x3FFFFFFF : Word).toNat < 2 ^ 30 ∧ (1 : Word).toNat < 2 ^ 30 ∧ 5 ≤ 5 := by decide

theorem witness_HrpExpandCommand :
    (∃ q, (sized 0x00000003 127 0).inflight = some q ∧ q.hlen.toNat ≤ 127) ∧
      (∃ q, (sized 0x00000003 128 0).inflight = some q ∧ 127 < q.hlen.toNat ∧ q.hlen.toNat ≤ 256) ∧
      (∃ q, (sized 0x00000003 257 0).inflight = some q ∧ 256 < q.hlen.toNat) :=
  ⟨⟨_, rfl, by decide⟩, ⟨_, rfl, by decide⟩, ⟨_, rfl, by decide⟩⟩

theorem allSymbols_flight (w : Word) (h : List Byte) : AllSymbols (flight w h [0, 31]).input := by
  rw [flight_input (by decide)]
  unfold AllSymbols
  decide

theorem not_allSymbols_flight (w : Word) (h : List Byte) : ¬ AllSymbols (flight w h [0, 32]).input := by
  rw [flight_input (by decide)]
  unfold AllSymbols
  decide

theorem witness_PolymodCommand :
    ((running 4 [] [0, 31]).inflight = some (flight 4 [] [0, 31]) ∧ (flight 4 [] [0, 31]).ilen.toNat ≤ 256 ∧
        AllSymbols (flight 4 [] [0, 31]).input) ∧
      ((running 4 [] [0, 32]).inflight = some (flight 4 [] [0, 32]) ∧ (flight 4 [] [0, 32]).ilen.toNat ≤ 256 ∧
        ¬ AllSymbols (flight 4 [] [0, 32]).input) ∧
      (∃ q, (sized 4 0 257).inflight = some q ∧ 256 < q.ilen.toNat) :=
  ⟨⟨rfl, by decide, allSymbols_flight _ _⟩, ⟨rfl, by decide, not_allSymbols_flight _ _⟩, ⟨_, rfl, by decide⟩⟩

theorem witness_CsumCreateCommand :
    (running 0x105 [0x61] [0, 31]).inflight = some (flight 0x105 [0x61] [0, 31]) ∧
      (flight 0x105 [0x61] [0, 31]).hlen.toNat ≤ 256 ∧ (flight 0x105 [0x61] [0, 31]).ilen.toNat ≤ 256 ∧
      NamesVariant 1 .bech32m ∧ NamesVariant 0 .bech32 ∧ AllSymbols (flight 0x105 [0x61] [0, 31]).input ∧
      ¬ AllSymbols (flight 0x105 [0x61] [0, 32]).input :=
  ⟨rfl, by decide, by decide, .inr ⟨rfl, rfl⟩, .inl ⟨rfl, rfl⟩, allSymbols_flight _ _, not_allSymbols_flight _ _⟩

/-- Vector V1: the checksum of HRP "a" with no data verifies for BECH32; and not for BECH32M. -/
theorem witness_CsumVerifyCommand :
    AllSymbols (flight 6 [0x61] [10, 28, 25, 31, 20, 31]).input ∧ NamesVariant 0 .bech32 ∧
      polymod (hrpExpand (flight 6 [0x61] [10, 28, 25, 31, 20, 31]).hrp ++
        (flight 6 [0x61] [10, 28, 25, 31, 20, 31]).input.map (BitVec.setWidth 5)) = variantConstant .bech32 ∧
      polymod (hrpExpand (flight 6 [0x61] [10, 28, 25, 31, 20, 31]).hrp ++
        (flight 6 [0x61] [10, 28, 25, 31, 20, 31]).input.map (BitVec.setWidth 5)) ≠ variantConstant .bech32m ∧
      ¬ AllSymbols (flight 6 [0x61] [0, 32]).input := by
  refine ⟨?_, .inl ⟨rfl, rfl⟩, ?_, ?_, not_allSymbols_flight _ _⟩
  · rw [flight_input (by decide)]; unfold AllSymbols; decide
  · rw [flight_input (by decide), flight_hrp (by decide)]; decide +kernel
  · rw [flight_input (by decide), flight_hrp (by decide)]; decide +kernel

/-- `[0]` regroups to `[0]` without padding, three zero bits being dropped (vector B5); `[255]` to `[31, 28]` with padding
(vector B3). -/
theorem regroups_zero : Regroups 8 5 false [0] [0] :=
  ⟨by decide, by decide, fun h => (by cases h), fun _ => ⟨3, by decide⟩⟩

theorem regroups_ff : Regroups 8 5 true [255] [31, 28] :=
  ⟨by decide, by decide, fun _ => ⟨2, by decide⟩, fun h => (by cases h)⟩

/-- Without padding `[255]` regroups to nothing: three one bits would be dropped (vector B4). -/
theorem not_regroups_ff : ¬ ∃ out, Regroups 8 5 false [255] out := by
  rintro ⟨out, h⟩
  obtain ⟨k, hk, -, he⟩ := h.dropped rfl
  have hl := congrArg List.length he
  simp only [List.length_append, bitStream_length, List.length_replicate, List.length_singleton] at hl
  have h8 : (bitStream 8 [255])[7]? = some true := by decide
  rw [he, List.getElem?_append_right (by rw [bitStream_length]; omega), List.getElem?_replicate] at h8
  split at h8 <;> simp at h8

theorem witness_ConvertbitsRegroupsTheBitstream :
    convertbits [255] 8 5 true = .ok [31, 28] ∧ Regroups 8 5 true [255] [31, 28] ∧
      convertbits [31, 28] 5 8 false = .ok [255] := ⟨by decide, regroups_ff, by decide⟩

theorem witness_ConvertbitsLengthsAndFailures :
    convertbits [0] 8 5 false = .ok [0] ∧ convertbits [255] 8 5 false = .fail .invalidPadding ∧
      AllSymbols [0, 31] ∧ convertbits [31, 28] 5 8 false = .ok [255] ∧
      convertbits [31, 29] 5 8 false = .fail .invalidPadding ∧ ([0] : List Byte).length % 8 = 1 ∧
      ([0, 0, 0] : List Byte).length % 8 = 3 ∧ (List.replicate 6 (0 : Byte)).length % 8 = 6 ∧ ¬ AllSymbols [32] := by
  unfold AllSymbols; decide

theorem witness_Conv8to5Command :
    (∃ q, (sized 7 0 160).inflight = some q ∧ q.ilen.toNat ≤ 160) ∧
      (∃ q, (sized 7 0 161).inflight = some q ∧ 160 < q.ilen.toNat ∧ q.ilen.toNat ≤ 256) ∧
      (∃ q, (sized 7 0 257).inflight = some q ∧ 256 < q.ilen.toNat) ∧
      Regroups 8 5 false (flight 7 [] [0]).input [0] ∧ ¬ ∃ out, Regroups 8 5 false (flight 7 [] [255]).input out := by
  refine ⟨⟨_, rfl, by decide⟩, ⟨_, rfl, by decide⟩, ⟨_, rfl, by decide⟩, ?_, ?_⟩
  · rw [flight_input (by decide)]; exact regroups_zero
  · rw [flight_input (by decide)]; exact not_regroups_ff

/-- Vector B13: 161 zero bytes regroup to 257 groups, three zero bits being dropped, one more than a buffer holds. -/
theorem witness_Conv8to5Command_overflow :
    Regroups 8 5 false (flight 7 [] (List.replicate 161 0)).input (List.replicate 257 0) ∧
      160 < (flight 7 [] (List.replicate 161 0)).ilen.toNat ∧ (flight 7 [] (List.replicate 161 0)).ilen.toNat ≤ 256 := by
  refine ⟨?_, by decide +kernel, by decide +kernel⟩
  rw [flight_input (by rw [List.length_replicate]; decide)]
  exact ⟨by decide +kernel, by decide +kernel, fun h => (by cases h), fun _ => ⟨3, by decide +kernel⟩⟩

theorem regroups_58 : Regroups 5 8 false [31, 28] [255] :=
  ⟨by decide, by decide, fun h => (by cases h), fun _ => ⟨2, by decide⟩⟩

/-- `[1]` without padding: five bits over, not fewer than five (vector C2). -/
theorem not_regroups_58 : ¬ ∃ out, Regroups 5 8 false [1] out := by
  rintro ⟨out, h⟩
  obtain ⟨k, hk, hk5, he⟩ := h.dropped rfl
  have hl := congrArg List.length he
  simp only [List.length_append, bitStream_length, List.length_replicate, List.length_singleton] at hl
  omega

theorem witness_Conv5to8Command :
    (∃ q, (sized 8 0 256).inflight = some q ∧ q.ilen.toNat ≤ 256) ∧
      (∃ q, (sized 8 0 257).inflight = some q ∧ 256 < q.ilen.toNat) ∧
      AllSymbols (flight 8 [] [0, 31]).input ∧ ¬ AllSymbols (flight 8 [] [0, 32]).input ∧
      Regroups 5 8 false (flight 8 [] [31, 28]).input [255] ∧
      (AllSymbols (flight 8 [] [1]).input ∧ ¬ ∃ out, Regroups 5 8 false (flight 8 [] [1]).input out) := by
  refine ⟨⟨_, rfl, by decide⟩, ⟨_, rfl, by decide⟩, allSymbols_flight _ _, not_allSymbols_flight _ _, ?_, ?_⟩
  · rw [flight_input (by decide)]; exact regroups_58
  · rw [flight_input (by decide)]; exact ⟨by unfold AllSymbols; decide, not_regroups_58⟩

/-- Vector T2: "A12UEL5L" is a BECH32 string with HRP "a" and no data. -/
theorem bech32_A12UEL5L :
    IsBech32String .bech32 (codes ['A', '1', '2', 'U', 'E', 'L', '5', 'L']) (codes ['a']) [] :=
  ⟨by decide, by decide, by decide, by decide, [10, 28, 25, 31, 20, 31], by decide, by decide, by decide +kernel⟩

theorem witness_StringDecodeAcceptsExactly :
    stringDecode (codes ['A', '1', '2', 'U', 'E', 'L', '5', 'L']) .bech32 = .ok (codes ['a'], []) ∧
      IsBech32String .bech32 (codes ['A', '1', '2', 'U', 'E', 'L', '5', 'L']) (codes ['a']) [] :=
  ⟨by decide +kernel, bech32_A12UEL5L⟩

/-- Vectors T11, T10, T8, T13, T14, T16, T15: a string for each failing step. -/
theorem witness_StringDecodeReportsFirstFailure :
    (∃ c ∈ codes ['a', ' '], c.toNat < 33) ∧ (∃ c ∈ ([127] : List Byte), 126 < c.toNat) ∧
      ((∃ c ∈ codes ['a', 'U'], 0x41 ≤ c.toNat ∧ c.toNat ≤ 0x5A) ∧
        (∃ c ∈ codes ['a', 'U'], 0x61 ≤ c.toNat ∧ c.toNat ≤ 0x7A)) ∧
      (0x31 ∉ codes ['a', 'b', 'c']) ∧
      (codes ['1', 'q', 'q', 'q', 'q', 'q', 'q'] = 0x31 :: codes ['q', 'q', 'q', 'q', 'q', 'q']) ∧
      (codes ['a', '1', 'q', 'q', 'q', 'q', 'q'] = codes ['a'] ++ 0x31 :: codes ['q', 'q', 'q', 'q', 'q'] ∧
        (codes ['q', 'q', 'q', 'q', 'q']).length < 6) ∧
      90 < (List.replicate 84 (0x61 : Byte) ++ 0x31 :: codes ['q', 'q', 'q', 'q', 'q', 'q']).length ∧
      (∃ c ∈ codes ['2', 'u', 'e', 'l', '5', 'b'], lower c ∉ charset) ∧
      (([0, 0, 0, 0, 0, 0] : List Symbol).map symbolToChar = lowerString (codes ['q', 'q', 'q', 'q', 'q', 'q']) ∧
        polymod (hrpExpand (lowerString (codes ['a'])) ++ [0, 0, 0, 0, 0, 0]) ≠ variantConstant .bech32) := by
  decide +kernel

theorem witness_StringCodecRoundTrips :
    (∀ c ∈ codes ['a', '1'], 33 ≤ c.toNat ∧ c.toNat ≤ 126) ∧
      (∀ c ∈ codes ['a', '1'], ¬ (0x41 ≤ c.toNat ∧ c.toNat ≤ 0x5A)) ∧ 1 ≤ (codes ['a', '1']).length ∧
      (codes ['a', '1']).length + (List.replicate 81 (0 : Symbol)).length + 7 ≤ 90 := by decide

theorem witness_UppercaseFormDecodesAlike :
    ∀ c ∈ codes ['a', '1', '2', 'u', 'e', 'l', '5', 'l'], ¬ (0x41 ≤ c.toNat ∧ c.toNat ≤ 0x5A) := by decide

theorem witness_OtherVariantMismatches :
    stringDecode (codes ['a', '1', '2', 'u', 'e', 'l', '5', 'l']) .bech32 = .ok (codes ['a'], []) ∧
      Variant.bech32m ≠ .bech32 := by decide +kernel

theorem witness_StrEncodeCommand :
    (∃ q, (sized 0x109 249 0).inflight = some q ∧ q.hlen.toNat + q.ilen.toNat + 7 ≤ 256) ∧
      (∃ q, (sized 0x109 250 0).inflight = some q ∧ 256 < q.hlen.toNat + q.ilen.toNat + 7 ∧ q.hlen.toNat ≤ 256 ∧
        AllSymbols q.input) ∧
      AllSymbols (flight 0x109 [0x61] [0, 31]).input ∧ ¬ AllSymbols (flight 0x109 [0x61] [0, 32]).input ∧
      NamesVariant 1 .bech32m :=
  ⟨⟨_, rfl, by decide⟩, ⟨_, rfl, by decide, by decide, fun _ h => (by cases h)⟩, allSymbols_flight _ _,
    not_allSymbols_flight _ _, .inr ⟨rfl, rfl⟩⟩

theorem witness_StrDecodeCommand :
    IsBech32String .bech32 (flight 10 [] (codes ['A', '1', '2', 'U', 'E', 'L', '5', 'L'])).input (codes ['a']) [] ∧
      (¬ ∃ hrp data, IsBech32String .bech32 (flight 10 [] []).input hrp data) ∧ (flight 10 [] []).ilen.toNat ≤ 256 ∧
      NamesVariant 0 .bech32 ∧ stringDecode (flight 10 [] []).input .bech32 = .fail .separatorNotFound := by
  refine ⟨?_, ?_, by decide, .inl ⟨rfl, rfl⟩, by decide⟩
  · rw [flight_input (by decide)]; exact bech32_A12UEL5L
  · rintro ⟨hrp, data, h⟩
    obtain ⟨g, _, hp, _⟩ := h.parts
    have := congrArg List.length hp
    simp [InFlight.input, bufPrefix, flight, lowerString] at this

/-- Vector D10: "bc1slaqqxnp7hu" is version 16 with program FF 40, BECH32M. -/
theorem address_D10 :
    IsWitnessAddress (codes ['b', 'c'])
      (codes ['b', 'c', '1', 's', 'l', 'a', 'q', 'q', 'x', 'n', 'p', '7', 'h', 'u'])
      { version := 16, program := [0xFF, 0x40], bech32m := true } := by
  refine ⟨⟨[31, 29, 0, 0], ⟨by decide, by decide, by decide, by decide, ?_⟩, ?_⟩, by decide, by decide, by decide,
    by decide⟩
  · exact ⟨[6, 19, 1, 30, 23, 28], by decide, by decide, by decide +kernel⟩
  · exact ⟨by decide, by decide, fun h => (by cases h), fun _ => ⟨4, by decide⟩⟩

theorem witness_AddressDecodeAcceptsExactly :
    addressDecode (codes ['b', 'c']) (codes ['b', 'c', '1', 's', 'l', 'a', 'q', 'q', 'x', 'n', 'p', '7', 'h', 'u']) =
      .ok { version := 16, program := [0xFF, 0x40], bech32m := true } := by decide +kernel

/-- What both attempts fail on: the empty string, and vector D10's with its last character changed, whose two attempts fail
on the checksum. -/
theorem witness_AddressDecodeAcceptsExactly_bothFail :
    (∀ v, stringDecode [] v = .fail .separatorNotFound) ∧
      (∀ v, stringDecode (codes ['b', 'c', '1', 's', 'l', 'a', 'q', 'q', 'x', 'n', 'p', '7', 'h', 'q']) v =
        .fail .checksumMismatch) := by
  refine ⟨fun v => ?_, fun v => ?_⟩ <;> cases v <;> decide +kernel

/-- Vectors D6 and D7, D14, D15, D17: a decoded HRP to compare, an empty payload, version 17, a payload that does not
regroup, a program of one byte; D11's payload and version 1, which fits BECH32M and not BECH32. -/
theorem witness_AddressDecodeAcceptsExactly_checks :
    stringDecode (codes ['b', 'c', '1', 'g', 'm', 'k', '9', 'y', 'u']) .bech32 = .ok (codes ['b', 'c'], []) ∧
      codes ['b', 'c'] ≠ codes ['t', 'b'] ∧
      stringDecode (codes ['b', 'c', '1', '3', 'q', 'q', 'q', 'q', 'j', 'g', 'g', 'f', 'z', 'q']) .bech32m =
        .ok (codes ['b', 'c'], [17, 0, 0, 0, 0]) ∧
      stringDecode (codes ['b', 'c', '1', 'p', 'q', '2', 'u', 'p', 'x', 'p', 'd']) .bech32m = .ok (codes ['b', 'c'], [1, 0]) ∧
      convertbits (symbolCells [0]) 5 8 false = .fail .invalidPadding ∧
      stringDecode (codes ['b', 'c', '1', 'p', 'q', 'q', 'l', 'p', 'p', 'v', 'p', 'g']) .bech32m =
        .ok (codes ['b', 'c'], [1, 0, 0]) ∧
      convertbits (symbolCells [0, 0]) 5 8 false = .ok [0] ∧ ¬ VersionAllows 1 1 := by
  unfold VersionAllows
  decide +kernel

/-- Vector D12: version 0 and 20 bytes of 0 under BECH32M. -/
theorem witness_AddressDecodeAcceptsExactly_variant :
    stringDecode
        (codes ['b', 'c', '1'] ++ List.replicate 33 0x71 ++ codes ['s', '9', 'w', 'c', 'x', 'j']) .bech32m =
        .ok (codes ['b', 'c'], List.replicate 33 0) ∧
      convertbits (symbolCells (List.replicate 32 0)) 5 8 false = .ok (List.replicate 20 0) ∧
      VersionAllows 0 20 ∧ ((0 : Symbol) = 0 ↔ Variant.bech32m = .bech32m) := by
  unfold VersionAllows
  decide +kernel

/-- The boundaries of R108: version 16 and 2 bytes, version 0 and 20 bytes with an HRP of 50 characters, and 51. -/
theorem witness_AddressCodecRoundTrips :
    VersionAllows 16 2 ∧ VersionAllows 0 20 ∧ VersionAllows 1 40 ∧ HrpFits (List.replicate 50 0x61) 20 ∧
      90 < (List.replicate 51 (0x61 : Byte)).length + 8 + (8 * 20 + 4) / 5 ∧
      (∀ c ∈ List.replicate 51 (0x61 : Byte), 33 ≤ c.toNat ∧ c.toNat ≤ 126) ∧
      (∀ c ∈ List.replicate 51 (0x61 : Byte), ¬ (0x41 ≤ c.toNat ∧ c.toNat ≤ 0x5A)) ∧
      List.replicate 51 (0x61 : Byte) ≠ [] := by
  unfold VersionAllows
  exact ⟨by decide, by decide, by decide, ⟨by decide, by decide, by decide, by decide⟩, by decide, by decide, by decide,
    by decide⟩

theorem witness_AddrEncodeCommand :
    (VersionAllows (16 : Byte).toNat (flight 11 [0x62, 0x63] [0xFF, 0x40]).input.length ∧
        HrpFits (flight 11 [0x62, 0x63] [0xFF, 0x40]).hrp (flight 11 [0x62, 0x63] [0xFF, 0x40]).input.length) ∧
      31 < (32 : Byte).toNat ∧
      ((31 : Byte).toNat ≤ 31 ∧ ¬ VersionAllows (31 : Byte).toNat (flight 11 [0x62, 0x63] [0xFF, 0x40]).input.length) := by
  rw [flight_input (by decide), flight_hrp (by decide)]
  unfold VersionAllows
  exact ⟨⟨by decide, ⟨by decide, by decide, by decide, by decide⟩⟩, by decide, by decide⟩

/-- The HRP "FFUY4S44907GO76V0K33HN9P3QD220T". -/
def upperHrp : List Char :=
  ['F', 'F', 'U', 'Y', '4', 'S', '4', '4', '9', '0', '7', 'G', 'O', '7', '6', 'V'] ++
  ['0', 'K', '3', '3', 'H', 'N', '9', 'P', '3', 'Q', 'D', '2', '2', '0', 'T']

/-- The string of R107 for an HRP, a version and a program already regrouped. -/
def selfString (hrp : List Byte) (imm : Byte) (groups : List Byte) : List Byte :=
  stringEncode hrp (imm.setWidth 5 :: groups.map (BitVec.setWidth 5)) (if imm = 0 then .bech32 else .bech32m)

/-- The first checks of the self-check: a space in the HRP (E16), `BC` with lowercase letters behind it (E15), an empty HRP
(E13), and 51 characters with 20 bytes (E18). -/
theorem witness_AddrEncodeCommand_checks :
    convertbits (List.replicate 20 0) 8 5 true = .ok (List.replicate 32 0) ∧
      (∃ c ∈ codes ['b', ' ', 'c'], c.toNat < 33 ∨ 126 < c.toNat) ∧
      ((∃ c ∈ selfString (codes ['B', 'C']) 0 (List.replicate 32 0), 0x41 ≤ c.toNat ∧ c.toNat ≤ 0x5A) ∧
        ∃ c ∈ selfString (codes ['B', 'C']) 0 (List.replicate 32 0), 0x61 ≤ c.toNat ∧ c.toNat ≤ 0x7A) ∧
      ¬ (∃ c ∈ selfString [] 0 (List.replicate 32 0), 0x41 ≤ c.toNat ∧ c.toNat ≤ 0x5A) ∧
      90 < (selfString (List.replicate 51 0x61) 0 (List.replicate 32 0)).length ∧
      ¬ (∃ c ∈ selfString (List.replicate 51 0x61) 0 (List.replicate 32 0), 0x41 ≤ c.toNat ∧ c.toNat ≤ 0x5A) := by
  decide +kernel

/-- An HRP of digits and uppercase letters for which version 5 and an empty program give a string of no lowercase letter that
decodes, under its lowercased HRP; and the one of log entry 16, whose string does not. -/
theorem witness_AddrEncodeCommand_uppercase :
    convertbits [] 8 5 true = .ok [] ∧
      stringDecode (selfString (codes upperHrp) 5 []) .bech32m = .ok (lowerString (codes upperHrp), [5]) ∧
      ¬ (∃ c ∈ selfString (codes upperHrp) 5 [], 0x61 ≤ c.toNat ∧ c.toNat ≤ 0x7A) ∧
      (∃ c ∈ codes upperHrp, 0x41 ≤ c.toNat ∧ c.toNat ≤ 0x5A) ∧
      (selfString (codes upperHrp) 5 []).length ≤ 90 ∧
      convertbits [0xA5, 0x55, 0x1A, 0x97, 0x51] 8 5 true = .ok (cells [20, 21, 10, 17, 21, 5, 26, 17]) ∧
      (∀ v, stringDecode (selfString (codes ['A']) 10 (cells [20, 21, 10, 17, 21, 5, 26, 17])) v =
        .fail .checksumMismatch) := by
  refine ⟨by decide, by decide +kernel, by decide +kernel, by decide +kernel, by decide +kernel, by decide, fun v => ?_⟩
  cases v <;> decide +kernel

/-- Version 17 and 2 bytes (E9), version 1 and 1 byte (E6), HRP `bc`. -/
theorem witness_AddrEncodeCommand_witness :
    convertbits [0, 0] 8 5 true = .ok [0, 0, 0, 0] ∧ convertbits [0] 8 5 true = .ok [0, 0] ∧
      (selfString (codes ['b', 'c']) 17 [0, 0, 0, 0]).length ≤ 90 ∧ (selfString (codes ['b', 'c']) 1 [0, 0]).length ≤ 90 ∧
      ¬ (∃ c ∈ selfString (codes ['b', 'c']) 17 [0, 0, 0, 0], 0x41 ≤ c.toNat ∧ c.toNat ≤ 0x5A) ∧
      ¬ (∃ c ∈ selfString (codes ['b', 'c']) 1 [0, 0], 0x41 ≤ c.toNat ∧ c.toNat ≤ 0x5A) ∧
      (∀ c ∈ codes ['b', 'c'], ¬ (0x41 ≤ c.toNat ∧ c.toNat ≤ 0x5A)) ∧ 16 < (17 : Byte).toNat ∧ ¬ VersionAllows 1 1 := by
  unfold VersionAllows
  decide +kernel

theorem witness_AddrDecodeCommand :
    IsWitnessAddress
        (flight 12 (codes ['b', 'c'])
          (codes ['b', 'c', '1', 's', 'l', 'a', 'q', 'q', 'x', 'n', 'p', '7', 'h', 'u'])).hrp
        (flight 12 (codes ['b', 'c'])
          (codes ['b', 'c', '1', 's', 'l', 'a', 'q', 'q', 'x', 'n', 'p', '7', 'h', 'u'])).input
        { version := 16, program := [0xFF, 0x40], bech32m := true } ∧
      (¬ ∃ w, IsWitnessAddress (flight 12 [] []).hrp (flight 12 [] []).input w) ∧
      addressDecode (flight 12 [] []).hrp (flight 12 [] []).input = .fail .separatorNotFound := by
  refine ⟨?_, ?_, by decide⟩
  · rw [flight_input (by decide), flight_hrp (by decide)]; exact address_D10
  · rintro ⟨w, h⟩
    obtain ⟨rest, hs, _⟩ := h.string
    exact hs.hrpNonempty rfl

end Sys2Proof.Tests
end

