-- ==== Sys2Proof/Proofs/PortAlignment.lean ====
section
/-! What the alignment of an address decides of an access, and what an access to a reserved address does
(20_memory.md R42, R45). -/

namespace Sys2Proof.Machine

theorem aligned_eq_false_iff (a : Addr) : aligned a = false ↔ a.toNat % 4 ≠ 0 := by
  rw [← Bool.not_eq_true, aligned_iff]

theorem portResponse_aligned {a : Addr} (h : aligned a = true) : portResponse a = .okay := if_pos h

theorem portResponse_misaligned {a : Addr} (h : aligned a = false) : portResponse a = .err := by
  simp [portResponse, h]

/-! ### Reads -/

theorem readData_misaligned {a : Addr} (h : aligned a = false) (s : State) : readData s a = 0 := by
  simp [readData, h]

theorem readData_of_not_free {s : State} {a : Addr} (ha : aligned a = true) (hf : readIsFree s a = false) :
    readData s a = storedWord s (locate a) := by
  simp [readData, ha, hf]

theorem afterRead_of_not_free {s : State} {a : Addr} (hf : readIsFree s a = false) : afterRead s a = s := by
  simp [afterRead, hf]

theorem readIsFree_misaligned {a : Addr} (h : aligned a = false) (s : State) : readIsFree s a = false := by
  simp [readIsFree, h]

/-- Only an output location draws a free value, in flight or not (R70). -/
theorem readIsFree_of_not_output {a : Addr} (h : isOutput (locate a) = false) (s : State) : readIsFree s a = false := by
  simp [readIsFree, h]

/-! ### Accesses to a reserved address, in terms of the map -/

theorem readIsFree_reserved {a : Addr} (h : locate a = .reserved) (s : State) : readIsFree s a = false :=
  readIsFree_of_not_output (by rw [h]; rfl) s

theorem readData_reserved {a : Addr} (ha : aligned a = true) (h : locate a = .reserved) (s : State) :
    readData s a = 0 := by
  rw [readData_of_not_free ha (readIsFree_reserved h s), h]; rfl

theorem afterWrite_reserved {s : State} {a : Addr} (ha : aligned a = true) (h : locate a = .reserved)
    (hb : s.busy = false) (v : Word) : afterWrite s a v = s := by
  rw [afterWrite_idle ha hb, h]; rfl

/-- Settles O20: misaligned, aligned and reserved accesses, each by what the access does there. -/
theorem alignmentDecidesTheResponse : Obligations.AlignmentDecidesTheResponse := by
  intro s a v
  refine ⟨fun hmis => ?_, fun hal => portResponse_aligned ((aligned_iff a).2 hal), fun hal hres => ?_⟩
  · have ha : aligned a = false := (aligned_eq_false_iff a).2 hmis
    exact ⟨portResponse_misaligned ha, readData_misaligned ha s,
      afterRead_of_not_free (readIsFree_misaligned ha s), afterWrite_misaligned ha s v⟩
  · have ha : aligned a = true := (aligned_iff a).2 hal
    have hl : locate a = .reserved := locate_reserved hres
    exact ⟨readData_reserved ha hl s, afterRead_of_not_free (readIsFree_reserved hl s),
      fun hb => afterWrite_reserved ha hl hb v⟩

end Sys2Proof.Machine
end

