-- ==== Sys2Proof/Proofs/EncodeOfDecode.lean ====
section
/-! A word that selects a command is that command's word, so it matches the command's row; a word that matches no row
selects none (30_encoding.md R55, R59, R60). -/

namespace Sys2Proof

/-! ### The word is its fields -/

theorem append_eq_zero {m n : Nat} {x : BitVec m} {y : BitVec n} (h : x ++ y = 0) : x = 0 ∧ y = 0 := by
  constructor
  · simpa [BitVec.extractLsb'_append_eq_left] using congrArg (BitVec.extractLsb' n m) h
  · simpa [BitVec.extractLsb'_append_eq_right] using congrArg (BitVec.extractLsb' 0 n) h

/-- RES2, RES1 and RES0 (R55). -/
theorem resField_eq_zero {w : Word} (h : resField w = 0) :
    w.extractLsb' 24 8 = 0 ∧ w.extractLsb' 11 5 = 0 ∧ w.extractLsb' 5 3 = 0 := by
  obtain ⟨hhigh, hlow⟩ := append_eq_zero h
  obtain ⟨htop, hmid⟩ := append_eq_zero hhigh
  exact ⟨htop, hmid, hlow⟩

theorem ofBool_padField (w : Word) : BitVec.ofBool (padField w) = w.extractLsb' 10 1 := by
  ext i hi
  obtain rfl : i = 0 := by omega
  simp [padField]

/-- The seven fields of R55 cover the word, so with the reserved ones 0 the other four give it back. -/
theorem packWord_fields {w : Word} (h : resField w = 0) :
    packWord (opcField w) (varField w) (padField w) (immField w) = w := by
  obtain ⟨htop, hmid, hlow⟩ := resField_eq_zero h
  calc packWord (opcField w) (varField w) (padField w) (immField w)
    _ = w.extractLsb' 24 8 ++ w.extractLsb' 16 8 ++ w.extractLsb' 11 5 ++ w.extractLsb' 10 1 ++
        w.extractLsb' 8 2 ++ w.extractLsb' 5 3 ++ w.extractLsb' 0 5 := by
      rw [htop, hmid, hlow, ← ofBool_padField]; rfl
    _ = w := by
      iterate 6 rw [BitVec.extractLsb'_append_extractLsb'_eq_extractLsb' (by rfl)]
      exact BitVec.extractLsb'_eq_self

/-! ### The command of a decoded word has the word's fields

One lemma for each set of fields a row leaves free; `hc` is the command's line of `encode`. -/

theorem ok_of_ite {p : Prop} [Decidable p] {e : DecodeError} {c i : Instr}
    (h : (if p then Except.ok c else Except.error e) = Except.ok i) : p ∧ c = i := by
  split at h
  · next hp => exact ⟨hp, Except.ok.inj h⟩
  · cases h

section
variable {opc : BitVec 5} {i : Instr} {w : Word}

theorem plainCommand_encode {c : Instr} (h : plainCommand c w = .ok i) (hc : encode c = packWord opc 0 false 0) :
    encode i = packWord opc (varField w) (padField w) (immField w) := by
  obtain ⟨⟨hvar, hpad, himm⟩, rfl⟩ := ok_of_ite h
  rw [hvar, hpad, himm, hc]

theorem varCommand_encode {c : BitVec 2 → Instr} (h : varCommand c w = .ok i)
    (hc : ∀ var, encode (c var) = packWord opc var false 0) :
    encode i = packWord opc (varField w) (padField w) (immField w) := by
  obtain ⟨⟨hpad, himm⟩, rfl⟩ := ok_of_ite h
  rw [hpad, himm, hc]

theorem padCommand_encode {c : Bool → Instr} (h : padCommand c w = .ok i)
    (hc : ∀ pad, encode (c pad) = packWord opc 0 pad 0) :
    encode i = packWord opc (varField w) (padField w) (immField w) := by
  obtain ⟨⟨hvar, himm⟩, rfl⟩ := ok_of_ite h
  rw [hvar, himm, hc]

theorem immCommand_encode {c : Byte → Instr} (h : immCommand c w = .ok i)
    (hc : ∀ imm, encode (c imm) = packWord opc 0 false imm) :
    encode i = packWord opc (varField w) (padField w) (immField w) := by
  obtain ⟨⟨hvar, hpad⟩, rfl⟩ := ok_of_ite h
  rw [hvar, hpad, hc]

end

/-- The opcode map, row by row (R58). -/
theorem decodeOpcode_encode {opc : Nat} {i : Instr} {w : Word} (h : decodeOpcode opc w = .ok i) :
    encode i = packWord (BitVec.ofNat 5 opc) (varField w) (padField w) (immField w) := by
  unfold decodeOpcode at h
  split at h
  · exact plainCommand_encode h rfl
  · exact immCommand_encode h fun _ => rfl
  · exact immCommand_encode h fun _ => rfl
  · exact plainCommand_encode h rfl
  · exact plainCommand_encode h rfl
  · exact varCommand_encode h fun _ => rfl
  · exact varCommand_encode h fun _ => rfl
  · exact padCommand_encode h fun _ => rfl
  · exact padCommand_encode h fun _ => rfl
  · exact varCommand_encode h fun _ => rfl
  · exact varCommand_encode h fun _ => rfl
  · exact immCommand_encode h fun _ => rfl
  · exact plainCommand_encode h rfl
  · cases h

theorem encode_of_decode {w : Word} {i : Instr} (h : decode w = .ok i) : encode i = w := by
  unfold decode at h
  split at h
  · next hres =>
    rw [decodeOpcode_encode h, BitVec.ofNat_toNat, BitVec.setWidth_eq, packWord_fields hres]
  · cases h

/-! ### The table of R60 -/

theorem encode_matches_row (i : Instr) : rowMatches (rowOf i) (encode i) = true := by
  suffices h : Laws.EncodeRow.Statement i from h.1
  cases i with
  | nop => exact Laws.EncodeRow.nop
  | lutS2c imm => exact Laws.EncodeRow.lutS2c imm
  | lutC2s imm => exact Laws.EncodeRow.lutC2s imm
  | hrpExpand => exact Laws.EncodeRow.hrpExpand
  | polymod => exact Laws.EncodeRow.polymod
  | csumCreate var => exact Laws.EncodeRow.csumCreate var
  | csumVerify var => exact Laws.EncodeRow.csumVerify var
  | conv8to5 pad => exact Laws.EncodeRow.conv8to5 pad
  | conv5to8 pad => exact Laws.EncodeRow.conv5to8 pad
  | strEncode var => exact Laws.EncodeRow.strEncode var
  | strDecode var => exact Laws.EncodeRow.strDecode var
  | addrEncode imm => exact Laws.EncodeRow.addrEncode imm
  | addrDecode => exact Laws.EncodeRow.addrDecode

theorem rowOf_mem_opcodeRows (i : Instr) : rowOf i ∈ opcodeRows := by
  cases i <;> simp [opcodeRows, rowOf]

theorem rowMatches_of_decode {w : Word} {i : Instr} (h : decode w = .ok i) : rowMatches (rowOf i) w = true := by
  rw [← encode_of_decode h]
  exact encode_matches_row i

theorem decode_of_no_row {w : Word} (h : ∀ r ∈ opcodeRows, rowMatches r w = false) : ∃ e, decode w = .error e := by
  cases hd : decode w with
  | error e => exact ⟨e, rfl⟩
  | ok i =>
    have hno : rowMatches (rowOf i) w = false := h _ (rowOf_mem_opcodeRows i)
    simp [rowMatches_of_decode hd] at hno

end Sys2Proof
end

