-- ==== Sys2Proof/Proofs/CommandCommon.lean ====
section
/-! The life of a command: its acceptance, the writes dropped while it is in flight, and its completion
(40_command_common.md R64 to R69). -/

namespace Sys2Proof.Machine

/-! ### Completion, in every state -/

/-- A list a buffer can hold has a length the 9-bit length field can hold (R26, R27). -/
theorem lenField_toNat {out : List Byte} (h : out.length ≤ 256) : (BitVec.ofNat 9 out.length).toNat = out.length :=
  Nat.mod_eq_of_lt (by omega)

theorem okCompletion_complete (s : State) {o : Output} (hout : o.out.length ≤ 256) (hout2 : o.out2.length ≤ 256) :
    OkCompletion s (complete s (.ok o)) o.result o.out o.out2 where
  kept := inputsKept_complete s _
  result := completeOk_result s o
  outLen := lenField_toNat hout
  out2Len := lenField_toNat hout2
  bufO := holdsExactly_outputBuffer _ _
  bufP := holdsExactly_outputBuffer _ _
  busy := complete_busy s _
  done := complete_done s _
  ok := rfl
  fail := rfl
  failcode := rfl

/-- A buffer left unspecified is the output buffer of the empty list (R30). -/
theorem holdsExactly_unspecifiedBuffer (draw : Nat) : HoldsExactly (unspecifiedBuffer draw) [] :=
  holdsExactly_outputBuffer draw []

theorem failCompletion_complete (s : State) (c : FailCode) :
    FailCompletion s (complete s (.fail c)) (failNumber c).toNat where
  kept := inputsKept_complete s _
  result := completeFail_result s c
  outLen := completeFail_outLen s c
  out2Len := completeFail_out2Len s c
  bufO := holdsExactly_unspecifiedBuffer _
  bufP := holdsExactly_unspecifiedBuffer _
  busy := complete_busy s _
  done := complete_done s _
  ok := rfl
  fail := rfl
  failcode := rfl

/-- Settles O26, field by field; the bound on the lists is what keeps the two length fields exact. -/
theorem okWritesTheOutputs : Obligations.OkWritesTheOutputs :=
  fun s _ hout hout2 => okCompletion_complete s hout hout2

/-- Settles O27, field by field, for every failure code. -/
theorem failLeavesNoOutput : Obligations.FailLeavesNoOutput := failCompletion_complete

/-! ### Acceptance -/

theorem outcomeOf_of_no_row {q : InFlight} (h : ∀ r ∈ opcodeRows, rowMatches r q.word = false) :
    outcomeOf q = .fail .illegalCommand := by
  obtain ⟨e, he⟩ := decode_of_no_row h
  simp [outcomeOf, he]

/-- A word that matches no row completes with Fail(IllegalCommand), code 19 (R59, R66 check 1). -/
theorem unitStep_of_no_row {s : State} {q : InFlight} (hq : s.inflight = some q)
    (h : ∀ r ∈ opcodeRows, rowMatches r q.word = false) : ∃ t, unitStep s = .next t ∧ FailCompletion s t 19 := by
  refine ⟨complete s (.fail .illegalCommand), ?_, failCompletion_complete s .illegalCommand⟩
  rw [unitStep_some hq, outcomeOf_of_no_row h]

theorem afterWrite_cmd_idle {s : State} (h : s.busy = false) (w : Word) : afterWrite s 0x000 w = accept s w :=
  afterWrite_idle rfl h w

/-- Settles O18: the write is `accept`, and the accepted word is the one the unit then completes. -/
theorem cmdWriteIsAccepted : Obligations.CmdWriteIsAccepted := by
  intro s w hidle
  rw [afterWrite_cmd_idle hidle]
  exact ⟨portResponse_aligned rfl, accept_busy s w, rfl, unitStep_of_no_row (accept_inflight s w)⟩

/-! ### A write while a command is in flight -/

/-- Settles O19, by whether the address is aligned. -/
theorem busyWriteIsDropped : Obligations.BusyWriteIsDropped := by
  intro s a v hbusy
  refine ⟨fun hal => ?_, fun hmis => ?_⟩
  · have ha : aligned a = true := (aligned_iff a).2 hal
    exact ⟨portResponse_aligned ha, afterWrite_busy ha hbusy v⟩
  · have ha : aligned a = false := (aligned_eq_false_iff a).2 hmis
    exact ⟨portResponse_misaligned ha, afterWrite_misaligned ha s v⟩

end Sys2Proof.Machine
end

