-- ==== Sys2Proof/Proofs/CharsetLut.lean ====
section
/-! The charset's two lookups are inverse to each other: the search for an entry is `List.idxOf?`, and the 32 entries are
distinct (41_charset_lut.md R74, R75). -/

namespace Sys2Proof.Machine

/-! ### The search for an entry -/

theorem findEntry_eq_idxOf? (c : Byte) (pos : Nat) (l : List Byte) :
    findEntry c pos l = (l.idxOf? c).map (pos + ·) := by
  induction l generalizing pos with
  | nil => rfl
  | cons e rest ih =>
    rw [findEntry, List.idxOf?_cons]
    by_cases h : e = c
    · simp [h]
    · simp [h, ih, Function.comp_def, Nat.add_assoc, Nat.add_comm 1]

theorem charToSymbol_eq_idxOf? (c : Byte) : charToSymbol c = (charset.idxOf? c).map (BitVec.ofNat 5) := by
  simp [charToSymbol, findEntry_eq_idxOf?]

/-- In a list of distinct entries the first position of an entry is its only one. -/
theorem idxOf?_eq_some_iff_getElem? {l : List Byte} (hl : l.Nodup) {c : Byte} {i : Nat} :
    l.idxOf? c = some i ↔ l[i]? = some c := by
  rw [List.idxOf?_eq_some_iff, List.getElem?_eq_some_iff]
  refine exists_congr fun hi => and_iff_left_of_imp fun hc j hj hjc => ?_
  have hji : j = i := hl.getElem_inj_iff.1 (hjc.trans hc.symm)
  omega

/-! ### The charset (R33) -/

theorem charset_nodup : charset.Nodup := by decide

theorem charset_not_uppercase : ∀ e ∈ charset, ¬ (0x41 ≤ e.toNat ∧ e.toNat ≤ 0x5A) := by decide

theorem charset_getElem? (s : Symbol) : charset[s.toNat]? = some (symbolToChar s) := by
  have hs : s.toNat < charset.length := s.isLt
  rw [symbolToChar, List.getD_eq_getElem charset 0 hs, List.getElem?_eq_getElem hs]

theorem symbolToChar_mem (s : Symbol) : symbolToChar s ∈ charset := List.mem_of_getElem? (charset_getElem? s)

/-! ### The two lookups -/

theorem idxOf?_symbolToChar (s : Symbol) : charset.idxOf? (symbolToChar s) = some s.toNat :=
  (idxOf?_eq_some_iff_getElem? charset_nodup).2 (charset_getElem? s)

@[simp] theorem charToSymbol_symbolToChar (s : Symbol) : charToSymbol (symbolToChar s) = some s := by
  simp [charToSymbol_eq_idxOf?, idxOf?_symbolToChar]

theorem symbolToChar_of_charToSymbol {c : Byte} {s : Symbol} (h : charToSymbol c = some s) : symbolToChar s = c := by
  rw [charToSymbol_eq_idxOf?] at h
  obtain ⟨i, hidx, rfl⟩ := Option.map_eq_some_iff.1 h
  have hentry : charset[i]? = some c := (idxOf?_eq_some_iff_getElem? charset_nodup).1 hidx
  have hi : i < 32 := (List.getElem?_eq_some_iff.1 hentry).1
  have hsame : charset[i]? = some (symbolToChar (BitVec.ofNat 5 i)) := by
    simpa [Nat.mod_eq_of_lt hi] using charset_getElem? (BitVec.ofNat 5 i)
  exact Option.some.inj (hsame.symm.trans hentry)

theorem charToSymbol_eq_some_iff {c : Byte} {s : Symbol} : charToSymbol c = some s ↔ symbolToChar s = c :=
  ⟨symbolToChar_of_charToSymbol, fun h => h ▸ charToSymbol_symbolToChar s⟩

theorem charToSymbol_eq_none_iff {c : Byte} : charToSymbol c = none ↔ ∀ s : Symbol, symbolToChar s ≠ c := by
  simp [Option.eq_none_iff_forall_ne_some, charToSymbol_eq_some_iff]

/-- The lookup is case-sensitive (R75). -/
theorem charToSymbol_uppercase {c : Byte} (h : 0x41 ≤ c.toNat ∧ c.toNat ≤ 0x5A) : charToSymbol c = none :=
  charToSymbol_eq_none_iff.2 fun s hs => charset_not_uppercase c (hs ▸ symbolToChar_mem s) h

/-- Settles O35: the string by evaluation, the lookups by their inverse laws. -/
theorem charsetIsABijection : Obligations.CharsetIsABijection :=
  ⟨by decide, charset_getElem?, charToSymbol_symbolToChar, fun _ _ => charToSymbol_eq_some_iff,
    fun _ => charToSymbol_eq_none_iff, fun _ hlow hhigh => charToSymbol_uppercase ⟨hlow, hhigh⟩⟩

end Sys2Proof.Machine
end

