-- ==== Sys2Proof/Proofs/PolymodChecksum.lean ====
section
/-! The checksum engine is linear over XOR (42_polymod_checksum.md R80 to R85): a step of `x ^^^ y` on `v ^^^ w` is the XOR
of the two steps. So symbols fed at the end XOR their base-32 word into the polymod of as many zeros, and the six groups
of a checksum word turn the polymod it was made from into the variant's constant. -/

namespace Sys2Proof.Machine

/-! ### Bounds and shifts of a word -/

theorem toNat_xor_lt {x y : Word} {n : Nat} (hx : x.toNat < 2 ^ n) (hy : y.toNat < 2 ^ n) : (x ^^^ y).toNat < 2 ^ n := by
  rw [BitVec.toNat_xor]
  exact Nat.xor_lt_two_pow hx hy

theorem toNat_shiftRight (x : Word) (k : Nat) : (x >>> k).toNat = x.toNat / 2 ^ k := by
  rw [BitVec.toNat_ushiftRight, Nat.shiftRight_eq_div_pow]

theorem shiftRight_eq_zero {x : Word} {k : Nat} (h : x.toNat < 2 ^ k) : x >>> k = 0 :=
  BitVec.eq_of_toNat_eq ((toNat_shiftRight x k).trans (Nat.div_eq_of_lt h))

/-- The low 25 bits of the register. -/
theorem toNat_low_bits (x : Word) : (x &&& 0x01ffffff).toNat = x.toNat % 2 ^ 25 :=
  Nat.and_two_pow_sub_one_eq_mod x.toNat 25

theorem toNat_symbol_lt (v : Symbol) : (v.setWidth 32 : Word).toNat < 2 ^ 5 := by
  rw [BitVec.toNat_setWidth_of_le (by decide)]
  exact v.isLt

/-! ### The conditional XORs of the generators -/

/-- One conditional XOR of R80, with the generator `g.1` and the bit `g.2`. -/
def mixGenerator (top acc : Word) (g : Word × Nat) : Word := if top.getLsbD g.2 then acc ^^^ g.1 else acc

theorem generatorMix_eq_foldl (top c : Word) :
    generatorMix top c = generators.zipIdx.foldl (mixGenerator top) c := rfl

theorem mixGenerator_eq_xor (top acc : Word) (g : Word × Nat) :
    mixGenerator top acc g = acc ^^^ if top.getLsbD g.2 then g.1 else 0 := by
  unfold mixGenerator
  split
  · rfl
  · exact BitVec.xor_zero.symm

theorem ite_xor_ite (a b : Bool) (g : Word) :
    ((if a then g else 0) ^^^ if b then g else 0) = if a ^^ b then g else 0 := by
  cases a <;> cases b <;> simp

theorem mixGenerator_xor (t u c d : Word) (g : Word × Nat) :
    mixGenerator (t ^^^ u) (c ^^^ d) g = mixGenerator t c g ^^^ mixGenerator u d g := by
  simp only [mixGenerator_eq_xor, BitVec.getLsbD_xor, ← ite_xor_ite]
  ac_rfl

theorem generatorMix_xor (t u c d : Word) :
    generatorMix (t ^^^ u) (c ^^^ d) = generatorMix t c ^^^ generatorMix u d :=
  List.foldl_hom₂ _ _ _ _ _ _ _ fun c d g => (mixGenerator_xor t u c d g).symm

/-- Where no bit of the top is 1, no generator fires. -/
theorem generatorMix_zero (c : Word) : generatorMix 0 c = c := rfl

theorem generators_lt : ∀ g ∈ generators.zipIdx, g.1.toNat < 2 ^ 30 := by decide

theorem mixGenerator_lt {top acc : Word} {g : Word × Nat} (hacc : acc.toNat < 2 ^ 30) (hg : g.1.toNat < 2 ^ 30) :
    (mixGenerator top acc g).toNat < 2 ^ 30 := by
  unfold mixGenerator
  split
  · exact toNat_xor_lt hacc hg
  · exact hacc

theorem generatorMix_lt {c : Word} (top : Word) (hc : c.toNat < 2 ^ 30) : (generatorMix top c).toNat < 2 ^ 30 := by
  rw [generatorMix_eq_foldl]
  exact List.foldlRecOn (motive := fun acc : Word => acc.toNat < 2 ^ 30) _ _ hc
    fun _ hacc g hg => mixGenerator_lt hacc (generators_lt g hg)

/-! ### The step -/

theorem shifted_low_bits_xor (x y : Word) :
    ((x ^^^ y) &&& 0x01ffffff) <<< 5 = (x &&& 0x01ffffff) <<< 5 ^^^ (y &&& 0x01ffffff) <<< 5 := by
  have hand : (x ^^^ y) &&& 0x01ffffff = (x &&& 0x01ffffff) ^^^ (y &&& 0x01ffffff) :=
    BitVec.eq_of_toNat_eq Nat.and_xor_distrib_right
  rw [hand, BitVec.shiftLeft_xor_distrib]

/-- The step is linear in the register and the value together. -/
theorem polymodStep_xor (x y : Word) (v w : Symbol) :
    polymodStep (x ^^^ y) (v ^^^ w) = polymodStep x v ^^^ polymodStep y w := by
  simp only [polymodStep, ← generatorMix_xor, BitVec.ushiftRight_xor_distrib, shifted_low_bits_xor, BitVec.setWidth_xor]
  congr 1
  ac_rfl

/-- A symbol shifted into a word at its low end. -/
def shiftIn (x : Word) (v : Symbol) : Word := x <<< 5 ||| v.setWidth 32

theorem shiftLeft_xor_symbol (x : Word) (v : Symbol) : x <<< 5 ^^^ v.setWidth 32 = shiftIn x v := by
  ext i hi
  by_cases h : i < 5
  · simp [shiftIn, h]
  · have hv : v.getLsbD i = false := BitVec.getLsbD_of_ge v i (by omega)
    simp [shiftIn, hv]

/-- Below 2^25 a step shifts the value in: the low 25 bits are the whole register, and no generator fires (R83). -/
theorem polymodStep_of_lt {x : Word} (hx : x.toNat < 2 ^ 25) (v : Symbol) : polymodStep x v = shiftIn x v := by
  have hlow : x &&& 0x01ffffff = x := by
    apply BitVec.eq_of_toNat_eq
    rw [toNat_low_bits, Nat.mod_eq_of_lt hx]
  rw [polymodStep, shiftRight_eq_zero hx, hlow, generatorMix_zero, shiftLeft_xor_symbol]

theorem toNat_shiftIn {x : Word} (hx : x.toNat < 2 ^ 27) (v : Symbol) :
    (shiftIn x v).toNat = x.toNat * 2 ^ 5 + v.toNat := by
  have hshift : x.toNat <<< 5 < 2 ^ 32 := by rw [Nat.shiftLeft_eq]; omega
  rw [shiftIn, BitVec.toNat_or, BitVec.toNat_shiftLeft, Nat.mod_eq_of_lt hshift,
    BitVec.toNat_setWidth_of_le (by decide), ← Nat.shiftLeft_add_eq_or_of_lt v.isLt, Nat.shiftLeft_eq]

/-- R80 as the spec writes it. -/
theorem polymodStep_eq_xors (chk : Word) (v : Symbol) :
    polymodStep chk v =
      ((chk &&& 0x01ffffff) <<< 5) ^^^ v.setWidth 32 ^^^
        (if chk.getLsbD 25 then 0x3b6a57b2 else 0) ^^^ (if chk.getLsbD 26 then 0x26508e6d else 0) ^^^
        (if chk.getLsbD 27 then 0x1ea119fa else 0) ^^^ (if chk.getLsbD 28 then 0x3d4233dd else 0) ^^^
        (if chk.getLsbD 29 then 0x2a1462b3 else 0) := by
  simp only [polymodStep, generatorMix_eq_foldl, generators, List.zipIdx, List.foldl, mixGenerator_eq_xor,
    BitVec.getLsbD_ushiftRight]

theorem polymodStep_lt (chk : Word) (v : Symbol) : (polymodStep chk v).toNat < 2 ^ 30 := by
  refine generatorMix_lt _ (toNat_xor_lt ?_ ((toNat_symbol_lt v).trans (by decide)))
  rw [BitVec.toNat_shiftLeft, toNat_low_bits, Nat.shiftLeft_eq]
  omega

theorem toNat_top_le {chk : Word} (h : chk.toNat < 2 ^ 30) : (chk >>> 25).toNat ≤ 31 := by
  rw [toNat_shiftRight]
  omega

/-! ### The fold -/

theorem polymod_append (p cs : List Symbol) : polymod (p ++ cs) = cs.foldl polymodStep (polymod p) :=
  List.foldl_append

theorem polymod_lt (values : List Symbol) : (polymod values).toNat < 2 ^ 30 :=
  List.foldlRecOn (motive := fun chk : Word => chk.toNat < 2 ^ 30) _ _ (by decide) fun chk _ v _ => polymodStep_lt chk v

/-- Settles O36: the step by its five conditional XORs, the fold by its last value, the samples by evaluation. -/
theorem polymodFoldsTheStep : Obligations.PolymodFoldsTheStep :=
  ⟨polymodStep_eq_xors, rfl, fun values v => polymod_append values [v], by decide, by decide⟩

/-- Settles O37: the bound on a step needs none on the register, so every polymod has it. -/
theorem polymodStaysBelowTwoPow30 : Obligations.PolymodStaysBelowTwoPow30 :=
  ⟨fun chk v h => ⟨polymodStep_lt chk v, toNat_top_le h⟩, polymod_lt⟩

/-- Linearity along a list: the symbols fed to `x ^^^ y` may all be given to `y`, and as many zeros to `x`. -/
theorem foldl_polymodStep_xor (cs : List Symbol) (x y : Word) :
    cs.foldl polymodStep (x ^^^ y) =
      (List.replicate cs.length 0).foldl polymodStep x ^^^ cs.foldl polymodStep y := by
  induction cs generalizing x y with
  | nil => rfl
  | cons c cs ih =>
    have hstep : polymodStep (x ^^^ y) c = polymodStep x 0 ^^^ polymodStep y c := by
      simpa using polymodStep_xor x y 0 c
    rw [List.foldl_cons, hstep, ih]
    rfl

/-! ### Symbols as the base-32 digits of a word -/

/-- The word whose base-32 digits are the symbols, most significant first (R83, R84). -/
def packSymbols (cs : List Symbol) : Word := cs.foldl shiftIn 0

theorem packSymbols_concat (cs : List Symbol) (c : Symbol) :
    packSymbols (cs ++ [c]) = shiftIn (packSymbols cs) c :=
  List.foldl_append

theorem packSymbols_lt {cs : List Symbol} (h : cs.length ≤ 6) : (packSymbols cs).toNat < 2 ^ (5 * cs.length) := by
  induction cs using List.reverseRecOn with
  | nil => decide
  | append_singleton cs c ih =>
    rw [List.length_append, List.length_singleton] at h ⊢
    have hcs := ih (by omega)
    have hle : 2 ^ (5 * cs.length) ≤ 2 ^ 25 := Nat.pow_le_pow_right (by decide) (by omega)
    rw [packSymbols_concat, toNat_shiftIn (by omega), Nat.mul_add, Nat.pow_add]
    omega

/-- Up to six symbols fed to 0 are shifted in, for no generator fires before the last of them (R83). -/
theorem foldl_polymodStep_zero {cs : List Symbol} (h : cs.length ≤ 6) : cs.foldl polymodStep 0 = packSymbols cs := by
  induction cs using List.reverseRecOn with
  | nil => rfl
  | append_singleton cs c ih =>
    rw [List.length_append, List.length_singleton] at h
    have hlt : (packSymbols cs).toNat < 2 ^ 25 :=
      (packSymbols_lt (by omega)).trans_le (Nat.pow_le_pow_right (by decide) (by omega))
    rw [List.foldl_append, ih (by omega), packSymbols_concat]
    exact polymodStep_of_lt hlt c

/-- Up to six symbols at the end XOR their word into the polymod of as many zeros there (R83). -/
theorem polymod_append_eq_xor (p : List Symbol) {cs : List Symbol} (h : cs.length ≤ 6) :
    polymod (p ++ cs) = polymod (p ++ List.replicate cs.length 0) ^^^ packSymbols cs := by
  calc polymod (p ++ cs)
    _ = cs.foldl polymodStep (polymod p ^^^ 0) := by simp [polymod_append]
    _ = (List.replicate cs.length 0).foldl polymodStep (polymod p) ^^^ cs.foldl polymodStep 0 :=
      foldl_polymodStep_xor cs _ _
    _ = polymod (p ++ List.replicate cs.length 0) ^^^ packSymbols cs := by
      rw [polymod_append, foldl_polymodStep_zero h]

theorem packSymbols_six (c₀ c₁ c₂ c₃ c₄ c₅ : Symbol) :
    packSymbols [c₀, c₁, c₂, c₃, c₄, c₅] =
      (c₀.setWidth 32 <<< 25) ||| (c₁.setWidth 32 <<< 20) ||| (c₂.setWidth 32 <<< 15) |||
        (c₃.setWidth 32 <<< 10) ||| (c₄.setWidth 32 <<< 5) ||| c₅.setWidth 32 := by
  simp [packSymbols, shiftIn, BitVec.shiftLeft_or_distrib, ← BitVec.shiftLeft_add]

/-- `F^k(s) = s << 5k` (R83). -/
theorem iterate_polymodStep_zero (s : Symbol) (k : Nat) (hk : k ≤ 5) :
    (fun x => polymodStep x 0)^[k] (s.setWidth 32) = s.setWidth 32 <<< (5 * k) := by
  induction k with
  | zero => simp
  | succ k ih =>
    have hlt : ((s.setWidth 32 : Word) <<< (5 * k)).toNat < 2 ^ 25 := by
      have hle : 2 ^ (5 * k) ≤ 2 ^ 20 := Nat.pow_le_pow_right (by decide) (by omega)
      rw [BitVec.toNat_shiftLeft, Nat.shiftLeft_eq]
      calc (s.setWidth 32 : Word).toNat * 2 ^ (5 * k) % 2 ^ 32
        _ ≤ (s.setWidth 32 : Word).toNat * 2 ^ (5 * k) := Nat.mod_le _ _
        _ < 2 ^ 5 * 2 ^ 20 := Nat.mul_lt_mul_of_lt_of_le (toNat_symbol_lt s) hle (by positivity)
    rw [Function.iterate_succ_apply', ih (by omega), polymodStep_of_lt hlt]
    simp [shiftIn, ← BitVec.shiftLeft_add, Nat.mul_add]

/-- Settles O38: the first two parts and the last follow from linearity, the third from the steps that fire no generator.
The bounds of the first two parts are not needed, for the step drops bits 30 and 31. -/
theorem polymodIsLinear : Obligations.PolymodIsLinear := by
  refine ⟨fun x y _ _ => polymodStep_xor x y 0 0, fun x v _ => ?_, iterate_polymodStep_zero, ?_⟩
  · have hzero : polymodStep 0 v = v.setWidth 32 := by simp [polymodStep_of_lt, shiftIn]
    rw [← hzero, ← polymodStep_xor]
    simp
  · intro p c₀ c₁ c₂ c₃ c₄ c₅
    rw [← packSymbols_six]
    exact polymod_append_eq_xor p (Nat.le_refl 6)

/-! ### The checksum word and its groups -/

theorem variantConstant_lt (v : Variant) : (variantConstant v).toNat < 2 ^ 30 := by
  cases v <;> decide

theorem createWord_lt (hrp : List Byte) (data : List Symbol) (v : Variant) : (createWord hrp data v).toNat < 2 ^ 30 :=
  toNat_xor_lt (polymod_lt _) (variantConstant_lt v)

/-- The base-32 digit of `m` at the bit `k`, as R84 takes it. -/
def wordDigit (m : Word) (k : Nat) : Symbol := ((m >>> k) &&& 31).setWidth 5

theorem toNat_wordDigit (m : Word) (k : Nat) : (wordDigit m k).toNat = m.toNat / 2 ^ k % 2 ^ 5 := by
  have hand : ((m >>> k) &&& 31).toNat = (m >>> k).toNat % 2 ^ 5 := Nat.and_two_pow_sub_one_eq_mod _ 5
  rw [wordDigit, BitVec.toNat_setWidth, hand, Nat.mod_mod, toNat_shiftRight]

theorem checksumGroups_eq (m : Word) :
    checksumGroups m =
      [wordDigit m 25, wordDigit m 20, wordDigit m 15, wordDigit m 10, wordDigit m 5, wordDigit m 0] := rfl

/-- A word of 30 bits is its six digits. -/
theorem toNat_eq_wordDigits {m : Word} (h : m.toNat < 2 ^ 30) :
    m.toNat = (wordDigit m 25).toNat * 2 ^ 25 + (wordDigit m 20).toNat * 2 ^ 20 + (wordDigit m 15).toNat * 2 ^ 15 +
      (wordDigit m 10).toNat * 2 ^ 10 + (wordDigit m 5).toNat * 2 ^ 5 + (wordDigit m 0).toNat := by
  simp only [toNat_wordDigit]
  omega

/-- Settles O39: the groups are the digits of a word below 2^30. -/
theorem checksumGroupsCarryTheWord : Obligations.ChecksumGroupsCarryTheWord := fun hrp data v =>
  ⟨rfl, createWord_lt hrp data v, _, _, _, _, _, _, checksumGroups_eq _, toNat_eq_wordDigits (createWord_lt hrp data v)⟩

theorem shiftIn_wordDigit (m : Word) (k : Nat) : shiftIn (m >>> (k + 5)) (wordDigit m k) = m >>> k := by
  have hlt : (m >>> k >>> 5).toNat < 2 ^ 27 := BitVec.toNat_ushiftRight_lt (m >>> k) 5 (by decide)
  apply BitVec.eq_of_toNat_eq
  rw [BitVec.shiftRight_add, toNat_shiftIn hlt, toNat_wordDigit, toNat_shiftRight, toNat_shiftRight]
  exact Nat.div_add_mod' _ _

/-- The groups carry all of the word (R84). -/
theorem packSymbols_checksumGroups {m : Word} (h : m.toNat < 2 ^ 30) : packSymbols (checksumGroups m) = m := by
  simp only [checksumGroups_eq, packSymbols, List.foldl]
  rw [← shiftRight_eq_zero (k := 25 + 5) h, shiftIn_wordDigit m 25, shiftIn_wordDigit m 20, shiftIn_wordDigit m 15,
    shiftIn_wordDigit m 10, shiftIn_wordDigit m 5, shiftIn_wordDigit m 0]
  simp

theorem verifyChecksum_iff (hrp : List Byte) (data : List Symbol) (v : Variant) :
    verifyChecksum hrp data v = true ↔ polymod (hrpExpand hrp ++ data) = variantConstant v :=
  beq_iff_eq

/-- The six groups XOR the checksum word into the polymod of six zeros, which it was made from, and leave the variant's
constant (R85). -/
theorem verifyChecksum_createChecksum (hrp : List Byte) (data : List Symbol) (v : Variant) :
    verifyChecksum hrp (data ++ (createChecksum hrp data v).2) v = true := by
  rw [verifyChecksum_iff, ← List.append_assoc]
  calc polymod (hrpExpand hrp ++ data ++ checksumGroups (createWord hrp data v))
    _ = polymod (hrpExpand hrp ++ data ++ List.replicate csumLen 0) ^^^
        packSymbols (checksumGroups (createWord hrp data v)) := polymod_append_eq_xor _ (Nat.le_refl 6)
    _ = polymod (hrpExpand hrp ++ data ++ List.replicate csumLen 0) ^^^ createWord hrp data v := by
      rw [packSymbols_checksumGroups (createWord_lt hrp data v)]
    _ = variantConstant v := by
      rw [createWord, ← BitVec.xor_assoc, BitVec.xor_self, BitVec.zero_xor]

theorem variantConstant_ne : variantConstant .bech32 ≠ variantConstant .bech32m := by decide

/-- Settles O40: a created checksum verifies by the linearity of the fold, and the constants of the variants differ. -/
theorem createdChecksumVerifies : Obligations.CreatedChecksumVerifies := by
  refine ⟨rfl, rfl, verifyChecksum_iff, verifyChecksum_createChecksum, fun hrp data ⟨hbech32, hbech32m⟩ => ?_⟩
  rw [verifyChecksum_iff] at hbech32 hbech32m
  exact variantConstant_ne (hbech32.symm.trans hbech32m)

end Sys2Proof.Machine
end

