-- ==== Sys2Proof/Proofs/CommandWord.lean ====
section
/-! The command word and its fields (30_encoding.md R55 to R60): the fields of a packed word are the ones packed, so decoding
inverts encoding, and a row of R60 that matches a word fixes every field the row's mask covers. -/

namespace Sys2Proof

/-! ### The fields of a packed word -/

section
variable (opc : BitVec 5) (var : BitVec 2) (pad : Bool) (imm : Byte)

@[simp] theorem opcField_packWord : opcField (packWord opc var pad imm) = opc :=
  BitVec.extractLsb'_append_eq_right

@[simp] theorem varField_packWord : varField (packWord opc var pad imm) = var := by
  unfold varField packWord
  iterate 2 rw [BitVec.extractLsb'_append_eq_of_le (by decide)]
  exact BitVec.extractLsb'_append_eq_right

@[simp] theorem padField_packWord : padField (packWord opc var pad imm) = pad := by
  simp only [padField, packWord, BitVec.getLsbD_append]
  simp

@[simp] theorem immField_packWord : immField (packWord opc var pad imm) = imm := by
  unfold immField packWord
  iterate 5 rw [BitVec.extractLsb'_append_eq_of_le (by decide)]
  exact BitVec.extractLsb'_append_eq_right

theorem reservedBits_packWord :
    (packWord opc var pad imm).extractLsb' 24 8 = 0 ∧ (packWord opc var pad imm).extractLsb' 11 5 = 0 ∧
      (packWord opc var pad imm).extractLsb' 5 3 = 0 := by
  unfold packWord
  refine ⟨?_, ?_, ?_⟩
  · iterate 5 rw [BitVec.extractLsb'_append_eq_of_le (by decide)]
    exact BitVec.extractLsb'_append_eq_left
  · iterate 4 rw [BitVec.extractLsb'_append_eq_of_le (by decide)]
    exact BitVec.extractLsb'_append_eq_right
  · rw [BitVec.extractLsb'_append_eq_of_le (by decide)]
    exact BitVec.extractLsb'_append_eq_right

@[simp] theorem resField_packWord : resField (packWord opc var pad imm) = 0 := by
  obtain ⟨htop, hmid, hlow⟩ := reservedBits_packWord opc var pad imm
  rw [resField, htop, hmid, hlow]
  rfl

theorem decode_packWord : decode (packWord opc var pad imm) = decodeOpcode opc.toNat (packWord opc var pad imm) := by
  rw [decode, if_pos (resField_packWord opc var pad imm), opcField_packWord]

end

/-! ### Decoding inverts encoding, and the other way round -/

theorem decode_encode (i : Instr) : decode (encode i) = .ok i := by
  cases i <;>
    simp [encode, decode_packWord, decodeOpcode, plainCommand, varCommand, padCommand, immCommand]

/-- Settles O1: the fields of a packed word are the ones packed, one opcode at a time. -/
theorem decodeInvertsEncode : Obligations.DecodeInvertsEncode := decode_encode

/-- Settles O2: the word is its fields, and the command of a decoded word has them. -/
theorem encodeInvertsDecode : Obligations.EncodeInvertsDecode := fun _ _ => encode_of_decode

/-- Settles O4: each word by evaluation. -/
theorem specWordsDecode : Obligations.SpecWordsDecode := by
  unfold Obligations.SpecWordsDecode
  decide

/-! ### A row that matches a word -/

/-- A matching row fixes every field its mask covers (R60). -/
theorem extractLsb'_of_rowMatches {m v w : Word} (h : rowMatches ⟨m, v⟩ w = true) {k n : Nat}
    (hmask : m.extractLsb' k n = BitVec.allOnes n) : w.extractLsb' k n = v.extractLsb' k n := by
  have hvalue : w &&& m = v := by simpa [rowMatches] using h
  rw [← hvalue, BitVec.extractLsb'_and, hmask, BitVec.and_allOnes]

theorem mask_covers_opcField : ∀ r ∈ opcodeRows, r.mask.extractLsb' 0 5 = BitVec.allOnes 5 := by decide

theorem opcField_of_rowMatches {r : OpcodeRow} {w : Word} (hr : r ∈ opcodeRows) (h : rowMatches r w = true) :
    opcField w = opcField r.value :=
  extractLsb'_of_rowMatches h (mask_covers_opcField r hr)

theorem resField_of_rowMatches {r : OpcodeRow} {w : Word} (hr : r ∈ opcodeRows) (h : rowMatches r w = true) :
    resField w = 0 := by
  have hmask : ∀ r ∈ opcodeRows, r.mask.extractLsb' 24 8 = BitVec.allOnes 8 ∧
      r.mask.extractLsb' 11 5 = BitVec.allOnes 5 ∧ r.mask.extractLsb' 5 3 = BitVec.allOnes 3 := by decide
  have hvalue : ∀ r ∈ opcodeRows, resField r.value = 0 := by decide
  obtain ⟨htop, hmid, hlow⟩ := hmask r hr
  rw [← hvalue r hr, resField, extractLsb'_of_rowMatches h htop, extractLsb'_of_rowMatches h hmid,
    extractLsb'_of_rowMatches h hlow, resField]

/-- No two rows have the same opcode (R58). -/
theorem row_eq_of_opcField_eq :
    ∀ r₁ ∈ opcodeRows, ∀ r₂ ∈ opcodeRows, opcField r₁.value = opcField r₂.value → r₁ = r₂ := by decide

theorem row_opcField_lt : ∀ r ∈ opcodeRows, (opcField r.value).toNat < 0x0D := by decide

theorem toNat_opcField (w : Word) : (opcField w).toNat = w.toNat % 32 := by
  simp [opcField, BitVec.extractLsb'_toNat]

/-- An opcode of 0x0D or above matches no row (R59). -/
theorem rowMatches_reservedOpcode {w : Word} (hw : 0x0D ≤ w.toNat % 32) {r : OpcodeRow} (hr : r ∈ opcodeRows) :
    rowMatches r w = false := by
  rw [← Bool.not_eq_true]
  intro h
  have hlt := row_opcField_lt r hr
  rw [← opcField_of_rowMatches hr h, toNat_opcField] at hlt
  omega

/-! ### The words a row matches are decoded

One lemma for each set of fields a row leaves free. -/

theorem padField_of_rowMatches {m v w : Word} (h : rowMatches ⟨m, v⟩ w = true)
    (hmask : m.extractLsb' 10 1 = BitVec.allOnes 1) : padField w = padField v :=
  BitVec.ofBool_eq_iff_eq.1 (by rw [ofBool_padField, ofBool_padField, extractLsb'_of_rowMatches h hmask])

section
variable {v w : Word}

theorem plainCommand_of_rowMatches (h : rowMatches ⟨0xFFFFFFFF, v⟩ w = true)
    (hv : varField v = 0 ∧ padField v = false ∧ immField v = 0) (c : Instr) : plainCommand c w = .ok c := by
  obtain ⟨hvar, hpad, himm⟩ := hv
  exact if_pos ⟨(extractLsb'_of_rowMatches h (by decide)).trans hvar, (padField_of_rowMatches h (by decide)).trans hpad,
    (extractLsb'_of_rowMatches h (by decide)).trans himm⟩

theorem varCommand_of_rowMatches (h : rowMatches ⟨0xFFFFFCFF, v⟩ w = true)
    (hv : padField v = false ∧ immField v = 0) (c : BitVec 2 → Instr) : varCommand c w = .ok (c (varField w)) := by
  obtain ⟨hpad, himm⟩ := hv
  exact if_pos ⟨(padField_of_rowMatches h (by decide)).trans hpad, (extractLsb'_of_rowMatches h (by decide)).trans himm⟩

theorem padCommand_of_rowMatches (h : rowMatches ⟨0xFFFFFBFF, v⟩ w = true)
    (hv : varField v = 0 ∧ immField v = 0) (c : Bool → Instr) : padCommand c w = .ok (c (padField w)) := by
  obtain ⟨hvar, himm⟩ := hv
  exact if_pos ⟨(extractLsb'_of_rowMatches h (by decide)).trans hvar, (extractLsb'_of_rowMatches h (by decide)).trans himm⟩

theorem immCommand_of_rowMatches (h : rowMatches ⟨0xFF00FFFF, v⟩ w = true)
    (hv : varField v = 0 ∧ padField v = false) (c : Byte → Instr) : immCommand c w = .ok (c (immField w)) := by
  obtain ⟨hvar, hpad⟩ := hv
  exact if_pos ⟨(extractLsb'_of_rowMatches h (by decide)).trans hvar, (padField_of_rowMatches h (by decide)).trans hpad⟩

end

/-- A word that matches a row selects the row's command (R60). -/
theorem decode_of_rowMatches {r : OpcodeRow} {w : Word} (hr : r ∈ opcodeRows) (h : rowMatches r w = true) :
    ∃ i, decode w = .ok i := by
  have hdec : decode w = decodeOpcode (opcField r.value).toNat w := by
    rw [decode, if_pos (resField_of_rowMatches hr h), opcField_of_rowMatches hr h]
  rw [hdec]
  simp only [opcodeRows, rowOf, List.cons_append, List.nil_append, List.mem_cons, List.not_mem_nil, or_false] at hr
  rcases hr with rfl | rfl | rfl | rfl | rfl | rfl | rfl | rfl | rfl | rfl | rfl | rfl | rfl
  · exact ⟨_, plainCommand_of_rowMatches h (by decide) .nop⟩
  · exact ⟨_, immCommand_of_rowMatches h (by decide) .lutS2c⟩
  · exact ⟨_, immCommand_of_rowMatches h (by decide) .lutC2s⟩
  · exact ⟨_, plainCommand_of_rowMatches h (by decide) .hrpExpand⟩
  · exact ⟨_, plainCommand_of_rowMatches h (by decide) .polymod⟩
  · exact ⟨_, varCommand_of_rowMatches h (by decide) .csumCreate⟩
  · exact ⟨_, varCommand_of_rowMatches h (by decide) .csumVerify⟩
  · exact ⟨_, padCommand_of_rowMatches h (by decide) .conv8to5⟩
  · exact ⟨_, padCommand_of_rowMatches h (by decide) .conv5to8⟩
  · exact ⟨_, varCommand_of_rowMatches h (by decide) .strEncode⟩
  · exact ⟨_, varCommand_of_rowMatches h (by decide) .strDecode⟩
  · exact ⟨_, immCommand_of_rowMatches h (by decide) .addrEncode⟩
  · exact ⟨_, plainCommand_of_rowMatches h (by decide) .addrDecode⟩

/-- Settles O3: the row of a decoded word matches it, every row's words decode, and the rows differ in their opcodes. -/
theorem decodeSelectsMatchingRow : Obligations.DecodeSelectsMatchingRow := by
  refine fun w => ⟨fun i => rowMatches_of_decode, ?_, fun r₁ hr₁ r₂ hr₂ h₁ h₂ => ?_⟩
  · rintro ⟨r, hr, h⟩
    exact decode_of_rowMatches hr h
  · exact row_eq_of_opcField_eq r₁ hr₁ r₂ hr₂ ((opcField_of_rowMatches hr₁ h₁).symm.trans (opcField_of_rowMatches hr₂ h₂))

end Sys2Proof
end

