-- ==== Sys2Proof/Proofs/Invariant.lean ====
section
/-! The invariant of the machine: reset establishes it and every step keeps it, one lemma for each thing a step can do to the
block (10_state.md, 40_command_common.md). -/

namespace Sys2Proof.Machine

/-! ### What lies outside the block -/

/-- The invariant does not speak of the host's part or the turns, and more draws keep it. -/
theorem Inv.outsideBlock {s : State} (h : Inv s) (hs : List Stmt) (ts : List Turn) (l : List PortRecord) {n : Nat}
    (hn : s.draws ≤ n) : Inv { s with host := hs, turns := ts, log := l, draws := n } where
  status := ⟨h.status.busyClear, h.status.doneIff, h.status.notBoth, h.status.codeZero, h.status.codeRange⟩
  buffers := ⟨h.buffers.h, h.buffers.i, h.buffers.o, h.buffers.p, h.buffers.snapshot⟩
  snapshot := h.snapshot
  outputs := ⟨h.outputs.outLe, h.outputs.out2Le, h.outputs.outCells, h.outputs.out2Cells⟩
  nbits := ⟨h.nbits.to5, h.nbits.to8⟩
  draws := ⟨h.draws.distinct, fun m hm => (h.draws.past m hm).trans_le hn⟩

theorem inv_takeTurn {s : State} (h : Inv s) : Inv (takeTurn s).2 := by
  rw [takeTurn_snd]
  exact h.outsideBlock s.host _ s.log (Nat.le_refl _)

/-! ### STATUS -/

/-- With nothing in flight and every field 0 the STATUS fields agree. -/
theorem statusLegal_cleared {s : State} (h : s.status = resetStatus) : StatusLegal s := by
  constructor <;> simp [h, resetStatus]

theorem statusLegal_complete (s : State) (r : Res Output) : StatusLegal (complete s r) := by
  cases r with
  | ok o => constructor <;> simp [okStatus]
  | fail c =>
    have hrange := failNumber_range c
    constructor <;> simp [failStatus, hrange]

theorem statusLegal_dropWrite {s : State} (h : StatusLegal s) : StatusLegal (dropWrite s) :=
  ⟨h.busyClear, h.doneIff, h.notBoth, h.codeZero, h.codeRange⟩

/-! ### The buffers' draws and the converters' registers -/

theorem drawsFresh_iff {s : State} :
    DrawsFresh s ↔
      (s.bufH.fill ≠ s.bufI.fill ∧ s.bufH.fill ≠ s.bufO.fill ∧ s.bufH.fill ≠ s.bufP.fill ∧
        s.bufI.fill ≠ s.bufO.fill ∧ s.bufI.fill ≠ s.bufP.fill ∧ s.bufO.fill ≠ s.bufP.fill) ∧
      s.bufH.fill < s.draws ∧ s.bufI.fill < s.draws ∧ s.bufO.fill < s.draws ∧ s.bufP.fill < s.draws := by
  constructor
  · rintro ⟨hd, hp⟩
    simp at hd hp
    tauto
  · rintro ⟨hd, hp⟩
    constructor <;> simp <;> tauto

/-- A free value of NBITS is in range (R37). -/
theorem freeNbits_le (n : Nat) : (BitVec.ofNat 4 (Config.freeNbits n).val).toNat ≤ 12 := by
  have := (Config.freeNbits n).isLt
  rw [BitVec.toNat_ofNat]
  omega

theorem nbitsBounded_complete (s : State) (r : Res Output) : NbitsBounded (complete s r) := by
  cases r <;> exact ⟨freeNbits_le _, freeNbits_le _⟩

/-! ### Reset -/

/-- Settles O8: nothing is in flight and no cell is specified; the rest by evaluation. -/
theorem resetSatisfiesInv : Obligations.ResetSatisfiesInv where
  status := statusLegal_cleared rfl
  buffers := ⟨rfl, rfl, rfl, rfl, fun _ h => by cases h⟩
  snapshot := fun _ h => by cases h
  outputs := ⟨by decide, by decide, rfl, rfl⟩
  nbits := ⟨by decide, by decide⟩
  draws := ⟨by decide, by decide⟩

/-- The reset input leaves the invariant whatever the state before it (R127, R128). -/
theorem inv_resetBlock (s : State) : Inv (resetBlock s) where
  status := statusLegal_cleared rfl
  buffers := ⟨rfl, rfl, rfl, rfl, fun _ h => by cases h⟩
  snapshot := fun _ h => by cases h
  outputs := ⟨Nat.zero_le _, Nat.zero_le _, rfl, rfl⟩
  nbits := ⟨freeNbits_le _, freeNbits_le _⟩
  draws := by rw [drawsFresh_iff]; simp

/-! ### Completion -/

theorem complete_bufO_wf {s : State} {r : Res Output} (h : ∀ o, r = .ok o → o.out.length ≤ capacity) :
    (complete s r).bufO.wf = true := by
  cases r with
  | ok o => exact outputBuffer_wf (h o rfl)
  | fail c => rfl

theorem complete_bufP_wf {s : State} {r : Res Output} (h : ∀ o, r = .ok o → o.out2.length ≤ capacity) :
    (complete s r).bufP.wf = true := by
  cases r with
  | ok o => exact outputBuffer_wf (h o rfl)
  | fail c => rfl

/-- A completion lists exactly the cells below the lengths it writes (R68, R69). -/
theorem outputsListed_complete {s : State} {r : Res Output}
    (h : ∀ o, r = .ok o → o.out.length ≤ capacity ∧ o.out2.length ≤ capacity) : OutputsListed (complete s r) := by
  cases r with
  | fail c => exact ⟨Nat.zero_le _, Nat.zero_le _, rfl, rfl⟩
  | ok o =>
    obtain ⟨hout, hout2⟩ := h o rfl
    have e := lenField_toNat hout
    have e2 := lenField_toNat hout2
    constructor <;> simp only [complete_ok, completeOk_outLen, completeOk_out2Len, completeOk_bufO, completeOk_bufP, e, e2]
    · exact hout
    · exact hout2
    · exact outputBuffer_indices _ _
    · exact outputBuffer_indices _ _

theorem complete_bufO_fill (s : State) (r : Res Output) : (complete s r).bufO.fill = s.draws := by
  cases r <;> simp

theorem complete_bufP_fill (s : State) (r : Res Output) : (complete s r).bufP.fill = s.draws + 1 := by
  cases r <;> simp

theorem drawsFresh_complete {s : State} (h : DrawsFresh s) (r : Res Output) : DrawsFresh (complete s r) := by
  rw [drawsFresh_iff] at h ⊢
  simp only [complete_bufH, complete_bufI, complete_bufO_fill, complete_bufP_fill, complete_draws]
  omega

theorem inv_complete {s : State} (h : Inv s) {r : Res Output}
    (hr : ∀ o, r = .ok o → o.out.length ≤ capacity ∧ o.out2.length ≤ capacity) : Inv (complete s r) where
  status := statusLegal_complete s r
  buffers :=
    { h := by simpa using h.buffers.h
      i := by simpa using h.buffers.i
      o := complete_bufO_wf fun o ho => (hr o ho).1
      p := complete_bufP_wf fun o ho => (hr o ho).2
      snapshot := by simp }
  snapshot := by simp [SnapshotCurrent]
  outputs := outputsListed_complete hr
  nbits := nbitsBounded_complete s r
  draws := drawsFresh_complete h.draws r

/-! ### The host's accesses -/

theorem inv_afterRead {s : State} (h : Inv s) (a : Addr) : Inv (afterRead s a) := by
  unfold afterRead
  split
  · exact h.outsideBlock s.host s.turns s.log (Nat.le_succ _)
  · exact h

theorem inv_dropWrite {s : State} (h : Inv s) : Inv (dropWrite s) where
  status := statusLegal_dropWrite h.status
  buffers := ⟨h.buffers.h, h.buffers.i, h.buffers.o, h.buffers.p, h.buffers.snapshot⟩
  snapshot := h.snapshot
  outputs := ⟨h.outputs.outLe, h.outputs.out2Le, h.outputs.outCells, h.outputs.out2Cells⟩
  nbits := ⟨h.nbits.to5, h.nbits.to8⟩
  draws := ⟨h.draws.distinct, h.draws.past⟩

theorem inv_accept {s : State} (h : Inv s) (w : Word) : Inv (accept s w) where
  status := statusLegal_cleared rfl
  buffers :=
    { h := h.buffers.h
      i := h.buffers.i
      o := h.buffers.o
      p := h.buffers.p
      snapshot := fun q hq => by cases hq; exact ⟨h.buffers.h, h.buffers.i⟩ }
  snapshot := fun q hq => by cases hq; exact ⟨rfl, rfl, rfl, rfl, rfl⟩
  outputs := ⟨h.outputs.outLe, h.outputs.out2Le, h.outputs.outCells, h.outputs.out2Cells⟩
  nbits := ⟨h.nbits.to5, h.nbits.to8⟩
  draws := ⟨h.draws.distinct, h.draws.past⟩

/-- With nothing in flight the inputs may change, as long as the buffers stay canonical and keep their draws. -/
theorem Inv.withInputs {s : State} (h : Inv s) (hb : s.busy = false) (hl il : Len) {mh mi : Memory}
    (hmh : mh.wf = true) (hmi : mi.wf = true) (hfh : mh.fill = s.bufH.fill) (hfi : mi.fill = s.bufI.fill) :
    Inv { s with hrpLen := hl, inLen := il, bufH := mh, bufI := mi } where
  status := ⟨h.status.busyClear, h.status.doneIff, h.status.notBoth, h.status.codeZero, h.status.codeRange⟩
  buffers := ⟨hmh, hmi, h.buffers.o, h.buffers.p, h.buffers.snapshot⟩
  snapshot := fun q hq => by rw [busy_eq_false_iff.1 hb] at hq; cases hq
  outputs := ⟨h.outputs.outLe, h.outputs.out2Le, h.outputs.outCells, h.outputs.out2Cells⟩
  nbits := ⟨h.nbits.to5, h.nbits.to8⟩
  draws := by
    have hd := h.draws
    rw [drawsFresh_iff] at hd ⊢
    simpa only [hfh, hfi] using hd

theorem writeCells4_wf {m : Memory} (hm : m.wf = true) {i : Nat} (hi : i + 4 ≤ capacity) (v : Word) :
    (writeCells4 m i v).wf = true :=
  writeCells_wf hm (by simpa using hi)

@[simp] theorem writeCells4_fill (m : Memory) (i : Nat) (v : Word) : (writeCells4 m i v).fill = m.fill :=
  writeCells_fill m i _

theorem inv_afterWrite {s : State} (h : Inv s) (a : Addr) (v : Word) : Inv (afterWrite s a v) := by
  rcases afterWrite_cases s a v with hw | ⟨_, _, hw⟩ | ⟨_, _, _, hw⟩ | ⟨hb, hw⟩ | ⟨hb, hw⟩ | ⟨i, hb, hi, hw⟩ |
    ⟨i, hb, hi, hw⟩ <;> rw [hw]
  · exact h
  · exact inv_dropWrite h
  · exact inv_accept h v
  · exact h.withInputs hb _ _ h.buffers.h h.buffers.i rfl rfl
  · exact h.withInputs hb _ _ h.buffers.h h.buffers.i rfl rfl
  · exact h.withInputs hb _ _ (writeCells4_wf h.buffers.h hi v) h.buffers.i (writeCells4_fill _ _ _) rfl
  · exact h.withInputs hb _ _ h.buffers.h (writeCells4_wf h.buffers.i hi v) rfl (writeCells4_fill _ _ _)

theorem inv_hostStep {s : State} (h : Inv s) : Inv (hostStep s) := by
  obtain ⟨u, hs, l, he, hu⟩ := hostStep_block s
  rw [he]
  suffices hinv : Inv u from hinv.outsideBlock hs u.turns l (Nat.le_refl _)
  rcases hu with rfl | ⟨a, rfl⟩ | ⟨a, v, _, _, rfl⟩
  · exact h
  · exact inv_afterRead h a
  · exact inv_afterWrite h a v

/-- Settles O9, by what the step is: a host access, an idle turn, a completion or a reset. -/
theorem stepKeepsInv : Obligations.StepKeepsInv := by
  intro s t h hst
  have hturn := inv_takeTurn h
  rcases step_cases s with ⟨_, he⟩ | ⟨_, _, he⟩ | ⟨q, _, _, he⟩ | ⟨_, he⟩ <;> rw [he] at hst <;> cases hst
  · exact inv_hostStep hturn
  · exact hturn
  · exact inv_complete hturn fun _ => outcomeOf_ok_length
  · exact inv_resetBlock _

end Sys2Proof.Machine
end

