-- ==== Sys2Proof/Proofs/Latency.lean ====
section
/-! The turns of the host, the unit and the reset input (30_encoding.md, 40_command_common.md, 70_reset_and_hazards.md):
whose turn a step is, what a command in flight outlives, and that its outcome does not depend on when it completes. -/

namespace Sys2Proof.Machine

/-! ### The step at a turn that is known -/

theorem step_hostTurn {s : State} {ts : List Turn} (ht : s.turns = .host :: ts) :
    step s = .next (hostStep { s with turns := ts }) := by
  rw [step_host (by rw [takeTurn_cons ht]), takeTurn_cons ht]

theorem step_unitTurn {s : State} {ts : List Turn} (ht : s.turns = .unit :: ts) :
    step s = unitStep { s with turns := ts } := by
  rw [step_unit (by rw [takeTurn_cons ht]), takeTurn_cons ht]

theorem step_resetTurn {s : State} {ts : List Turn} (ht : s.turns = .reset :: ts) :
    step s = .next (resetBlock { s with turns := ts }) := by
  rw [step_reset (by rw [takeTurn_cons ht]), takeTurn_cons ht]

/-- With no turn listed the unit completes the command in flight (R135). -/
theorem step_noTurn_busy {s : State} (ht : s.turns = []) (hb : s.busy = true) : step s = unitStep s := by
  rw [step_unit (by rw [takeTurn_nil_busy ht hb]), takeTurn_nil_busy ht hb]

/-- Settles O7: each of the four things a step can be answers a next state. -/
theorem everyStepAnswers : Obligations.EveryStepAnswers := by
  intro s
  rcases step_cases s with ⟨_, he⟩ | ⟨_, _, he⟩ | ⟨_, _, _, he⟩ | ⟨_, he⟩ <;> exact ⟨_, he⟩

/-! ### The word in flight -/

theorem unitStep_of_decode {s : State} {q : InFlight} {i : Instr} (hq : s.inflight = some q)
    (hd : decode q.word = .ok i) : unitStep s = exec i s := by
  simp [unitStep, hq, hd]

/-- Settles O5: no row has an opcode of 0x0D or above, and the unit's step completes a word no row matches. -/
theorem illegalWordFails : Obligations.IllegalWordFails := by
  refine ⟨fun w hw r hr => rowMatches_reservedOpcode hw hr, fun s q ts hq hno ht => ?_⟩
  rw [step_unitTurn ht]
  exact unitStep_of_no_row hq hno

theorem tableWord_toNat (w : Word) : tableWord 32 w.toNat = w := by
  rw [tableWord, Nat.mod_eq_of_lt w.isLt, BitVec.ofNat_toNat, BitVec.setWidth_eq]

theorem step_of_hostTurn {s u : State} (h : HostTurn s u) : step s = .next (hostStep u) := by
  rcases h with ⟨ht, hb, rfl⟩ | ⟨ts, ht, rfl⟩
  · rw [step_host (by rw [takeTurn_nil_idle ht hb]), takeTurn_nil_idle ht hb]
  · exact step_hostTurn ht

/-- Taking a turn changes no part of the host, and no read depends on the turns. -/
theorem HostTurn.sameHost {s u : State} (h : HostTurn s u) :
    u.host = s.host ∧ u.log = s.log ∧ ∀ a, readData u a = readData s a := by
  rcases h with ⟨_, _, rfl⟩ | ⟨ts, _, rfl⟩
  · exact ⟨rfl, rfl, fun _ => rfl⟩
  · refine ⟨rfl, rfl, fun a => ?_⟩
    unfold readData
    congr 2

/-- Settles O6: the turn decides who moves; the unit runs the decoded word, the host its first statement. -/
theorem stepRunsDecodedCommand : Obligations.StepRunsDecodedCommand := by
  refine ⟨fun s q i hq hd => ⟨fun ht => ?_, fun ts ht => ?_, fun ts ht => step_hostTurn ht,
    fun ts ht => step_resetTurn ht⟩, fun s w i hd => ?_, fun s u hu => ?_, fun s ts hn ht => ?_⟩
  · rw [step_noTurn_busy ht (busy_iff_some.2 ⟨q, hq⟩), unitStep_of_decode hq hd]
  · rw [step_unitTurn ht]
    exact unitStep_of_decode hq hd
  · rw [step_withFetchWord, tableWord_toNat]
    exact unitStep_of_decode (accept_inflight s w) hd
  · rw [step_of_hostTurn hu]
    obtain ⟨hhost, hlog, hread⟩ := hu.sameHost
    refine ⟨fun hh => ?_, fun a rest hh => ?_, fun a v rest hh => ?_, fun rest hh => ?_⟩ <;> rw [← hhost] at hh
    · rw [hostStep_nil hh]
    · rw [hostStep_rd hh, hlog, hread]
    · rw [hostStep_wr hh, hlog]
    · rw [hostStep_wait hh, hlog, hread]
  · rw [step_unitTurn ht]
    exact unitStep_none hn

/-! ### A command in flight -/

/-- A host turn leaves the command in flight as it is, for the turns after it. -/
theorem step_hostTurn_inflight {s : State} {q : InFlight} {ts : List Turn} (hq : s.inflight = some q)
    (ht : s.turns = .host :: ts) : ∃ u, step s = .next u ∧ u.inflight = some q ∧ u.turns = ts := by
  have hb : State.busy { s with turns := ts } = true := busy_iff_some.2 ⟨q, hq⟩
  obtain ⟨hin, hturns⟩ := hostStep_inflight hb
  exact ⟨_, step_hostTurn ht, hin.trans hq, hturns⟩

theorem step_unitTurn_inflight {s : State} {q : InFlight} {ts : List Turn} (hq : s.inflight = some q)
    (ht : s.turns = .unit :: ts) : step s = .next (complete { s with turns := ts } (outcomeOf q)) := by
  rw [step_unitTurn ht]
  exact unitStep_some hq

theorem core_run_one {s t : State} (h : step s = .next t) : Host.Core.run core 1 s = .next t :=
  run_of_next core h

/-- After any number of host turns the unit completes the command that was in flight before them. -/
theorem run_hostTurns_unit {k : Nat} {ts : List Turn} {q : InFlight} {s : State} (hq : s.inflight = some q)
    (ht : s.turns = List.replicate k .host ++ .unit :: ts) :
    ∃ u : State, u.turns = ts ∧ Host.Core.run core (k + 1) s = .next (complete u (outcomeOf q)) := by
  induction k generalizing s with
  | zero => exact ⟨{ s with turns := ts }, rfl, core_run_one (step_unitTurn_inflight hq ht)⟩
  | succ k ih =>
    obtain ⟨u, hstep, hqu, htu⟩ := step_hostTurn_inflight hq ht
    obtain ⟨v, hv, hrun⟩ := ih hqu htu
    exact ⟨v, hv, (run_of_next core hstep).trans hrun⟩

/-- Settles O17: the host turns keep the snapshot, and the outcome depends on it alone. -/
theorem latencyDoesNotChangeTheOutcome : Obligations.LatencyDoesNotChangeTheOutcome := by
  intro s k ts hb ht
  obtain ⟨q, hq⟩ := busy_iff_some.1 hb
  obtain ⟨u, hu, hrun⟩ := run_hostTurns_unit hq ht
  refine ⟨_, _, hrun, step_unitTurn_inflight (s := { s with turns := .unit :: ts }) hq rfl, sameOutcome_complete _ _ _,
    complete_busy _ _, ?_⟩
  rw [complete_turns, hu]

/-- Settles O16: both completions have the outcome of the same rule on the same snapshot. -/
theorem outcomeDependsOnSnapshotOnly : Obligations.OutcomeDependsOnSnapshotOnly := by
  intro i s u s' u' hsame hs hu
  obtain ⟨q, hq, rfl⟩ := exec_eq_next.1 hs
  obtain ⟨q', hq', rfl⟩ := exec_eq_next.1 hu
  obtain rfl : q = q' := Option.some.inj (by rw [← hq, ← hq', hsame])
  exact sameOutcome_complete s u _

/-- A command in flight ends at the first turn that is not the host's. -/
theorem run_ends {ts : List Turn} {s : State} {q : InFlight} (hq : s.inflight = some q) (ht : s.turns = ts) :
    ∃ (k : Nat) (t : State), k ≤ ts.length + 1 ∧ Host.Core.run core k s = .next t ∧ t.busy = false := by
  induction ts generalizing s with
  | nil =>
    refine ⟨1, _, Nat.le_refl 1, core_run_one ?_, complete_busy s (outcomeOf q)⟩
    rw [step_noTurn_busy ht (busy_iff_some.2 ⟨q, hq⟩), unitStep_some hq]
  | cons turn ts ih =>
    cases turn with
    | unit => exact ⟨1, _, by simp, core_run_one (step_unitTurn_inflight hq ht), complete_busy _ _⟩
    | reset => exact ⟨1, _, by simp, core_run_one (step_resetTurn ht), resetBlock_busy _⟩
    | host =>
      obtain ⟨u, hstep, hqu, htu⟩ := step_hostTurn_inflight hq ht
      obtain ⟨k, t, hk, hrun, hidle⟩ := ih hqu htu
      exact ⟨k + 1, t, by simpa using hk, (run_of_next core hstep).trans hrun, hidle⟩

/-- Settles O15, by induction on the turns listed. -/
theorem everyCommandEnds : Obligations.EveryCommandEnds := by
  intro s hb
  obtain ⟨q, hq⟩ := busy_iff_some.1 hb
  exact run_ends hq rfl

end Sys2Proof.Machine
end

