-- ==== Sys2Proof/Proofs/PortAccess.lean ====
section
/-! What a read returns and what a write stores, location by location (20_memory.md R42 to R47, 10_state.md R15, R17,
40_command_common.md R70). -/

namespace Sys2Proof.Machine

/-! ### The address map -/

theorem isOutput_locateRegister_iff (n : Nat) :
    isOutput (locateRegister n) = true ↔ n = 0x010 ∨ n = 0x014 ∨ n = 0x018 := by
  unfold locateRegister
  split
  case h_8 => exact iff_of_false (by simp [isOutput]) (by tauto)
  all_goals simp [isOutput]

/-- The addresses of the output locations, aligned or not (R42). -/
theorem isOutput_locate_iff (a : Addr) :
    isOutput (locate a) = true ↔ a = 0x010 ∨ a = 0x014 ∨ a = 0x018 ∨ (0x600 ≤ a.toNat ∧ a.toNat < 0x800) := by
  have heq : ∀ b : Addr, a = b ↔ a.toNat = b.toNat := fun b => BitVec.toNat_inj.symm
  simp only [heq, show (0x010 : Addr).toNat = 0x010 from rfl, show (0x014 : Addr).toNat = 0x014 from rfl,
    show (0x018 : Addr).toNat = 0x018 from rfl]
  unfold locate
  split_ifs
  · rw [isOutput_locateRegister_iff]
    omega
  all_goals simp [isOutput]; omega

/-! ### Reads -/

theorem readIsFree_idle {s : State} (hb : s.busy = false) (a : Addr) : readIsFree s a = false := by
  simp [readIsFree, hb]

theorem readData_idle {s : State} {a : Addr} (ha : aligned a = true) (hb : s.busy = false) :
    readData s a = storedWord s (locate a) :=
  readData_of_not_free ha (readIsFree_idle hb a)

/-- CMD, STATUS, the input lengths, BUF_H and BUF_I read as stored, in flight or not (R70). -/
theorem readData_of_not_output {a : Addr} (ha : aligned a = true) (h : isOutput (locate a) = false) (s : State) :
    readData s a = storedWord s (locate a) :=
  readData_of_not_free ha (readIsFree_of_not_output h s)

/-- A read of an output location while a command is in flight draws the next free value (R70). -/
theorem read_output_busy {s : State} {a : Addr} (ha : aligned a = true) (hb : s.busy = true)
    (h : isOutput (locate a) = true) :
    readData s a = Config.freeRead s.draws ∧ afterRead s a = { s with draws := s.draws + 1 } := by
  have hfree : readIsFree s a = true := by simp [readIsFree, ha, hb, h]
  simp [readData, afterRead, ha, hfree]

theorem toNat_setWidth_len (l : Len) : (l.setWidth 32 : Word).toNat = l.toNat :=
  BitVec.toNat_setWidth_of_le (by decide)

theorem toNat_setWidth_word (v : Word) : (v.setWidth 9 : Len).toNat = v.toNat % 512 :=
  BitVec.toNat_setWidth ..

section
variable {k j : Nat} (hk : k < 64) (hj : j < 4) (s : State)
include hk hj

/-- Byte `j` of word `k` of BUF_H or BUF_I reads as cell `4k + j`, in flight or not (R43, R70). -/
theorem readData_inputBuffers :
    (readData s (BitVec.ofNat 12 (0x400 + 4 * k))).extractLsb' (8 * j) 8 = bufRead s.bufH (4 * k + j) ∧
      (readData s (BitVec.ofNat 12 (0x500 + 4 * k))).extractLsb' (8 * j) 8 = bufRead s.bufI (4 * k + j) := by
  obtain ⟨hh, hi, _, _⟩ := locate_bufferWord hk
  rw [readData_of_not_output (aligned_bufferWord (by decide) (by omega)) (by rw [hh]; rfl), hh,
    readData_of_not_output (aligned_bufferWord (by decide) (by omega)) (by rw [hi]; rfl), hi]
  exact ⟨readCells4_byte _ _ hj, readCells4_byte _ _ hj⟩

/-- Byte `j` of word `k` of BUF_O or BUF_P reads as cell `4k + j` with nothing in flight (R43). -/
theorem readData_outputBuffers_idle (hb : s.busy = false) :
    (readData s (BitVec.ofNat 12 (0x600 + 4 * k))).extractLsb' (8 * j) 8 = bufRead s.bufO (4 * k + j) ∧
      (readData s (BitVec.ofNat 12 (0x700 + 4 * k))).extractLsb' (8 * j) 8 = bufRead s.bufP (4 * k + j) := by
  obtain ⟨_, _, ho, hp⟩ := locate_bufferWord hk
  rw [readData_idle (aligned_bufferWord (by decide) (by omega)) hb, ho,
    readData_idle (aligned_bufferWord (by decide) (by omega)) hb, hp]
  exact ⟨readCells4_byte _ _ hj, readCells4_byte _ _ hj⟩

end

/-- Settles O22: with nothing in flight every aligned read is the stored value of its location. -/
theorem idleReadsReturnStoredValues : Obligations.IdleReadsReturnStoredValues := by
  intro s hb
  refine ⟨readData_idle rfl hb, ?_, ?_, ?_, ?_, readData_idle rfl hb, fun k j hk hj => ?_,
    fun a => afterRead_of_not_free (readIsFree_idle hb a)⟩
  · rw [readData_idle rfl hb]
    exact toNat_setWidth_len s.hrpLen
  · rw [readData_idle rfl hb]
    exact toNat_setWidth_len s.inLen
  · rw [readData_idle rfl hb]
    exact toNat_setWidth_len s.outLen
  · rw [readData_idle rfl hb]
    exact toNat_setWidth_len s.out2Len
  · obtain ⟨hh, hi⟩ := readData_inputBuffers hk hj s
    obtain ⟨ho, hp⟩ := readData_outputBuffers_idle hk hj s hb
    exact ⟨hh, hi, ho, hp⟩

/-! ### STATUS -/

theorem readData_status (s : State) : readData s 0x004 = statusWord s := readData_of_not_output rfl rfl s

/-- The fields of the STATUS word (R17). -/
theorem statusWord_fields (s : State) :
    (statusWord s).getLsbD 0 = s.busy ∧ (statusWord s).getLsbD 1 = s.status.done ∧
      (statusWord s).getLsbD 2 = s.status.ok ∧ (statusWord s).getLsbD 3 = s.status.fail ∧
      (statusWord s).getLsbD 4 = s.status.wrIgnored ∧ (statusWord s).extractLsb' 5 3 = 0 ∧
      (statusWord s).extractLsb' 8 5 = s.status.failcode ∧ (statusWord s).extractLsb' 13 19 = 0 := by
  unfold statusWord
  refine ⟨?_, ?_, ?_, ?_, ?_, ?_, ?_, ?_⟩
  iterate 5
    · simp only [BitVec.getLsbD_append]
      simp
  · iterate 5 rw [BitVec.extractLsb'_append_eq_of_le (by decide)]
    exact BitVec.extractLsb'_append_eq_right
  · iterate 6 rw [BitVec.extractLsb'_append_eq_of_le (by decide)]
    exact BitVec.extractLsb'_append_eq_right
  · iterate 6 rw [BitVec.extractLsb'_append_eq_of_le (by decide)]
    exact BitVec.extractLsb'_append_eq_left

/-- Settles O21: a read of STATUS is the STATUS word, and a write of it stores nothing. -/
theorem statusReadsItsFields : Obligations.StatusReadsItsFields := by
  intro s v
  rw [readData_status]
  exact ⟨statusWord_fields s, fun hb => afterWrite_idle rfl hb v⟩

/-- While a command is in flight only BUSY and WR_IGNORED can be 1 (R70). -/
theorem statusWord_busy {s : State} (hb : s.busy = true) (h : StatusLegal s) :
    statusWord s = if s.status.wrIgnored then 0x00000011 else 0x00000001 := by
  obtain ⟨hdone, hok, hfail, hcode⟩ := h.busyClear hb
  rw [statusWord, hb, hdone, hok, hfail, hcode]
  cases s.status.wrIgnored <;> rfl

/-- Settles O23: an output location draws a free value, every other location reads as stored. -/
theorem busyReadsServeInputsOnly : Obligations.BusyReadsServeInputsOnly := by
  intro s hb
  refine ⟨fun a hal ho => ?_, fun a hno => ?_, readData_of_not_output rfl rfl s, ?_, ?_, fun k j hk hj => ?_,
    fun h => ?_, fun a hal hres => ?_⟩
  · exact read_output_busy ((aligned_iff a).2 hal) hb ((isOutput_locate_iff a).2 ho)
  · have ho : isOutput (locate a) = false := Bool.eq_false_iff.2 (mt (isOutput_locate_iff a).1 hno)
    exact afterRead_of_not_free (readIsFree_of_not_output ho s)
  · rw [readData_of_not_output rfl rfl s]
    exact toNat_setWidth_len s.hrpLen
  · rw [readData_of_not_output rfl rfl s]
    exact toNat_setWidth_len s.inLen
  · exact readData_inputBuffers hk hj s
  · rw [readData_status, statusWord_busy hb h]
  · exact readData_reserved ((aligned_iff a).2 hal) (locate_reserved hres) s

/-! ### Writes with nothing in flight -/

theorem storeAt_output {l : Loc} (h : isOutput l = true) (s : State) (v : Word) : storeAt s l v = s := by
  cases l with
  | outLen | out2Len | result | bufO | bufP => rfl
  | cmd | status | hrpLen | inLen | bufH | bufI | reserved => cases h

theorem afterWrite_output_idle {s : State} {a : Addr} (h : isOutput (locate a) = true) (hb : s.busy = false)
    (v : Word) : afterWrite s a v = s := by
  cases ha : aligned a with
  | false => exact afterWrite_misaligned ha s v
  | true => rw [afterWrite_idle ha hb, storeAt_output h]

/-- Settles O24: the two length registers keep bits 8:0, and a read-only location stores nothing. -/
theorem idleRegisterWrites : Obligations.IdleRegisterWrites := by
  intro s v hb
  have hhrp : afterWrite s 0x008 v = { s with hrpLen := v.setWidth 9 } := afterWrite_idle rfl hb v
  have hin : afterWrite s 0x00C v = { s with inLen := v.setWidth 9 } := afterWrite_idle rfl hb v
  refine ⟨hhrp, ?_, hin, ?_, fun a ha => ?_⟩
  · rw [hhrp, readData_of_not_output rfl rfl, ← toNat_setWidth_word]
    exact toNat_setWidth_len _
  · rw [hin, readData_of_not_output rfl rfl, ← toNat_setWidth_word]
    exact toNat_setWidth_len _
  · rcases ha with rfl | ha
    · exact afterWrite_idle rfl hb v
    · exact afterWrite_output_idle ((isOutput_locate_iff a).2 ha) hb v

/-- Cell `i + j` after a word write holds byte `j` of the word (R43). -/
theorem bufRead_writeCells4 (m : Memory) (i : Nat) (v : Word) {j : Nat} (hj : j < 4) :
    bufRead (writeCells4 m i v) (i + j) = v.extractLsb' (8 * j) 8 := by
  rw [writeCells4, bufRead_writeCells (by simpa using hj)]
  interval_cases j <;> rfl

theorem bufRead_writeCells4_other (m : Memory) {i j : Nat} (v : Word) (h : j < i ∨ i + 4 ≤ j) :
    bufRead (writeCells4 m i v) j = bufRead m j :=
  bufRead_writeCells_other h

/-- Settles O25: the write of a buffer word is a word write at its lowest cell. -/
theorem bufferWordsPackLittleEndian : Obligations.BufferWordsPackLittleEndian := by
  intro s k v hb hk
  obtain ⟨hh, hi, _, _⟩ := locate_bufferWord hk
  refine ⟨⟨writeCells4 s.bufH (4 * k) v, ?_, fun j hj => bufRead_writeCells4 _ _ _ hj,
    fun i h => bufRead_writeCells4_other _ _ h⟩, ⟨writeCells4 s.bufI (4 * k) v, ?_,
    fun j hj => bufRead_writeCells4 _ _ _ hj, fun i h => bufRead_writeCells4_other _ _ h⟩⟩
  · rw [afterWrite_idle (aligned_bufferWord (by decide) (by omega)) hb, hh]
    rfl
  · rw [afterWrite_idle (aligned_bufferWord (by decide) (by omega)) hb, hi]
    rfl

/-! ### Reset, as the port shows it -/

theorem statusWord_resetBlock (s : State) : statusWord (resetBlock s) = 0 := by
  rw [statusWord, resetBlock_busy, resetBlock_status]
  rfl

/-- Settles O14: nothing is in flight, so every register reads as stored, and it is stored as 0. -/
theorem resetClearsTheBlock : Obligations.ResetClearsTheBlock := by
  intro s ts ht
  refine ⟨_, step_resetTurn ht, rfl, fun a ha => ?_, fun i => ⟨rfl, rfl, rfl, rfl⟩, rfl, rfl, rfl⟩
  simp only [List.mem_cons, List.not_mem_nil, or_false] at ha
  have hread : readData (resetBlock { s with turns := ts }) a =
      storedWord (resetBlock { s with turns := ts }) (locate a) :=
    readData_idle (by rcases ha with rfl | rfl | rfl | rfl | rfl | rfl | rfl <;> rfl) (resetBlock_busy _)
  rw [hread]
  rcases ha with rfl | rfl | rfl | rfl | rfl | rfl | rfl
  case inr.inl => exact statusWord_resetBlock _
  all_goals rfl

end Sys2Proof.Machine
end

