-- ==== Sys2Proof/Proofs/StepEvents.lean ====
section
/-! What a step can be, as BUSY, WR_IGNORED and the outputs see it: an accepted command, a quiet turn, a dropped write or
another access while BUSY = 1, a completion, or a reset (10_state.md R18, R22, R38; 40_command_common.md R64, R65, R70). -/

namespace Sys2Proof.Machine

/-- What an access with nothing in flight leaves, unless it launches a command: all but the inputs. -/
structure OutputsKept (s t : State) : Prop where
  inflight : t.inflight = s.inflight
  status : t.status = s.status
  result : t.result = s.result
  outLen : t.outLen = s.outLen
  out2Len : t.out2Len = s.out2Len
  bufO : t.bufO = s.bufO
  bufP : t.bufP = s.bufP

/-- What every host access leaves while a command is in flight: all of the block but STATUS. -/
structure CommandKept (s t : State) : Prop where
  inflight : t.inflight = s.inflight
  cmd : t.cmd = s.cmd
  hrpLen : t.hrpLen = s.hrpLen
  inLen : t.inLen = s.inLen
  bufH : t.bufH = s.bufH
  bufI : t.bufI = s.bufI
  result : t.result = s.result
  outLen : t.outLen = s.outLen
  out2Len : t.out2Len = s.out2Len
  bufO : t.bufO = s.bufO
  bufP : t.bufP = s.bufP

/-- The first statement of the host's program writes an aligned address. -/
def WritesAligned (s : State) : Prop := ∃ a v rest, s.host = .wr a v :: rest ∧ a.toNat % 4 = 0

/-- The first statement of the host's program writes `v` to CMD. -/
def WritesCmd (s : State) (v : Word) : Prop := ∃ rest, s.host = .wr 0x000 v :: rest

/-! ### One host access -/

theorem outputsKept_afterRead (s : State) (a : Addr) : OutputsKept s (afterRead s a) := by
  constructor <;> simp

/-- A write with nothing in flight launches a command, if it is one to CMD, or keeps the outputs. -/
theorem afterWrite_idle_cases {s : State} (hb : s.busy = false) (a : Addr) (v : Word) :
    (a = 0x000 ∧ afterWrite s a v = accept s v) ∨ OutputsKept s (afterWrite s a v) := by
  rcases afterWrite_cases s a v with h | ⟨_, hbusy, _⟩ | ⟨_, _, hl, h⟩ | ⟨_, h⟩ | ⟨_, h⟩ | ⟨i, _, _, h⟩ |
    ⟨i, _, _, h⟩
  · exact .inr (by rw [h]; constructor <;> rfl)
  · rw [hb] at hbusy; cases hbusy
  · exact .inl ⟨eq_zero_of_locate_cmd hl, h⟩
  all_goals exact .inr (by rw [h]; constructor <;> rfl)

theorem OutputsKept.withHostPart {s t : State} (h : OutputsKept s t) (hs : List Stmt) (l : List PortRecord) :
    OutputsKept s { t with host := hs, log := l } :=
  ⟨h.inflight, h.status, h.result, h.outLen, h.out2Len, h.bufO, h.bufP⟩

/-- With nothing in flight a host access launches the command its first statement writes, or keeps the outputs. -/
theorem hostStep_idle {s : State} (hb : s.busy = false) :
    (∃ v, WritesCmd s v ∧ (hostStep s).busy = true ∧ (hostStep s).cmd = v ∧ (hostStep s).status = acceptedStatus) ∨
      OutputsKept s (hostStep s) := by
  obtain ⟨u, hs, l, he, hu⟩ := hostStep_block s
  rw [he]
  rcases hu with rfl | ⟨a, rfl⟩ | ⟨a, v, rest, hh, rfl⟩
  · exact .inr ((OutputsKept.mk rfl rfl rfl rfl rfl rfl rfl).withHostPart hs l)
  · exact .inr ((outputsKept_afterRead s a).withHostPart hs l)
  · rcases afterWrite_idle_cases hb a v with ⟨rfl, h⟩ | h
    · exact .inl ⟨v, ⟨rest, hh⟩, by rw [h]; exact ⟨rfl, rfl, rfl⟩⟩
    · exact .inr (h.withHostPart hs l)

theorem hostStep_writesCmd_busy {s : State} {v : Word} (hb : s.busy = false) (h : WritesCmd s v) :
    (hostStep s).busy = true := by
  obtain ⟨rest, hh⟩ := h
  rw [hostStep_wr hh, afterWrite_cmd_idle hb]
  rfl

/-- While a command is in flight a host access leaves all of the block but STATUS (R65, R70). -/
theorem commandKept_hostStep {s : State} (hb : s.busy = true) : CommandKept s (hostStep s) := by
  obtain ⟨u, hs, l, he, hu⟩ := hostStep_block s
  rw [he]
  rcases hu with rfl | ⟨a, rfl⟩ | ⟨a, v, _, _, rfl⟩
  · constructor <;> rfl
  · constructor <;> simp
  · rcases afterWrite_inflight hb a v with h | h <;> rw [h] <;> constructor <;> rfl

/-- An aligned write while a command is in flight sets WR_IGNORED and nothing else of STATUS (R22, R65). -/
theorem hostStep_status_of_writesAligned {s : State} (hb : s.busy = true) (h : WritesAligned s) :
    (hostStep s).status = ignoredStatus s.status := by
  obtain ⟨a, v, rest, hh, ha⟩ := h
  rw [hostStep_wr hh, afterWrite_busy ((aligned_iff a).2 ha) hb]
  rfl

/-- Any other access while a command is in flight leaves STATUS. -/
theorem hostStep_status_of_not {s : State} (h : ¬ WritesAligned s) : (hostStep s).status = s.status := by
  obtain ⟨u, hs, l, he, hu⟩ := hostStep_block s
  rw [he]
  rcases hu with rfl | ⟨a, rfl⟩ | ⟨a, v, rest, hh, rfl⟩
  · rfl
  · exact afterRead_status s a
  · have ha : aligned a = false := (aligned_eq_false_iff a).2 fun ha => h ⟨a, v, rest, hh, ha⟩
    rw [afterWrite_misaligned ha]

/-! ### One step -/

/-- The six things a step from `s` to `t` can be. -/
inductive StepEvent (s t : State) : Prop where
  | accepted (v : Word) (idle : s.busy = false) (turn : (takeTurn s).1 = .host) (write : WritesCmd s v)
      (busy : t.busy = true) (cmd : t.cmd = v) (status : t.status = acceptedStatus)
  | quiet (idle : s.busy = false) (turn : (takeTurn s).1 ≠ .reset)
      (noLaunch : (takeTurn s).1 = .host → ∀ v, ¬ WritesCmd s v) (kept : OutputsKept s t)
  | dropped (inflight : s.busy = true) (turn : (takeTurn s).1 = .host) (write : WritesAligned s)
      (kept : CommandKept s t) (status : t.status = ignoredStatus s.status)
  | served (inflight : s.busy = true) (turn : (takeTurn s).1 = .host) (noWrite : ¬ WritesAligned s)
      (kept : CommandKept s t) (status : t.status = s.status)
  | completed (inflight : s.busy = true) (turn : (takeTurn s).1 = .unit) (busy : t.busy = false)
      (done : t.status.done = true) (wrIgnored : t.status.wrIgnored = s.status.wrIgnored)
  | reset (turn : (takeTurn s).1 = .reset) (busy : t.busy = false) (status : t.status = resetStatus)

theorem stepEvent_host {s : State} (ht : (takeTurn s).1 = .host) : StepEvent s (hostStep (takeTurn s).2) := by
  have hu := takeTurn_snd s
  cases hb : s.busy with
  | true =>
    have hkept : CommandKept s (hostStep (takeTurn s).2) := by
      have h := commandKept_hostStep (s := (takeTurn s).2) (by rw [hu]; exact hb)
      rw [hu] at h ⊢
      exact ⟨h.inflight, h.cmd, h.hrpLen, h.inLen, h.bufH, h.bufI, h.result, h.outLen, h.out2Len, h.bufO, h.bufP⟩
    rw [hu] at hkept ⊢
    by_cases hw : WritesAligned s
    · exact .dropped hb ht hw hkept (hostStep_status_of_writesAligned hb hw)
    · exact .served hb ht hw hkept (hostStep_status_of_not hw)
  | false =>
    rw [hu]
    rcases hostStep_idle (s := { s with turns := s.turns.tail }) hb with ⟨v, hw, hbusy, hcmd, hstatus⟩ | h
    · exact .accepted v hb ht hw hbusy hcmd hstatus
    · refine .quiet hb (by rw [ht]; decide) (fun _ v hw => ?_)
        ⟨h.inflight, h.status, h.result, h.outLen, h.out2Len, h.bufO, h.bufP⟩
      have hbusy := hostStep_writesCmd_busy (s := { s with turns := s.turns.tail }) hb hw
      rw [busy_eq, h.inflight] at hbusy
      exact absurd hbusy (Bool.eq_false_iff.1 hb)

theorem stepEvent {s t : State} (h : step s = .next t) : StepEvent s t := by
  rcases step_cases s with ⟨ht, he⟩ | ⟨ht, hn, he⟩ | ⟨q, ht, hq, he⟩ | ⟨ht, he⟩ <;> rw [he] at h <;> cases h
  · exact stepEvent_host ht
  · refine .quiet (busy_eq_false_iff.2 hn) (by rw [ht]; decide) (fun hhost => ?_) ?_
    · rw [ht] at hhost; cases hhost
    · rw [takeTurn_snd]
      constructor <;> rfl
  · refine .completed (busy_iff_some.2 ⟨q, hq⟩) ht (complete_busy _ _) (complete_done _ _) ?_
    rw [complete_wrIgnored, takeTurn_snd]
  · exact .reset ht (resetBlock_busy _) rfl

/-- Settles O10, event by event. -/
theorem busyFollowsTheCommand : Obligations.BusyFollowsTheCommand := by
  intro s t h
  cases stepEvent h with
  | accepted v idle turn write busy cmd status =>
    obtain ⟨rest, hh⟩ := write
    simp [idle, turn, busy, cmd, hh]
  | quiet idle turn noLaunch kept =>
    have hbusy : t.busy = false := by rw [busy_eq, kept.inflight]; exact idle
    refine ⟨fun v rest _ ht hh => absurd ⟨rest, hh⟩ (noLaunch ht v), ?_⟩
    simp [idle, hbusy]
  | dropped inflight turn write kept status =>
    have hbusy : t.busy = true := by rw [busy_eq, kept.inflight]; exact inflight
    simp [inflight, turn, hbusy]
  | served inflight turn noWrite kept status =>
    have hbusy : t.busy = true := by rw [busy_eq, kept.inflight]; exact inflight
    simp [inflight, turn, hbusy]
  | completed inflight turn busy done wrIgnored => simp [inflight, turn, busy, done]
  | reset turn busy status => simp [turn, busy]

/-- A flag that keeps its value neither rises nor falls. -/
theorem no_event_of_eq {a b : Bool} {p q : Prop} (h : a = b) :
    (a = true → b = false → p) ∧ (a = false → b = true → q) := by
  subst h
  cases a <;> simp

/-- Settles O11, event by event. -/
theorem writeIgnoredFlagIsSticky : Obligations.WriteIgnoredFlagIsSticky := by
  intro s t h
  cases stepEvent h with
  | accepted v idle turn write busy cmd status =>
    obtain ⟨rest, hh⟩ := write
    simp [idle, turn, status, acceptedStatus, hh]
  | quiet idle turn noLaunch kept =>
    exact ⟨by simp [idle], fun v rest _ ht hh => absurd ⟨rest, hh⟩ (noLaunch ht v), fun ht => absurd ht turn,
      no_event_of_eq (by rw [kept.status])⟩
  | dropped inflight turn write kept status =>
    have hset : t.status.wrIgnored = true := by rw [status]; rfl
    exact ⟨fun _ _ _ _ _ _ _ => hset, by simp [inflight], by simp [turn], fun _ _ => ⟨inflight, turn, write⟩,
      by simp [hset]⟩
  | served inflight turn noWrite kept status =>
    exact ⟨fun a v rest _ _ hh ha => absurd ⟨a, v, rest, hh, ha⟩ noWrite, by simp [inflight], by simp [turn],
      no_event_of_eq (by rw [status])⟩
  | completed inflight turn busy done wrIgnored =>
    exact ⟨by simp [turn], by simp [turn], by simp [turn], no_event_of_eq wrIgnored⟩
  | reset turn busy status => simp [turn, status, resetStatus]

/-- Settles O12: between two states with nothing in flight a step that is no reset is quiet. -/
theorem outputsStableUntilNextCommand : Obligations.OutputsStableUntilNextCommand := by
  intro s t h hs ht hreset
  cases stepEvent h with
  | quiet idle turn noLaunch kept =>
    rw [kept.bufO, kept.bufP, kept.status]
    exact ⟨kept.result, kept.outLen, kept.out2Len, fun _ => rfl, fun _ => rfl, rfl, rfl, rfl, rfl⟩
  | accepted v idle turn write busy cmd status => rw [ht] at busy; cases busy
  | dropped inflight turn write kept status => rw [hs] at inflight; cases inflight
  | served inflight turn noWrite kept status => rw [hs] at inflight; cases inflight
  | completed inflight turn busy done wrIgnored => rw [hs] at inflight; cases inflight
  | reset turn busy status => exact absurd turn hreset

theorem CommandKept.of_hostTurn {s t : State} (hb : s.busy = true) (ht : (takeTurn s).1 = .host)
    (h : step s = .next t) : CommandKept s t := by
  cases stepEvent h with
  | dropped inflight turn write kept status => exact kept
  | served inflight turn noWrite kept status => exact kept
  | accepted v idle turn write busy cmd status => rw [hb] at idle; cases idle
  | quiet idle turn noLaunch kept => rw [hb] at idle; cases idle
  | completed inflight turn busy done wrIgnored => rw [ht] at turn; cases turn
  | reset turn busy status => rw [ht] at turn; cases turn

/-- Settles O13: a host turn while a command is in flight is a dropped write or another access. -/
theorem hostCannotTouchInFlightCommand : Obligations.HostCannotTouchInFlightCommand := by
  intro s t hb ht h
  have kept := CommandKept.of_hostTurn hb ht h
  rw [kept.bufH, kept.bufI]
  exact ⟨kept.inflight, kept.cmd, kept.hrpLen, kept.inLen, fun _ => rfl, fun _ => rfl, kept.result, kept.outLen,
    kept.out2Len, kept.bufO, kept.bufP⟩

end Sys2Proof.Machine
end

