-- ==== Sys2Proof/Proofs/BitConverters.lean ====
section
/-! `convertbits` regroups the bitstream (43_bit_converters.md R92, R93): what it answers regroups the values, a list has at
most one regrouping, and the one failure of values that fit says there is none. -/

namespace Sys2Proof.Machine

/-! ### A bitstream determines the values it comes from -/

theorem getLsbD_of_valueBits_eq {w : Nat} {u v : Byte} (h : valueBits w u = valueBits w v) {i : Nat} (hi : i < w) :
    u.getLsbD i = v.getLsbD i := by
  have hbit := congrArg (fun l => l[w - 1 - i]?) h
  have hlt : w - 1 - i < w := by omega
  simp only [valueBits, List.getElem?_map, List.getElem?_range hlt, Option.map_some, Option.some.injEq] at hbit
  rwa [show w - 1 - (w - 1 - i) = i by omega] at hbit

theorem valueBits_injective {w : Nat} {u v : Byte} (hu : u.toNat < 2 ^ w) (hv : v.toNat < 2 ^ w)
    (h : valueBits w u = valueBits w v) : u = v := by
  apply BitVec.eq_of_getLsbD_eq
  intro i _
  by_cases hi : i < w
  · exact getLsbD_of_valueBits_eq h hi
  · rw [getLsbD_of_lt hu (by omega), getLsbD_of_lt hv (by omega)]

theorem bitStream_injective {w : Nat} {xs ys : List Byte} (hx : ∀ v ∈ xs, v.toNat < 2 ^ w)
    (hy : ∀ v ∈ ys, v.toNat < 2 ^ w) (hlen : xs.length = ys.length) (h : bitStream w xs = bitStream w ys) : xs = ys := by
  induction xs generalizing ys with
  | nil => exact (List.length_eq_zero_iff.1 hlen.symm).symm
  | cons x xs ih =>
    cases ys with
    | nil => cases hlen
    | cons y ys =>
      rw [bitStream_cons, bitStream_cons] at h
      obtain ⟨hhead, htail⟩ := List.append_inj h (by simp)
      rw [valueBits_injective (hx x (by simp)) (hy y (by simp)) hhead,
        ih (fun v hv => hx v (by simp [hv])) (fun v hv => hy v (by simp [hv])) (by simpa using hlen) htail]

/-- Groups of `t` bits and fewer than `t` bits more: their number and the remainder are determined. -/
theorem groups_unique {t a b k l : Nat} (hk : k < t) (hl : l < t) (h : t * a + k = t * b + l) : a = b ∧ k = l := by
  have ha : (t * a + k) / t = a := by rw [Nat.mul_add_div (by omega), Nat.div_eq_of_lt hk, Nat.add_zero]
  have hb : (t * b + l) / t = b := by rw [Nat.mul_add_div (by omega), Nat.div_eq_of_lt hl, Nat.add_zero]
  have hab : a = b := by rw [← ha, ← hb, h]
  subst hab
  omega

/-! ### What a regrouping says of lengths -/

theorem Regroups.length_pad {f t : Nat} {values out : List Byte} (h : Regroups f t true values out) :
    ∃ k, k < t ∧ t * out.length = f * values.length + k := by
  obtain ⟨k, hk, he⟩ := h.added rfl
  have hlen := congrArg List.length he
  simp only [List.length_append, bitStream_length, List.length_replicate] at hlen
  exact ⟨k, hk, hlen⟩

theorem Regroups.length_noPad {f t : Nat} {values out : List Byte} (h : Regroups f t false values out) :
    ∃ k, k < t ∧ k < f ∧ f * values.length = t * out.length + k := by
  obtain ⟨k, hk, hkf, he⟩ := h.dropped rfl
  have hlen := congrArg List.length he
  simp only [List.length_append, bitStream_length, List.length_replicate] at hlen
  exact ⟨k, hk, hkf, hlen⟩

/-- Two splits of a stream into groups of `t` bits and fewer than `t` bits more are the same split. -/
theorem bitStream_append_injective {t : Nat} {xs ys : List Byte} {as bs : List Bool} (hx : ∀ v ∈ xs, v.toNat < 2 ^ t)
    (hy : ∀ v ∈ ys, v.toNat < 2 ^ t) (ha : as.length < t) (hb : bs.length < t)
    (h : bitStream t xs ++ as = bitStream t ys ++ bs) : xs = ys ∧ as = bs := by
  have hlen := congrArg List.length h
  simp only [List.length_append, bitStream_length] at hlen
  obtain ⟨hl, _⟩ := groups_unique ha hb hlen
  obtain ⟨hstream, htail⟩ := List.append_inj h (by simp only [bitStream_length, hl])
  exact ⟨bitStream_injective hx hy hl hstream, htail⟩

theorem Regroups.unique_pad {f t : Nat} {values out out' : List Byte} (h : Regroups f t true values out)
    (h' : Regroups f t true values out') : out = out' := by
  obtain ⟨k, hk, he⟩ := h.added rfl
  obtain ⟨k', hk', he'⟩ := h'.added rfl
  have hlen := congrArg List.length he
  have hlen' := congrArg List.length he'
  simp only [List.length_append, bitStream_length, List.length_replicate] at hlen hlen'
  obtain ⟨hl, hkk⟩ := groups_unique hk' hk (show t * out.length + k' = t * out'.length + k by omega)
  exact bitStream_injective h.outFit h'.outFit hl (by rw [he, he', hkk])

/-! ### What `convertbits` answers -/

/-- A value that does not fit stops the conversion (R92). -/
theorem convertbits_overflow {f t : Nat} {pad : Bool} {values : List Byte} (h : ¬ ∀ v ∈ values, v.toNat < 2 ^ f) :
    convertbits values f t pad = .fail .bitConversionOverflow :=
  convRun_overflow (by simpa using h) convStart

section
variable {f t : Nat} (hf : f ≤ 8) (ht0 : 0 < t) (ht : t ≤ 8) (hft : t + f ≤ 13)
include hf ht0 ht hft

/-- With padding, values that fit have a regrouping, and `convertbits` gives it. -/
theorem convertbits_pad {values : List Byte} (hfit : ∀ v ∈ values, v.toNat < 2 ^ f) :
    ∃ out, convertbits values f t true = .ok out ∧ Regroups f t true values out := by
  obtain ⟨r, groups, hn, hgroups, hstream, hrun⟩ := convRun_spec (pad := true) (r := convStart) hf ht0 ht hft hfit ht0
  rw [show convStart.nbits.toNat = 0 from rfl, heldBits_zero, List.nil_append] at hstream
  rw [convFinish_pad, Res.bind_ok] at hrun
  refine ⟨_, hrun, hfit, ?_, fun _ => ?_, fun h => by cases h⟩
  · intro v hv
    rcases List.mem_append.1 hv with hv | hv
    · exact hgroups v hv
    · split at hv
      · obtain rfl := List.mem_singleton.1 hv
        exact finalGroup_lt ht
      · cases hv
  · rw [hstream, bitStream_append]
    by_cases h0 : 0 < r.nbits.toNat
    · refine ⟨t - r.nbits.toNat, by omega, ?_⟩
      rw [if_pos h0, bitStream_cons, valueBits_finalGroup ht (by omega)]
      simp
    · refine ⟨0, ht0, ?_⟩
      rw [if_neg h0, show r.nbits.toNat = 0 by omega]
      simp

/-- Without padding, values that fit split into groups and fewer than `t` bits more; `convertbits` answers the groups if
those bits are fewer than `f` zeros, and InvalidPadding if not. -/
theorem convertbits_noPad {values : List Byte} (hfit : ∀ v ∈ values, v.toNat < 2 ^ f) :
    ∃ (groups : List Byte) (rest : List Bool), (∀ g ∈ groups, g.toNat < 2 ^ t) ∧ rest.length < t ∧
      bitStream f values = bitStream t groups ++ rest ∧
      convertbits values f t false =
        if rest.length < f ∧ rest = List.replicate rest.length false then .ok groups else .fail .invalidPadding := by
  obtain ⟨r, groups, hn, hgroups, hstream, hrun⟩ := convRun_spec (pad := false) (r := convStart) hf ht0 ht hft hfit ht0
  rw [show convStart.nbits.toNat = 0 from rfl, heldBits_zero, List.nil_append] at hstream
  refine ⟨groups, heldBits r.acc r.nbits.toNat, hgroups, by simpa using hn, hstream, ?_⟩
  rw [convertbits, hrun, convFinish_noPad ht hn, heldBits_length]
  split_ifs <;> simp

theorem regroups_of_convertbits {pad : Bool} {values out : List Byte} (h : convertbits values f t pad = .ok out) :
    Regroups f t pad values out := by
  have hfit : ∀ v ∈ values, v.toNat < 2 ^ f := by
    by_contra hc
    rw [convertbits_overflow hc] at h
    cases h
  cases pad with
  | true =>
    obtain ⟨out', hconv, hre⟩ := convertbits_pad hf ht0 ht hft hfit
    rw [h] at hconv
    cases hconv
    exact hre
  | false =>
    obtain ⟨groups, rest, hgroups, hrest, hstream, hconv⟩ := convertbits_noPad hf ht0 ht hft hfit
    rw [h] at hconv
    split_ifs at hconv with hzero
    cases hconv
    obtain ⟨hlt, hzero⟩ := hzero
    exact ⟨hfit, hgroups, fun h => (by cases h), fun _ => ⟨rest.length, hrest, hlt, by rw [← hzero, hstream]⟩⟩

theorem convertbits_of_regroups {pad : Bool} {values out : List Byte} (h : Regroups f t pad values out) :
    convertbits values f t pad = .ok out := by
  cases pad with
  | true =>
    obtain ⟨out', hconv, hre⟩ := convertbits_pad hf ht0 ht hft h.valuesFit
    rw [hconv, hre.unique_pad h]
  | false =>
    obtain ⟨groups, rest, hgroups, hrest, hstream, hconv⟩ := convertbits_noPad hf ht0 ht hft h.valuesFit
    obtain ⟨k, hk, hkf, he⟩ := h.dropped rfl
    obtain ⟨hout, hzero⟩ :=
      bitStream_append_injective h.outFit hgroups (by simpa using hk) hrest (he.symm.trans hstream)
    rw [hconv, if_pos, hout]
    rw [← hzero, List.length_replicate]
    exact ⟨hkf, rfl⟩

theorem convertbits_eq_ok_iff {pad : Bool} {values out : List Byte} :
    convertbits values f t pad = .ok out ↔ Regroups f t pad values out :=
  ⟨regroups_of_convertbits hf ht0 ht hft, convertbits_of_regroups hf ht0 ht hft⟩

/-- The one failure of values that fit is InvalidPadding, without padding (R93 law 4). -/
theorem convertbits_fail_of_fit {values : List Byte} {pad : Bool} {c : FailCode} (hfit : ∀ v ∈ values, v.toNat < 2 ^ f)
    (h : convertbits values f t pad = .fail c) : pad = false ∧ c = .invalidPadding := by
  cases pad with
  | true =>
    obtain ⟨out, hconv, _⟩ := convertbits_pad hf ht0 ht hft hfit
    rw [h] at hconv
    cases hconv
  | false =>
    obtain ⟨groups, rest, _, _, _, hconv⟩ := convertbits_noPad hf ht0 ht hft hfit
    rw [h] at hconv
    split_ifs at hconv
    exact ⟨rfl, Res.fail.inj hconv⟩

/-- Values that fit and have no regrouping fail with InvalidPadding. -/
theorem convertbits_noPad_fail {values : List Byte} (hfit : ∀ v ∈ values, v.toNat < 2 ^ f)
    (h : ¬ ∃ out, Regroups f t false values out) : convertbits values f t false = .fail .invalidPadding := by
  cases hconv : convertbits values f t false with
  | ok out => exact absurd ⟨out, regroups_of_convertbits hf ht0 ht hft hconv⟩ h
  | fail c => rw [(convertbits_fail_of_fit hf ht0 ht hft hfit hconv).2]

end

/-! ### The two directions -/

theorem convertbits_8to5_iff {pad : Bool} {values out : List Byte} :
    convertbits values 8 5 pad = .ok out ↔ Regroups 8 5 pad values out :=
  convertbits_eq_ok_iff (by decide) (by decide) (by decide) (by decide)

theorem convertbits_5to8_iff {pad : Bool} {values out : List Byte} :
    convertbits values 5 8 pad = .ok out ↔ Regroups 5 8 pad values out :=
  convertbits_eq_ok_iff (by decide) (by decide) (by decide) (by decide)

/-- Settles O45, in each direction. -/
theorem convertbitsRegroupsTheBitstream : Obligations.ConvertbitsRegroupsTheBitstream :=
  fun _ _ _ => ⟨convertbits_8to5_iff, convertbits_5to8_iff⟩

theorem byte_fits (values : List Byte) : ∀ v ∈ values, v.toNat < 2 ^ 8 := fun v _ => v.isLt

theorem allSymbols_iff_fits {values : List Byte} : AllSymbols values ↔ ∀ v ∈ values, v.toNat < 2 ^ 5 :=
  forall₂_congr fun _ _ => Nat.lt_succ_iff.symm

theorem convertbits_8to5_pad (values : List Byte) :
    ∃ out, convertbits values 8 5 true = .ok out ∧ Regroups 8 5 true values out :=
  convertbits_pad (by decide) (by decide) (by decide) (by decide) (byte_fits values)

theorem convertbits_5to8_pad {values : List Byte} (h : AllSymbols values) :
    ∃ out, convertbits values 5 8 true = .ok out ∧ Regroups 5 8 true values out :=
  convertbits_pad (by decide) (by decide) (by decide) (by decide) (allSymbols_iff_fits.1 h)

theorem convertbits_8to5_fail {values : List Byte} {pad : Bool} {c : FailCode}
    (h : convertbits values 8 5 pad = .fail c) : pad = false ∧ c = .invalidPadding :=
  convertbits_fail_of_fit (by decide) (by decide) (by decide) (by decide) (byte_fits values) h

theorem convertbits_5to8_fail {values : List Byte} {pad : Bool} {c : FailCode} (hs : AllSymbols values)
    (h : convertbits values 5 8 pad = .fail c) : pad = false ∧ c = .invalidPadding :=
  convertbits_fail_of_fit (by decide) (by decide) (by decide) (by decide) (allSymbols_iff_fits.1 hs) h

theorem convertbits_8to5_noRegrouping {values : List Byte} (h : ¬ ∃ out, Regroups 8 5 false values out) :
    convertbits values 8 5 false = .fail .invalidPadding :=
  convertbits_noPad_fail (by decide) (by decide) (by decide) (by decide) (byte_fits values) h

theorem convertbits_5to8_noRegrouping {values : List Byte} (hs : AllSymbols values)
    (h : ¬ ∃ out, Regroups 5 8 false values out) : convertbits values 5 8 false = .fail .invalidPadding :=
  convertbits_noPad_fail (by decide) (by decide) (by decide) (by decide) (allSymbols_iff_fits.1 hs) h

theorem convertbits_5to8_overflow {values : List Byte} (h : ¬ AllSymbols values) (pad : Bool) :
    convertbits values 5 8 pad = .fail .bitConversionOverflow :=
  convertbits_overflow (mt allSymbols_iff_fits.2 h)

/-- The number of symbols bytes fill with padding (R93 law 2). -/
theorem Regroups.length_8to5_pad {values out : List Byte} (h : Regroups 8 5 true values out) :
    out.length = (8 * values.length + 4) / 5 := by
  obtain ⟨k, hk, hlen⟩ := h.length_pad
  omega

theorem Regroups.length_8to5_noPad {values out : List Byte} (h : Regroups 8 5 false values out) :
    out.length = 8 * values.length / 5 := by
  obtain ⟨k, hk, _, hlen⟩ := h.length_noPad
  omega

/-- Settles O46: each length from the lengths of the two bitstreams, each failure from what values that fit can raise. -/
theorem convertbitsLengthsAndFailures : Obligations.ConvertbitsLengthsAndFailures := by
  refine ⟨fun values => ?_, fun values out h => (convertbits_8to5_iff.1 h).length_8to5_noPad,
    fun values c h => (convertbits_8to5_fail h).2, fun values hs => ?_, fun values out h => ?_,
    fun values c hs h => (convertbits_5to8_fail hs h).2, fun values hs hcount => ?_,
    fun values pad h => convertbits_5to8_overflow h pad⟩
  · obtain ⟨out, hconv, hre⟩ := convertbits_8to5_pad values
    exact ⟨out, hconv, hre.length_8to5_pad⟩
  · obtain ⟨out, hconv, hre⟩ := convertbits_5to8_pad hs
    obtain ⟨k, hk, hlen⟩ := hre.length_pad
    exact ⟨out, hconv, by omega⟩
  · obtain ⟨k, hk, _, hlen⟩ := (convertbits_5to8_iff.1 h).length_noPad
    omega
  · refine convertbits_5to8_noRegrouping hs ?_
    rintro ⟨out, hre⟩
    obtain ⟨k, hk, hk5, hlen⟩ := hre.length_noPad
    omega

/-- The zero bits padding adds to bytes are fewer than five, so they may be dropped again (R93 law 6). -/
theorem Regroups.symm_8to5 {p g : List Byte} (h : Regroups 8 5 true p g) : Regroups 5 8 false g p := by
  obtain ⟨k, hk, he⟩ := h.added rfl
  exact ⟨h.outFit, h.valuesFit, fun h => (by cases h), fun _ => ⟨k, by omega, hk, he⟩⟩

/-- Settles O47: the regrouping with padding, read backwards, is one without. -/
theorem conversionRoundTrips : Obligations.ConversionRoundTrips := by
  intro p
  obtain ⟨g, hconv, hre⟩ := convertbits_8to5_pad p
  exact ⟨g, hconv, convertbits_5to8_iff.2 hre.symm_8to5⟩

end Sys2Proof.Machine
end

