-- ==== Sys2Proof/Proofs/StringCodec.lean ====
section
/-! The string codec (44_string_codec.md R98 to R103): `stringDecode` computed on a string split at its last separator, the
strings it accepts, the code its first failing step gives, and the laws of R102. -/

namespace Sys2Proof.Machine

/-! ### Cases of letters -/

/-- Every character is printable (R101 step 1). -/
def Printable (s : List Byte) : Prop := ∀ c ∈ s, 33 ≤ c.toNat ∧ c.toNat ≤ 126

/-- Some character is an uppercase letter (R99). -/
def HasUpper (s : List Byte) : Prop := ∃ c ∈ s, 0x41 ≤ c.toNat ∧ c.toNat ≤ 0x5A

/-- Some character is a lowercase letter (R99). -/
def HasLower (s : List Byte) : Prop := ∃ c ∈ s, 0x61 ≤ c.toNat ∧ c.toNat ≤ 0x7A

theorem isUpper_iff {c : Byte} : isUpper c = true ↔ 0x41 ≤ c.toNat ∧ c.toNat ≤ 0x5A := by simp [isUpper]

theorem isLower_iff {c : Byte} : isLower c = true ↔ 0x61 ≤ c.toNat ∧ c.toNat ≤ 0x7A := by simp [isLower]

theorem isPrintable_iff {c : Byte} : isPrintable c = true ↔ 33 ≤ c.toNat ∧ c.toNat ≤ 126 := by simp [isPrintable]

theorem mixedCase_iff {s : List Byte} : mixedCase s = true ↔ HasUpper s ∧ HasLower s := by
  simp [mixedCase, isUpper_iff, isLower_iff, HasUpper, HasLower]

theorem mixedCase_eq_false_iff {s : List Byte} : mixedCase s = false ↔ ¬ (HasUpper s ∧ HasLower s) := by
  rw [← mixedCase_iff, Bool.not_eq_true]

theorem any_unprintable_iff {s : List Byte} :
    (s.any fun c => !isPrintable c) = true ↔ ∃ c ∈ s, c.toNat < 33 ∨ 126 < c.toNat := by
  simp only [List.any_eq_true, Bool.not_eq_true', Bool.eq_false_iff, ne_eq, isPrintable_iff]
  refine exists_congr fun c => and_congr_right fun _ => ?_
  omega

theorem any_unprintable_eq_false_iff {s : List Byte} : (s.any fun c => !isPrintable c) = false ↔ Printable s := by
  simp [isPrintable_iff, Printable]

theorem not_hasUpper_iff {s : List Byte} : ¬ HasUpper s ↔ ∀ c ∈ s, ¬ (0x41 ≤ c.toNat ∧ c.toNat ≤ 0x5A) := by
  simp [HasUpper]

theorem lower_of_not_upper {c : Byte} (h : ¬ (0x41 ≤ c.toNat ∧ c.toNat ≤ 0x5A)) : lower c = c := by
  rw [lower, if_neg (mt isUpper_iff.1 h)]

/-- A string without uppercase letters is its own lowercase form (R98). -/
theorem lowerString_of_not_hasUpper {s : List Byte} (h : ¬ HasUpper s) : lowerString s = s := by
  exact (List.map_congr_left fun c hc => lower_of_not_upper (not_hasUpper_iff.1 h c hc)).trans (List.map_id s)

@[simp] theorem lowerString_append (s t : List Byte) : lowerString (s ++ t) = lowerString s ++ lowerString t :=
  List.map_append

@[simp] theorem lowerString_cons (c : Byte) (s : List Byte) : lowerString (c :: s) = lower c :: lowerString s := rfl

/-- An uppercase letter's lowercase form is a lowercase letter (R98). -/
theorem lower_of_upper {c : Byte} (h : 0x41 ≤ c.toNat ∧ c.toNat ≤ 0x5A) : (lower c).toNat = c.toNat + 0x20 := by
  rw [lower, if_pos (isUpper_iff.2 h), BitVec.toNat_add]
  simp only [BitVec.reduceToNat]
  omega

theorem lower_eq_separator_iff {c : Byte} : lower c = separator ↔ c = separator := by
  by_cases h : 0x41 ≤ c.toNat ∧ c.toNat ≤ 0x5A
  · have hl := lower_of_upper h
    have hs : separator.toNat = 0x31 := rfl
    constructor
    · intro he
      rw [he] at hl
      omega
    · rintro rfl
      omega
  · rw [lower_of_not_upper h]

theorem separator_mem_lowerString {s : List Byte} : separator ∈ lowerString s ↔ separator ∈ s := by
  simp [lowerString, lower_eq_separator_iff]

/-! ### The characters of symbols -/

theorem separator_not_mem_charset : separator ∉ charset := by decide

theorem charset_printable : Printable charset := by unfold Printable; decide

theorem separator_not_mem_symbols (d : List Symbol) : separator ∉ d.map symbolToChar := by
  intro h
  obtain ⟨s, _, hs⟩ := List.mem_map.1 h
  exact separator_not_mem_charset (hs ▸ symbolToChar_mem s)

theorem symbolToChar_injective {a b : Symbol} (h : symbolToChar a = symbolToChar b) : a = b :=
  Option.some.inj (by rw [← charToSymbol_symbolToChar a, h, charToSymbol_symbolToChar])

theorem mem_charset_iff {c : Byte} : c ∈ charset ↔ ∃ s : Symbol, symbolToChar s = c := by
  constructor
  · intro h
    obtain ⟨i, hi, hc⟩ := List.getElem_of_mem h
    refine ⟨BitVec.ofNat 5 i, Option.some.inj ?_⟩
    rw [← charset_getElem?, BitVec.toNat_ofNat, Nat.mod_eq_of_lt (show i < 2 ^ 5 from hi), List.getElem?_eq_getElem hi]
    exact congrArg some hc
  · rintro ⟨s, rfl⟩
    exact symbolToChar_mem s

theorem charToSymbol_eq_none_iff_not_mem {c : Byte} : charToSymbol c = none ↔ c ∉ charset := by
  rw [charToSymbol_eq_none_iff, mem_charset_iff, not_exists]

/-- A list of characters is read as symbols exactly when it is the characters of them (R101 step 5). -/
theorem charsToSymbols_eq_ok_iff {cs : List Byte} {ds : List Symbol} :
    charsToSymbols cs = .ok ds ↔ ds.map symbolToChar = cs := by
  induction cs generalizing ds with
  | nil => simp [charsToSymbols, eq_comm]
  | cons c cs ih =>
    rw [charsToSymbols]
    cases hc : charToSymbol c with
    | none =>
      rw [charToSymbol_eq_none_iff] at hc
      cases ds <;> simp [hc]
    | some d =>
      obtain rfl := symbolToChar_of_charToSymbol hc
      simp only [Res.bind_eq_ok, ih]
      cases ds with
      | nil => simp
      | cons e es =>
        simp only [Res.ok.injEq, List.cons.injEq, List.map_cons]
        constructor
        · rintro ⟨_, hds, rfl, rfl⟩
          exact ⟨rfl, hds⟩
        · rintro ⟨he, hds⟩
          exact ⟨es, hds, (symbolToChar_injective he).symm, rfl⟩

/-- The one failure of reading symbols is InvalidCharacter, of a character outside the charset. -/
theorem charsToSymbols_eq_fail_iff {cs : List Byte} {c : FailCode} :
    charsToSymbols cs = .fail c ↔ c = .invalidCharacter ∧ ∃ x ∈ cs, x ∉ charset := by
  induction cs with
  | nil => simp [charsToSymbols]
  | cons x xs ih =>
    rw [charsToSymbols]
    cases hx : charToSymbol x with
    | none => simp [charToSymbol_eq_none_iff_not_mem.1 hx, eq_comm]
    | some d =>
      have hmem : x ∈ charset := by
        rw [← not_not (a := x ∈ charset), ← charToSymbol_eq_none_iff_not_mem, hx]
        simp
      simp [Res.bind_eq_fail, ih, hmem]

/-! ### `stringDecode`, step by step -/

/-- Steps 1 and 2 (R101). -/
theorem stringDecode_of_oneCase {s : List Byte} (hp : Printable s) (hm : ¬ (HasUpper s ∧ HasLower s)) (v : Variant) :
    stringDecode s v = decodeLowered (lowerString s) v := by
  rw [stringDecode, any_unprintable_eq_false_iff.2 hp, mixedCase_eq_false_iff.2 hm, failIf_false, failIf_false]

/-- Steps 4 to 7 on a string split at its last separator (R101). -/
theorem decodeLowered_split {h tail : List Byte} (hsep : separator ∉ tail) (v : Variant) :
    decodeLowered (h ++ separator :: tail) v =
      failIf (decide (h.length < 1)) .emptyHrp
        (failIf (decide (tail.length < 6)) .dataTooShort
          (failIf (decide (90 < h.length + tail.length + 1)) .stringTooLong
            ((charsToSymbols tail).bind fun d =>
              failIf (!verifyChecksum h d v) .checksumMismatch (.ok (h, d.take (d.length - 6)))))) := by
  have hlast : lastIndex separator (h ++ separator :: tail) = some h.length := lastIndex_eq_some.2 ⟨h, tail, rfl, hsep, rfl⟩
  have hdrop : (h ++ separator :: tail).drop (h.length + 1) = tail := by
    rw [← List.drop_drop, List.drop_left, List.drop_one, List.tail_cons]
  have hshort : decide (h.length + (tail.length + 1) < h.length + 7) = decide (tail.length < 6) := by
    rw [decide_eq_decide]
    omega
  rw [decodeLowered, hlast]
  simp only [hshort, decodeSplit, hdrop, List.take_left, maxStr, csumLen, List.length_append, List.length_cons,
    Nat.add_assoc]

theorem decodeLowered_noSeparator {s : List Byte} (h : separator ∉ s) (v : Variant) :
    decodeLowered s v = .fail .separatorNotFound := by
  rw [decodeLowered, lastIndex_eq_none.2 h]

/-- Every string without a separator, or split at its last one. -/
theorem separator_split (s : List Byte) :
    separator ∉ s ∨ ∃ h tail, s = h ++ separator :: tail ∧ separator ∉ tail := by
  cases hl : lastIndex separator s with
  | none => exact .inl (lastIndex_eq_none.1 hl)
  | some i =>
    obtain ⟨h, tail, hs, ht, _⟩ := lastIndex_eq_some.1 hl
    exact .inr ⟨h, tail, hs, ht⟩

section
variable {s hrp : List Byte} {data g : List Symbol} (hp : Printable s) (hm : ¬ (HasUpper s ∧ HasLower s))
  (hg : g.length = 6) (hs : lowerString s = hrp ++ [separator] ++ (data ++ g).map symbolToChar)
include hp hm hg hs

/-- A string of one case whose lowercase form is an HRP, the separator, and the characters of data and six more symbols:
the HRP may be empty, the string too long, and the checksum may not verify. -/
theorem stringDecode_of_parts (v : Variant) :
    stringDecode s v =
      failIf (decide (hrp.length < 1)) .emptyHrp
        (failIf (decide (90 < s.length)) .stringTooLong
          (failIf (!verifyChecksum hrp (data ++ g) v) .checksumMismatch (.ok (hrp, data)))) := by
  have hlen := congrArg List.length hs
  simp only [lowerString_length, List.length_append, List.length_map, List.length_singleton] at hlen
  have hlong : decide (90 < hrp.length + ((data ++ g).map symbolToChar).length + 1) = decide (90 < s.length) := by
    rw [decide_eq_decide, List.length_map, List.length_append]
    omega
  rw [stringDecode_of_oneCase hp hm, hs, List.append_assoc, List.singleton_append,
    decodeLowered_split (separator_not_mem_symbols _), charsToSymbols_eq_ok_iff.2 rfl, hlong]
  simp only [List.length_map, List.length_append, hg, Res.bind_ok, Nat.add_sub_cancel, List.take_left]
  rw [decide_eq_false (show ¬ data.length + 6 < 6 by omega), failIf_false]

/-- With an HRP and at most 90 characters only the checksum is left to decide. -/
theorem stringDecode_of_parts_fit (hne : hrp ≠ []) (hshort : s.length ≤ 90) (v : Variant) :
    stringDecode s v = failIf (!verifyChecksum hrp (data ++ g) v) .checksumMismatch (.ok (hrp, data)) := by
  have hpos := List.length_pos_iff.2 hne
  rw [stringDecode_of_parts hp hm hg hs, decide_eq_false (by omega), decide_eq_false (by omega), failIf_false, failIf_false]

end

/-! ### The strings of a variant -/

theorem isBech32String_of_stringDecode {v : Variant} {s hrp : List Byte} {data : List Symbol}
    (h : stringDecode s v = .ok (hrp, data)) : IsBech32String v s hrp data := by
  have hrun := h
  rw [stringDecode] at hrun
  obtain ⟨hprint, hrun⟩ := failIf_eq_ok.1 hrun
  obtain ⟨hcase, hrun⟩ := failIf_eq_ok.1 hrun
  rcases separator_split (lowerString s) with hno | ⟨hd, tail, hs, hsep⟩
  · rw [decodeLowered_noSeparator hno] at hrun
    cases hrun
  · rw [hs, decodeLowered_split hsep] at hrun
    obtain ⟨hempty, hrun⟩ := failIf_eq_ok.1 hrun
    obtain ⟨hdata, hrun⟩ := failIf_eq_ok.1 hrun
    obtain ⟨hlong, hrun⟩ := failIf_eq_ok.1 hrun
    obtain ⟨d, hd, hrun⟩ := Res.bind_eq_ok.1 hrun
    obtain ⟨hsum, hrun⟩ := failIf_eq_ok.1 hrun
    cases hrun
    rw [charsToSymbols_eq_ok_iff] at hd
    subst hd
    simp only [List.length_map, decide_eq_false_iff_not, Nat.not_lt] at hempty hdata hlong
    have hlen := congrArg List.length hs
    simp only [lowerString_length, List.length_append, List.length_cons, List.length_map] at hlen
    refine ⟨any_unprintable_eq_false_iff.1 hprint, mixedCase_eq_false_iff.1 hcase,
      List.length_pos_iff.1 hempty, by omega, d.drop (d.length - 6), by rw [List.length_drop]; omega, ?_, ?_⟩
    · rw [List.take_append_drop, hs]
      simp [separator]
    · rw [List.take_append_drop]
      exact (verifyChecksum_iff _ _ _).1 (by simpa using hsum)

theorem stringDecode_of_isBech32String {v : Variant} {s hrp : List Byte} {data : List Symbol}
    (h : IsBech32String v s hrp data) : stringDecode s v = .ok (hrp, data) := by
  obtain ⟨g, hg, hs, hsum⟩ := h.parts
  rw [stringDecode_of_parts_fit h.printable h.oneCase hg hs h.hrpNonempty h.short, (verifyChecksum_iff _ _ _).2 hsum]
  rfl

theorem stringDecode_eq_ok_iff {v : Variant} {s hrp : List Byte} {data : List Symbol} :
    stringDecode s v = .ok (hrp, data) ↔ IsBech32String v s hrp data :=
  ⟨isBech32String_of_stringDecode, stringDecode_of_isBech32String⟩

/-- Settles O50: what the steps ask of the string is what its definition asks. -/
theorem stringDecodeAcceptsExactly : Obligations.StringDecodeAcceptsExactly := fun _ _ _ _ => stringDecode_eq_ok_iff

/-! ### The first failing step -/

/-- Some character of the string is not printable. -/
theorem stringDecode_unprintable {s : List Byte} (h : ∃ c ∈ s, c.toNat < 33 ∨ 126 < c.toNat) (v : Variant) :
    stringDecode s v = .fail .invalidCharacter := by
  rw [stringDecode, any_unprintable_iff.2 h, failIf_true]

theorem stringDecode_mixedCase {s : List Byte} (hp : Printable s) (hm : HasUpper s ∧ HasLower s) (v : Variant) :
    stringDecode s v = .fail .mixedCase := by
  rw [stringDecode, any_unprintable_eq_false_iff.2 hp, mixedCase_iff.2 hm, failIf_false, failIf_true]

/-- Settles O51: the steps in order, on the string split at its last separator. -/
theorem stringDecodeReportsFirstFailure : Obligations.StringDecodeReportsFirstFailure := by
  intro v s
  refine ⟨fun hbad => stringDecode_unprintable hbad v, fun hp =>
    ⟨fun hm => stringDecode_mixedCase hp hm v, fun hm => ?_⟩⟩
  rw [stringDecode_of_oneCase hp hm]
  refine ⟨fun hno => decodeLowered_noSeparator (mt separator_mem_lowerString.1 hno) v, fun tail hs hsep => ?_,
    fun h tail hne hs hsep => ?_⟩ <;> subst hs
  · exact decodeLowered_split (h := []) (mt separator_mem_lowerString.1 hsep) v
  · have hpos := List.length_pos_iff.2 hne
    have hsplit := decodeLowered_split (h := lowerString h) (mt separator_mem_lowerString.1 hsep) v
    rw [lowerString_append, lowerString_cons, show lower 0x31 = separator from rfl, hsplit, lowerString_length,
      lowerString_length, decide_eq_false (by omega), failIf_false]
    simp only [List.length_append, List.length_cons]
    refine ⟨fun hshort => ?_, fun hlen hlong => ?_, fun hlen hlong hbad => ?_, fun d hlen hlong hd hsum => ?_⟩
    · rw [decide_eq_true hshort, failIf_true]
    · rw [decide_eq_false (by omega), decide_eq_true (by omega), failIf_false, failIf_true]
    · have hfail : charsToSymbols (lowerString tail) = .fail .invalidCharacter :=
        charsToSymbols_eq_fail_iff.2 ⟨rfl, by simpa [lowerString] using hbad⟩
      rw [decide_eq_false (by omega), decide_eq_false (by omega), failIf_false, failIf_false, hfail, Res.bind_fail]
    · have hver : verifyChecksum (lowerString h) d v = false :=
        Bool.eq_false_iff.2 (mt (verifyChecksum_iff _ _ _).1 hsum)
      rw [decide_eq_false (by omega), decide_eq_false (by omega), failIf_false, failIf_false,
        charsToSymbols_eq_ok_iff.2 hd, Res.bind_ok, hver]
      rfl

/-! ### The laws of R102 -/

theorem variantConstant_injective {u v : Variant} (h : variantConstant u = variantConstant v) : u = v := by
  cases u <;> cases v
  · rfl
  · exact absurd h variantConstant_ne
  · exact absurd h.symm variantConstant_ne
  · rfl

/-- Settles O54: the checksum that verifies for one variant verifies for no other, and nothing else depends on it. -/
theorem otherVariantMismatches : Obligations.OtherVariantMismatches := by
  rintro s v u ⟨hrp, data⟩ h huv
  have hstr := isBech32String_of_stringDecode h
  obtain ⟨g, hg, hs, hsum⟩ := hstr.parts
  have hver : verifyChecksum hrp (data ++ g) u = false := by
    rw [Bool.eq_false_iff, ne_eq, verifyChecksum_iff, hsum]
    exact fun he => huv (variantConstant_injective he).symm
  rw [stringDecode_of_parts_fit hstr.printable hstr.oneCase hg hs hstr.hrpNonempty hstr.short, hver]
  rfl

theorem symbols_printable (d : List Symbol) : Printable (d.map symbolToChar) := by
  intro c hc
  obtain ⟨s, _, rfl⟩ := List.mem_map.1 hc
  exact charset_printable _ (symbolToChar_mem s)

theorem symbols_not_hasUpper (d : List Symbol) : ¬ HasUpper (d.map symbolToChar) := by
  rw [not_hasUpper_iff]
  intro c hc
  obtain ⟨s, _, rfl⟩ := List.mem_map.1 hc
  exact charset_not_uppercase _ (symbolToChar_mem s)

section
variable {hrp : List Byte} {data : List Symbol} {v : Variant}

/-- An encoded string is printable when its HRP is. -/
theorem printable_stringEncode_iff : Printable (stringEncode hrp data v) ↔ Printable hrp := by
  constructor
  · exact fun h c hc => h c (by simp [stringEncode, hc])
  · intro h c hc
    rw [stringEncode, List.mem_append, List.mem_append, List.mem_singleton] at hc
    rcases hc with (hc | rfl) | hc
    · exact h c hc
    · decide
    · exact symbols_printable _ c hc

/-- The uppercase letters of an encoded string are those of its HRP. -/
theorem hasUpper_stringEncode_iff : HasUpper (stringEncode hrp data v) ↔ HasUpper hrp := by
  constructor
  · rintro ⟨c, hc, hup⟩
    rw [stringEncode, List.mem_append, List.mem_append, List.mem_singleton] at hc
    rcases hc with (hc | rfl) | hc
    · exact ⟨c, hc, hup⟩
    · exact absurd hup (by decide)
    · exact absurd ⟨c, hc, hup⟩ (symbols_not_hasUpper _)
  · rintro ⟨c, hc, hup⟩
    exact ⟨c, by simp [stringEncode, hc], hup⟩

theorem lowerString_stringEncode :
    lowerString (stringEncode hrp data v) =
      lowerString hrp ++ [separator] ++ (data ++ (createChecksum hrp data v).2).map symbolToChar := by
  rw [stringEncode, lowerString_append, lowerString_append, lowerString_of_not_hasUpper (symbols_not_hasUpper _)]
  rfl

/-- Decoding an encoded string: the HRP comes back in lowercase, and its checksum was made over the HRP as given. -/
theorem stringDecode_stringEncode (hp : Printable hrp)
    (hm : ¬ (HasUpper (stringEncode hrp data v) ∧ HasLower (stringEncode hrp data v))) (u : Variant) :
    stringDecode (stringEncode hrp data v) u =
      failIf (decide (hrp.length < 1)) .emptyHrp
        (failIf (decide (90 < (stringEncode hrp data v).length)) .stringTooLong
          (failIf (!verifyChecksum (lowerString hrp) (data ++ (createChecksum hrp data v).2) u) .checksumMismatch
            (.ok (lowerString hrp, data)))) := by
  rw [stringDecode_of_parts (printable_stringEncode_iff.2 hp) hm (createChecksum_length hrp data v) lowerString_stringEncode,
    lowerString_length]

/-- With an HRP without uppercase letters the checksum verifies, and the HRP comes back as given. -/
theorem stringDecode_stringEncode_same (hp : Printable hrp) (hu : ¬ HasUpper hrp) (hne : hrp ≠ [])
    (hshort : (stringEncode hrp data v).length ≤ 90) : stringDecode (stringEncode hrp data v) v = .ok (hrp, data) := by
  have hpos := List.length_pos_iff.2 hne
  rw [stringDecode_stringEncode hp fun h => hu (hasUpper_stringEncode_iff.1 h.1), decide_eq_false (by omega),
    decide_eq_false (by omega), failIf_false, failIf_false, lowerString_of_not_hasUpper hu, verifyChecksum_createChecksum]
  rfl

end

/-- Settles O52: the created checksum verifies, and no other step of the decoding fails. -/
theorem stringCodecRoundTrips : Obligations.StringCodecRoundTrips :=
  fun _ _ _ hp hu hne hshort =>
    stringDecode_stringEncode_same hp (not_hasUpper_iff.2 hu) (List.length_pos_iff.1 hne)
      ((stringEncode_length _ _ _).trans_le hshort)

/-! ### The uppercase form (R102 law 2) -/

/-- `upper` of R102 law 2, of one character. -/
def upper (c : Byte) : Byte := if 0x61 ≤ c.toNat ∧ c.toNat ≤ 0x7A then c - 0x20 else c

theorem upperString_eq_map (s : List Byte) : upperString s = s.map upper := rfl

theorem toNat_upper (c : Byte) :
    (upper c).toNat = if 0x61 ≤ c.toNat ∧ c.toNat ≤ 0x7A then c.toNat - 0x20 else c.toNat := by
  unfold upper
  split
  · rw [BitVec.toNat_sub_of_le (by rw [BitVec.le_def]; simp; omega)]
    rfl
  · rfl

theorem not_lower_upper (c : Byte) : ¬ (0x61 ≤ (upper c).toNat ∧ (upper c).toNat ≤ 0x7A) := by
  rw [toNat_upper]
  split <;> omega

theorem isPrintable_upper (c : Byte) : isPrintable (upper c) = isPrintable c := by
  rw [Bool.eq_iff_iff, isPrintable_iff, isPrintable_iff, toNat_upper]
  split <;> omega

theorem lower_upper {c : Byte} (h : ¬ (0x41 ≤ c.toNat ∧ c.toNat ≤ 0x5A)) : lower (upper c) = c := by
  by_cases hl : 0x61 ≤ c.toNat ∧ c.toNat ≤ 0x7A
  · have hn : (upper c).toNat = c.toNat - 0x20 := by rw [toNat_upper, if_pos hl]
    apply BitVec.eq_of_toNat_eq
    rw [lower_of_upper (by omega)]
    omega
  · rw [upper, if_neg hl, lower_of_not_upper h]

/-- Settles O53: the uppercase form is as printable, of one case, and has the same lowercase form. -/
theorem uppercaseFormDecodesAlike : Obligations.UppercaseFormDecodesAlike := by
  intro s v h
  have hupper := not_hasUpper_iff.2 h
  have hlower : ¬ HasLower (upperString s) := by
    rintro ⟨_, hc, hlow⟩
    obtain ⟨c, _, rfl⟩ := List.mem_map.1 hc
    exact not_lower_upper c hlow
  have hprint : ((upperString s).any fun c => !isPrintable c) = s.any fun c => !isPrintable c := by
    rw [upperString_eq_map, List.any_map]
    simp [Function.comp_def, isPrintable_upper]
  have hsame : lowerString (upperString s) = lowerString s := by
    rw [lowerString_of_not_hasUpper hupper, lowerString, upperString_eq_map, List.map_map]
    exact (List.map_congr_left fun c hc => lower_upper (h c hc)).trans (List.map_id s)
  rw [stringDecode, stringDecode, hprint, hsame, mixedCase_eq_false_iff.2 fun hm => hlower hm.2,
    mixedCase_eq_false_iff.2 fun hm => hupper hm.1]

end Sys2Proof.Machine
end

