-- ==== Sys2Proof/Proofs/WitnessAddress.lean ====
section
/-! The witness address codec (45_witness_address.md R106 to R108): the checks of `addressDecode` one after another on a
decoded string, and `addressEncode` as `addressDecode` of its own string. -/

namespace Sys2Proof.Machine

/-! ### The two attempts -/

/-- The variant M stands for (R106). -/
def variantOfM (m : Bool) : Variant := if m then .bech32m else .bech32

theorem decide_variantOfM (m : Bool) : decide (variantOfM m = .bech32m) = m := by cases m <;> rfl

/-- A string that decodes under a variant is decoded under it: for no string do both attempts succeed. -/
theorem decodeEither_of_stringDecode {s : List Byte} {v : Variant} {r : List Byte × List Symbol}
    (h : stringDecode s v = .ok r) : decodeEither s = .ok (r, decide (v = .bech32m)) := by
  unfold decodeEither
  cases v with
  | bech32 => rw [h]; rfl
  | bech32m =>
    rw [otherVariantMismatches s .bech32m .bech32 r h (by decide), h]
    rfl

theorem stringDecode_of_decodeEither {s : List Byte} {r : List Byte × List Symbol} {m : Bool}
    (h : decodeEither s = .ok (r, m)) : stringDecode s (variantOfM m) = .ok r := by
  unfold decodeEither at h
  split at h
  · next hd => cases h; exact hd
  · obtain ⟨_, hd, he⟩ := Res.bind_eq_ok.1 h
    cases he
    exact hd

theorem decodeEither_of_both_fail {s : List Byte} {c₀ c : FailCode} (h₀ : stringDecode s .bech32 = .fail c₀)
    (h : stringDecode s .bech32m = .fail c) : decodeEither s = .fail c := by
  rw [decodeEither, h₀, h]
  rfl

theorem stringDecode_of_decodeEither_fail {s : List Byte} {c : FailCode} (h : decodeEither s = .fail c) :
    stringDecode s .bech32m = .fail c := by
  unfold decodeEither at h
  split at h
  · cases h
  · rcases Res.bind_eq_fail.1 h with hd | ⟨_, _, he⟩
    · exact hd
    · cases he

/-! ### The checks of the program -/

theorem allSymbols_symbolCells (rest : List Symbol) : AllSymbols (symbolCells rest) := by
  intro v hv
  obtain ⟨s, _, rfl⟩ := List.mem_map.1 hv
  rw [BitVec.toNat_setWidth_of_le (by decide)]
  exact Nat.le_of_lt_succ s.isLt

theorem checkWitness_invalidPadding {rest : List Symbol} {c : FailCode}
    (h : convertbits (symbolCells rest) 5 8 false = .fail c) (ver : Symbol) (m : Bool) :
    checkWitness ver rest m = .fail .invalidPadding := by
  rw [checkWitness, h, (convertbits_5to8_fail (allSymbols_symbolCells rest) h).2, Res.bind_fail]

theorem symbol_toNat_eq_zero_iff (ver : Symbol) : ver.toNat = 0 ↔ ver = 0 :=
  BitVec.toNat_inj (y := 0)

theorem programLength_bad_iff (n : Nat) :
    (decide (n < progMin) || decide (progMax < n)) = true ↔ ¬ (2 ≤ n ∧ n ≤ 40) := by
  rw [Bool.or_eq_true, decide_eq_true_eq, decide_eq_true_eq, progMin, progMax]
  omega

theorem v0Lens_bad_iff (n : Nat) : (!v0Lens.contains n) = true ↔ ¬ (n = 20 ∨ n = 32) := by
  simp [v0Lens]

section
variable {rest : List Symbol} {p : List Byte} (hp : convertbits (symbolCells rest) 5 8 false = .ok p)
  {ver : Symbol} (m : Bool)
include hp

theorem checkWitness_invalidProgramLength (hver : ver.toNat ≤ 16) (h : ¬ VersionAllows ver.toNat p.length) :
    checkWitness ver rest m = .fail .invalidProgramLength := by
  rw [checkWitness, hp, Res.bind_ok]
  by_cases hlen : 2 ≤ p.length ∧ p.length ≤ 40
  · obtain ⟨hmin, hmax⟩ := hlen
    have hv0 : ver = 0 ∧ ¬ (p.length = 20 ∨ p.length = 32) := by
      by_contra hc
      refine h ⟨hver, hmin, hmax, fun h0 => ?_⟩
      by_contra hl
      exact hc ⟨(symbol_toNat_eq_zero_iff ver).1 h0, hl⟩
    rw [if_pos hv0.1, (v0Lens_bad_iff _).2 hv0.2, failIf_true]
    exact ite_self _
  · rw [(programLength_bad_iff _).2 hlen, failIf_true]

theorem checkWitness_allowed (h : VersionAllows ver.toNat p.length) :
    checkWitness ver rest m =
      failIf (decide (m = true ↔ ver = 0)) .versionVariantMismatch (.ok { version := ver, program := p, bech32m := m }) := by
  obtain ⟨_, hmin, hmax, hv0⟩ := h
  rw [symbol_toNat_eq_zero_iff] at hv0
  rw [checkWitness, hp, Res.bind_ok, Bool.eq_false_iff.2 (mt (programLength_bad_iff _).1 (by omega)), failIf_false]
  by_cases h0 : ver = 0
  · rw [if_pos h0, Bool.eq_false_iff.2 (mt (v0Lens_bad_iff _).1 (not_not.2 (hv0 h0))), failIf_false]
    simp [h0]
  · simp only [h0, iff_false]
    cases m <;> rfl

end

/-- What a passed check says of the version, the program and M. -/
theorem checkWitness_eq_ok {rest : List Symbol} {ver : Symbol} {m : Bool} {w : Witness} (hver : ver.toNat ≤ 16)
    (h : checkWitness ver rest m = .ok w) :
    ∃ p, convertbits (symbolCells rest) 5 8 false = .ok p ∧ VersionAllows ver.toNat p.length ∧ ¬ (m = true ↔ ver = 0) ∧
      w = { version := ver, program := p, bech32m := m } := by
  obtain ⟨p, hp, _⟩ := Res.bind_eq_ok.1 h
  by_cases hallow : VersionAllows ver.toNat p.length
  · rw [checkWitness_allowed hp m hallow] at h
    obtain ⟨hm, h⟩ := failIf_eq_ok.1 h
    cases h
    exact ⟨p, hp, hallow, of_decide_eq_false hm, rfl⟩
  · rw [checkWitness_invalidProgramLength hp m hver hallow] at h
    cases h

/-! ### The checks of a decoded string -/

section
variable {eh s hrp : List Byte} {v : Variant} {d rest : List Symbol} {ver : Symbol}

theorem addressDecode_hrpMismatch (h : stringDecode s v = .ok (hrp, d)) (hne : hrp ≠ eh) :
    addressDecode eh s = .fail .hrpMismatch := by
  rw [addressDecode, decodeEither_of_stringDecode h, Res.bind_ok, bne_iff_ne.2 hne, failIf_true]

theorem addressDecode_emptyPayload (h : stringDecode s v = .ok (eh, [])) : addressDecode eh s = .fail .emptyPayload := by
  rw [addressDecode, decodeEither_of_stringDecode h, Res.bind_ok]
  simp only [bne_self_eq_false, failIf_false]

theorem addressDecode_cons (h : stringDecode s v = .ok (eh, ver :: rest)) :
    addressDecode eh s =
      failIf (decide (16 < ver.toNat)) .invalidVersion (checkWitness ver rest (decide (v = .bech32m))) := by
  rw [addressDecode, decodeEither_of_stringDecode h, Res.bind_ok]
  simp only [bne_self_eq_false, failIf_false, verMax]
  rfl

theorem addressDecode_invalidVersion (h : stringDecode s v = .ok (eh, ver :: rest)) (hver : 16 < ver.toNat) :
    addressDecode eh s = .fail .invalidVersion := by
  rw [addressDecode_cons h, decide_eq_true hver, failIf_true]

theorem addressDecode_checkWitness (h : stringDecode s v = .ok (eh, ver :: rest)) (hver : ver.toNat ≤ 16) :
    addressDecode eh s = checkWitness ver rest (decide (v = .bech32m)) := by
  rw [addressDecode_cons h, decide_eq_false (by omega), failIf_false]

/-- When both attempts fail, the second one's code is the code (R106 step 1). -/
theorem addressDecode_of_both_fail {c₀ c : FailCode} (h₀ : stringDecode s .bech32 = .fail c₀)
    (h : stringDecode s .bech32m = .fail c) : addressDecode eh s = .fail c := by
  rw [addressDecode, decodeEither_of_both_fail h₀ h, Res.bind_fail]

theorem addressDecode_of_fail {c : FailCode} (h : ∀ v, stringDecode s v = .fail c) : addressDecode eh s = .fail c :=
  addressDecode_of_both_fail (h .bech32) (h .bech32m)

/-- A string `addressDecode` accepts decodes under the variant M says, to the expected HRP and a version of at most 16. -/
theorem stringDecode_of_addressDecode {w : Witness} (h : addressDecode eh s = .ok w) :
    ∃ (m : Bool) (ver : Symbol) (rest : List Symbol), stringDecode s (variantOfM m) = .ok (eh, ver :: rest) ∧
      ver.toNat ≤ 16 := by
  obtain ⟨⟨⟨hrp, d⟩, m⟩, hd, hchecks⟩ := Res.bind_eq_ok.1 h
  obtain ⟨hsame, hpayload⟩ := failIf_eq_ok.1 hchecks
  have hs := stringDecode_of_decodeEither hd
  rw [show hrp = eh by simpa using hsame] at hs
  cases d with
  | nil => cases hpayload
  | cons ver rest =>
    obtain ⟨hver, _⟩ := failIf_eq_ok.1 hpayload
    exact ⟨m, ver, rest, hs, Nat.le_of_not_lt (of_decide_eq_false hver)⟩

end

theorem isWitnessAddress_of_addressDecode {eh s : List Byte} {w : Witness} (h : addressDecode eh s = .ok w) :
    IsWitnessAddress eh s w := by
  obtain ⟨m, ver, rest, hs, hver⟩ := stringDecode_of_addressDecode h
  rw [addressDecode_checkWitness hs hver, decide_variantOfM] at h
  obtain ⟨p, hp, ⟨_, hmin, hmax, hv0⟩, hm, rfl⟩ := checkWitness_eq_ok hver h
  refine ⟨⟨rest, isBech32String_of_stringDecode hs, convertbits_5to8_iff.1 hp⟩, hver, ⟨hmin, hmax⟩,
    fun h0 => hv0 ((symbol_toNat_eq_zero_iff ver).2 h0), ?_⟩
  show m = true ↔ ver ≠ 0
  tauto

theorem addressDecode_of_isWitnessAddress {eh s : List Byte} {w : Witness} (h : IsWitnessAddress eh s w) :
    addressDecode eh s = .ok w := by
  obtain ⟨⟨rest, hstr, hre⟩, hver, ⟨hmin, hmax⟩, hv0, hm⟩ := h
  have hs : stringDecode s (variantOfM w.bech32m) = .ok (eh, w.version :: rest) := stringDecode_of_isBech32String hstr
  have hallow : VersionAllows w.version.toNat w.program.length :=
    ⟨hver, hmin, hmax, fun h0 => hv0 ((symbol_toNat_eq_zero_iff _).1 h0)⟩
  have hok : ¬ (w.bech32m = true ↔ w.version = 0) := by tauto
  rw [addressDecode_checkWitness hs hver, decide_variantOfM,
    checkWitness_allowed (convertbits_5to8_iff.2 hre) _ hallow, decide_eq_false hok, failIf_false]

theorem addressDecode_eq_ok_iff {eh s : List Byte} {w : Witness} :
    addressDecode eh s = .ok w ↔ IsWitnessAddress eh s w :=
  ⟨isWitnessAddress_of_addressDecode, addressDecode_of_isWitnessAddress⟩

/-- Settles O57: the accepted strings by the definition of a witness address, each failing check by the lemma of it. -/
theorem addressDecodeAcceptsExactly : Obligations.AddressDecodeAcceptsExactly := by
  refine ⟨fun _ _ _ => addressDecode_eq_ok_iff, fun _ _ _ _ => addressDecode_of_both_fail,
    fun eh s hrp v d hs => ⟨addressDecode_hrpMismatch hs, ?_⟩⟩
  rintro rfl
  refine ⟨?_, ?_⟩
  · rintro rfl
    exact addressDecode_emptyPayload hs
  rintro ver rest rfl
  refine ⟨addressDecode_invalidVersion hs, fun hver => ?_⟩
  rw [addressDecode_checkWitness hs hver]
  refine ⟨fun c hc => checkWitness_invalidPadding hc ver _, fun p hp =>
    ⟨checkWitness_invalidProgramLength hp _ hver, fun hallow hm => ?_⟩⟩
  rw [checkWitness_allowed hp _ hallow, decide_eq_true (by rw [decide_eq_true_eq]; exact hm.symm), failIf_true]

end Sys2Proof.Machine
end

