-- ==== Sys2Proof/Proofs/AddressEncode.lean ====
section
/-! `addressEncode` (45_witness_address.md R107, R108): its self-check decodes the string it has made, so each of its outcomes
is what `addressDecode` answers on an encoded string. -/

namespace Sys2Proof.Machine

/-! ### The string of R107 -/

/-- The data symbols of R107: the version, then the regrouped program. -/
def addressData (ver : Byte) (groups : List Byte) : List Symbol := ver.setWidth 5 :: groups.map (BitVec.setWidth 5)

/-- The string of R107 for a version and a program already regrouped. -/
def addressString (hrp : List Byte) (ver : Byte) (groups : List Byte) : List Byte :=
  stringEncode hrp (addressData ver groups) (versionVariant ver)

theorem addressString_length (hrp : List Byte) (ver : Byte) (groups : List Byte) :
    (addressString hrp ver groups).length = hrp.length + 8 + groups.length := by
  rw [addressString, stringEncode_length, addressData, List.length_cons, List.length_map]
  omega

theorem decide_versionVariant (ver : Byte) : decide (versionVariant ver = .bech32m) = (ver != 0) := by
  by_cases h : ver = 0
  · subst h; rfl
  · rw [versionVariant, if_neg h, bne_iff_ne.2 h]
    rfl

theorem toNat_versionSymbol {ver : Byte} (h : ver.toNat ≤ 31) : (ver.setWidth 5 : Symbol).toNat = ver.toNat := by
  rw [BitVec.toNat_setWidth, Nat.mod_eq_of_lt (by omega)]

theorem versionSymbol_eq_zero_iff {ver : Byte} (h : ver.toNat ≤ 31) : (ver.setWidth 5 : Symbol) = 0 ↔ ver = 0 := by
  rw [← BitVec.toNat_inj, ← BitVec.toNat_inj, toNat_versionSymbol h]
  rfl

/-- Cells that are symbols are read as symbols and written back unchanged (R44). -/
theorem symbolCells_setWidth {cells : List Byte} (h : AllSymbols cells) :
    symbolCells (cells.map (BitVec.setWidth 5)) = cells := by
  rw [symbolCells, List.map_map]
  refine (List.map_congr_left fun v hv => ?_).trans (List.map_id cells)
  have hv : v.toNat ≤ 31 := h v hv
  apply BitVec.eq_of_toNat_eq
  simp only [Function.comp_apply, BitVec.toNat_setWidth, id_eq]
  omega

/-- The program behind the string's version symbol regroups to the program encoded (R93 law 6). -/
theorem convertbits_symbols_back {prog groups : List Byte} (h : convertbits prog 8 5 true = .ok groups) :
    convertbits (symbolCells (groups.map (BitVec.setWidth 5))) 5 8 false = .ok prog := by
  have hre := convertbits_8to5_iff.1 h
  rw [symbolCells_setWidth (allSymbols_iff_fits.2 hre.outFit)]
  exact convertbits_5to8_iff.2 hre.symm_8to5

/-- A lowercase form has no uppercase letter (R98). -/
theorem not_upper_lower (c : Byte) : ¬ (0x41 ≤ (lower c).toNat ∧ (lower c).toNat ≤ 0x5A) := by
  by_cases h : 0x41 ≤ c.toNat ∧ c.toNat ≤ 0x5A
  · rw [lower_of_upper h]
    omega
  · rwa [lower_of_not_upper h]

/-! ### The self-check, outcome by outcome -/

section
variable {hrp prog groups : List Byte} {ver : Byte}

theorem addressEncode_invalidVersion (h : 31 < ver.toNat) : addressEncode hrp ver prog = .fail .invalidVersion := by
  rw [addressEncode, decide_eq_true h, failIf_true]

theorem addressEncode_eq (hver : ver.toNat ≤ 31) (hg : convertbits prog 8 5 true = .ok groups) :
    addressEncode hrp ver prog =
      (addressDecode hrp (addressString hrp ver groups)).bind fun _ => .ok (addressString hrp ver groups, ver != 0) := by
  rw [addressEncode, decide_eq_false (by omega), failIf_false, hg]
  rfl

theorem addressDecode_addressString_unprintable (h : ∃ c ∈ hrp, c.toNat < 33 ∨ 126 < c.toNat) :
    addressDecode hrp (addressString hrp ver groups) = .fail .invalidCharacter := by
  obtain ⟨c, hc, hbad⟩ := h
  exact addressDecode_of_fail (stringDecode_unprintable ⟨c, by simp [addressString, stringEncode, hc], hbad⟩)

section
variable (hp : Printable hrp)
include hp

theorem addressDecode_addressString_mixedCase
    (hm : HasUpper (addressString hrp ver groups) ∧ HasLower (addressString hrp ver groups)) :
    addressDecode hrp (addressString hrp ver groups) = .fail .mixedCase :=
  addressDecode_of_fail (stringDecode_mixedCase (printable_stringEncode_iff.2 hp) hm)

variable (hm : ¬ (HasUpper (addressString hrp ver groups) ∧ HasLower (addressString hrp ver groups)))
include hm

/-- The checks of decoding the string that depend on its HRP, its length and its checksum. -/
theorem stringDecode_addressString (u : Variant) :
    stringDecode (addressString hrp ver groups) u =
      failIf (decide (hrp.length < 1)) .emptyHrp
        (failIf (decide (90 < (addressString hrp ver groups).length)) .stringTooLong
          (failIf (!verifyChecksum (lowerString hrp)
              (addressData ver groups ++ (createChecksum hrp (addressData ver groups) (versionVariant ver)).2) u)
            .checksumMismatch (.ok (lowerString hrp, addressData ver groups)))) :=
  stringDecode_stringEncode hp hm u

theorem addressDecode_addressString_emptyHrp (h : hrp = []) :
    addressDecode hrp (addressString hrp ver groups) = .fail .emptyHrp := by
  refine addressDecode_of_fail fun u => ?_
  rw [stringDecode_addressString hp hm, decide_eq_true (by rw [h]; decide), failIf_true]

variable (hne : hrp ≠ [])
include hne

theorem addressDecode_addressString_stringTooLong (h : 90 < (addressString hrp ver groups).length) :
    addressDecode hrp (addressString hrp ver groups) = .fail .stringTooLong := by
  have hpos := List.length_pos_iff.2 hne
  refine addressDecode_of_fail fun u => ?_
  rw [stringDecode_addressString hp hm, decide_eq_false (by omega), failIf_false, decide_eq_true h, failIf_true]

variable (hshort : (addressString hrp ver groups).length ≤ 90)
include hshort

/-- Within the bounds the string's HRP comes back in lowercase, if the checksum verifies over it. -/
theorem stringDecode_addressString_short (u : Variant) :
    stringDecode (addressString hrp ver groups) u = .ok (lowerString hrp, addressData ver groups) ∨
      stringDecode (addressString hrp ver groups) u = .fail .checksumMismatch := by
  have hpos := List.length_pos_iff.2 hne
  rw [stringDecode_addressString hp hm, decide_eq_false (by omega), decide_eq_false (Nat.not_lt.2 hshort), failIf_false,
    failIf_false]
  cases verifyChecksum (lowerString hrp) (addressData ver groups ++
    (createChecksum hrp (addressData ver groups) (versionVariant ver)).2) u with
  | true => exact .inl rfl
  | false => exact .inr rfl

theorem addressDecode_addressString_checksumMismatch (h : ¬ ∃ v r, stringDecode (addressString hrp ver groups) v = .ok r) :
    addressDecode hrp (addressString hrp ver groups) = .fail .checksumMismatch := by
  refine addressDecode_of_fail fun u => ?_
  rcases stringDecode_addressString_short hp hm hne hshort u with hok | hfail
  · exact absurd ⟨u, _, hok⟩ h
  · exact hfail

/-- An HRP with an uppercase letter is not what its string decodes to. -/
theorem addressDecode_addressString_hrpMismatch (hu : HasUpper hrp)
    (h : ∃ v r, stringDecode (addressString hrp ver groups) v = .ok r) :
    addressDecode hrp (addressString hrp ver groups) = .fail .hrpMismatch := by
  obtain ⟨u, r, hr⟩ := h
  rcases stringDecode_addressString_short hp hm hne hshort u with hok | hfail
  · refine addressDecode_hrpMismatch hok fun he => ?_
    obtain ⟨c, hc, hup⟩ := hu
    rw [← he] at hc
    obtain ⟨d, _, rfl⟩ := List.mem_map.1 hc
    exact not_upper_lower d hup
  · rw [hr] at hfail
    cases hfail

end

/-- With an HRP that fits the string decodes under the version's variant. -/
theorem stringDecode_addressString_fits (hp : Printable hrp) (hu : ¬ HasUpper hrp) (hne : hrp ≠ [])
    (hshort : (addressString hrp ver groups).length ≤ 90) :
    stringDecode (addressString hrp ver groups) (versionVariant ver) = .ok (hrp, addressData ver groups) :=
  stringDecode_stringEncode_same hp hu hne hshort

section
variable (hp : Printable hrp) (hu : ¬ HasUpper hrp) (hne : hrp ≠ [])
  (hshort : (addressString hrp ver groups).length ≤ 90) (hver : ver.toNat ≤ 31)
include hp hu hne hshort hver

theorem addressDecode_addressString_invalidVersion (h : 16 < ver.toNat) :
    addressDecode hrp (addressString hrp ver groups) = .fail .invalidVersion :=
  addressDecode_invalidVersion (stringDecode_addressString_fits hp hu hne hshort) (by rwa [toNat_versionSymbol hver])

variable (hg : convertbits prog 8 5 true = .ok groups)
include hg

theorem addressDecode_addressString_invalidProgramLength (hver16 : ver.toNat ≤ 16)
    (h : ¬ VersionAllows ver.toNat prog.length) :
    addressDecode hrp (addressString hrp ver groups) = .fail .invalidProgramLength := by
  rw [addressDecode_checkWitness (stringDecode_addressString_fits hp hu hne hshort) (by rwa [toNat_versionSymbol hver])]
  exact checkWitness_invalidProgramLength (convertbits_symbols_back hg) _ (by rwa [toNat_versionSymbol hver])
    (by rwa [toNat_versionSymbol hver])

theorem addressDecode_addressString_ok (h : VersionAllows ver.toNat prog.length) :
    addressDecode hrp (addressString hrp ver groups) =
      .ok { version := ver.setWidth 5, program := prog, bech32m := ver != 0 } := by
  have hm : ¬ ((ver != 0) = true ↔ (ver.setWidth 5 : Symbol) = 0) := by
    rw [versionSymbol_eq_zero_iff hver, bne_iff_ne]
    tauto
  rw [addressDecode_checkWitness (stringDecode_addressString_fits hp hu hne hshort)
      (by rw [toNat_versionSymbol hver]; exact h.1),
    checkWitness_allowed (convertbits_symbols_back hg) _ (by rwa [toNat_versionSymbol hver]), decide_versionVariant,
    decide_eq_false hm, failIf_false]

end

/-- The failure codes of the self-check (R110), five of R106's codes left out, which it cannot raise. -/
def selfCheckCodes : List FailCode :=
  [.invalidCharacter, .mixedCase, .emptyHrp, .stringTooLong, .checksumMismatch, .hrpMismatch, .invalidVersion,
    .invalidProgramLength]

/-- Each string of R107 is decoded, if version, program and HRP fit, or fails with one of the self-check's codes. -/
theorem addressDecode_addressString_cases (hver : ver.toNat ≤ 31) (hg : convertbits prog 8 5 true = .ok groups) :
    (VersionAllows ver.toNat prog.length ∧ HrpFits hrp prog.length) ∨
      ∃ c ∈ selfCheckCodes, addressDecode hrp (addressString hrp ver groups) = .fail c := by
  by_cases hbad : ∃ c ∈ hrp, c.toNat < 33 ∨ 126 < c.toNat
  · exact .inr ⟨_, by decide, addressDecode_addressString_unprintable hbad⟩
  have hp : Printable hrp := any_unprintable_eq_false_iff.1 (Bool.eq_false_iff.2 (mt any_unprintable_iff.1 hbad))
  by_cases hm : HasUpper (addressString hrp ver groups) ∧ HasLower (addressString hrp ver groups)
  · exact .inr ⟨_, by decide, addressDecode_addressString_mixedCase hp hm⟩
  by_cases hne : hrp = []
  · exact .inr ⟨_, by decide, addressDecode_addressString_emptyHrp hp hm hne⟩
  by_cases hlong : 90 < (addressString hrp ver groups).length
  · exact .inr ⟨_, by decide, addressDecode_addressString_stringTooLong hp hm hne hlong⟩
  have hshort := Nat.le_of_not_lt hlong
  by_cases hu : HasUpper hrp
  · by_cases hdec : ∃ v r, stringDecode (addressString hrp ver groups) v = .ok r
    · exact .inr ⟨_, by decide, addressDecode_addressString_hrpMismatch hp hm hne hshort hu hdec⟩
    · exact .inr ⟨_, by decide, addressDecode_addressString_checksumMismatch hp hm hne hshort hdec⟩
  by_cases hver16 : 16 < ver.toNat
  · exact .inr ⟨_, by decide, addressDecode_addressString_invalidVersion hp hu hne hshort hver hver16⟩
  by_cases hallow : VersionAllows ver.toNat prog.length
  · rw [addressString_length, (convertbits_8to5_iff.1 hg).length_8to5_pad] at hshort
    exact .inl ⟨hallow, hp, not_hasUpper_iff.1 hu, hne, hshort⟩
  · exact .inr ⟨_, by decide,
      addressDecode_addressString_invalidProgramLength hp hu hne hshort hver hg (Nat.le_of_not_lt hver16) hallow⟩

/-- With version, program and HRP that fit the self-check gives version, program and M back (R108 law 1). -/
theorem addressDecode_addressString_fits (hg : convertbits prog 8 5 true = .ok groups)
    (hallow : VersionAllows ver.toNat prog.length) (hfits : HrpFits hrp prog.length) :
    addressDecode hrp (addressString hrp ver groups) =
      .ok { version := ver.setWidth 5, program := prog, bech32m := ver != 0 } := by
  obtain ⟨hp, hu, hne, hshort⟩ := hfits
  have hver : ver.toNat ≤ 31 := hallow.1.trans (by decide)
  refine addressDecode_addressString_ok hp (not_hasUpper_iff.2 hu) hne ?_ hver hg hallow
  rwa [addressString_length, (convertbits_8to5_iff.1 hg).length_8to5_pad]

end

/-- Settles O58: the string decodes to what was encoded, or, with an HRP too long for it, is too long. -/
theorem addressCodecRoundTrips : Obligations.AddressCodecRoundTrips := by
  constructor
  · intro hrp ver prog hallow hfits
    obtain ⟨groups, hg, hre⟩ := convertbits_8to5_pad prog
    have hdec := addressDecode_addressString_fits hg hallow hfits
    refine ⟨addressString hrp ver groups, ?_, hdec, ?_⟩
    · rw [addressEncode_eq (hallow.1.trans (by decide)) hg, hdec, Res.bind_ok]
    · rw [addressString_length, hre.length_8to5_pad]
  · intro hrp ver prog hallow hp hu hne hlong
    obtain ⟨groups, hg, hre⟩ := convertbits_8to5_pad prog
    have hm : ¬ (HasUpper (addressString hrp ver groups) ∧ HasLower (addressString hrp ver groups)) :=
      fun h => not_hasUpper_iff.2 hu (hasUpper_stringEncode_iff.1 h.1)
    rw [addressEncode_eq (hallow.1.trans (by decide)) hg, addressDecode_addressString_stringTooLong hp hm hne,
      Res.bind_fail]
    rwa [addressString_length, hre.length_8to5_pad]

end Sys2Proof.Machine
end

