-- ==== Sys2Proof/Proofs/ReportedCodes.lean ====
section
/-! The failure codes a command can report (60_exceptions.md R113, R114): the codes each step of a rule can raise, and that
the steps of a rule raise no other. -/

namespace Sys2Proof.Machine

/-- Every failure of the result has a code among these numbers. -/
def FailsIn {α : Type} (r : Res α) (codes : List Nat) : Prop := ∀ c, r = .fail c → (failNumber c).toNat ∈ codes

/-! ### The codes of a rule are those of its steps -/

section
variable {α β : Type} {codes : List Nat}

theorem failsIn_ok (a : α) : FailsIn (.ok a) codes := fun _ h => by cases h

theorem failsIn_fail {c : FailCode} (h : (failNumber c).toNat ∈ codes) : FailsIn (.fail c : Res α) codes :=
  fun _ he => by cases he; exact h

theorem FailsIn.bind {r : Res α} {f : α → Res β} (hr : FailsIn r codes) (hf : ∀ a, r = .ok a → FailsIn (f a) codes) :
    FailsIn (r.bind f) codes := by
  intro c h
  rcases Res.bind_eq_fail.1 h with hc | ⟨a, ha, hc⟩
  · exact hr c hc
  · exact hf a ha c hc

theorem FailsIn.failIf {bad : Bool} {c : FailCode} {k : Res α} (hc : (failNumber c).toNat ∈ codes)
    (hk : bad = false → FailsIn k codes) : FailsIn (failIf bad c k) codes := by
  intro d h
  rcases failIf_eq_fail.1 h with ⟨_, rfl⟩ | ⟨hb, hd⟩
  · exact hc
  · exact hk hb d hd

theorem FailsIn.mono {r : Res α} {codes' : List Nat} (h : FailsIn r codes) (hsub : codes ⊆ codes') : FailsIn r codes' :=
  fun c hc => hsub (h c hc)

end

/-! ### The operands -/

section
variable {codes : List Nat} (q : InFlight)

theorem hrpOperand_failsIn (h : 18 ∈ codes) : FailsIn (hrpOperand q) codes := .failIf h fun _ => failsIn_ok _

theorem inputOperand_failsIn (h : 18 ∈ codes) : FailsIn (inputOperand q) codes := .failIf h fun _ => failsIn_ok _

theorem bothOperands_failsIn (h : 18 ∈ codes) {f : List Byte → List Byte → Res Output}
    (hf : ∀ hrp input, FailsIn (f hrp input) codes) :
    FailsIn ((hrpOperand q).bind fun hrp => (inputOperand q).bind fun input => f hrp input) codes :=
  .bind (hrpOperand_failsIn q h) fun hrp _ => .bind (inputOperand_failsIn q h) fun input _ => hf hrp input

theorem variantOperand_failsIn (h : 6 ∈ codes) (var : BitVec 2) : FailsIn (variantOperand var) codes := by
  unfold variantOperand
  split
  · exact failsIn_ok _
  · exact failsIn_ok _
  · exact failsIn_fail h

theorem symbolOperand_failsIn (h : 16 ∈ codes) (cells : List Byte) : FailsIn (symbolOperand cells) codes :=
  .failIf h fun _ => failsIn_ok _

end

/-! ### The converters and the codecs -/

theorem convertbits_8to5_failsIn (values : List Byte) (pad : Bool) : FailsIn (convertbits values 8 5 pad) [15] := by
  intro c h
  rw [(convertbits_8to5_fail h).2]
  decide

theorem convertbits_5to8_failsIn (values : List Byte) (pad : Bool) : FailsIn (convertbits values 5 8 pad) [10, 15] := by
  intro c h
  by_cases hs : AllSymbols values
  · rw [(convertbits_5to8_fail hs h).2]
    decide
  · rw [convertbits_5to8_overflow hs] at h
    cases h
    decide

theorem charsToSymbols_failsIn (cs : List Byte) : FailsIn (charsToSymbols cs) [1] := by
  intro c h
  rw [(charsToSymbols_eq_fail_iff.1 h).1]
  decide

/-- The codes of R101. -/
theorem stringDecode_failsIn (s : List Byte) (v : Variant) : FailsIn (stringDecode s v) [1, 2, 3, 11, 12, 4, 5] := by
  refine .failIf (by decide) fun _ => .failIf (by decide) fun _ => ?_
  rcases separator_split (lowerString s) with hno | ⟨h, tail, hs, hsep⟩
  · rw [decodeLowered_noSeparator hno]
    exact failsIn_fail (by decide)
  · rw [hs, decodeLowered_split hsep]
    exact .failIf (by decide) fun _ => .failIf (by decide) fun _ => .failIf (by decide) fun _ =>
      .bind ((charsToSymbols_failsIn tail).mono (by decide)) fun _ _ => .failIf (by decide) fun _ => failsIn_ok _

theorem decodeEither_failsIn (s : List Byte) : FailsIn (decodeEither s) [1, 2, 3, 11, 12, 4, 5] :=
  fun c h => stringDecode_failsIn s .bech32m c (stringDecode_of_decodeEither_fail h)

theorem checkWitness_failsIn {ver : Symbol} (hver : ver.toNat ≤ 16) (rest : List Symbol) (m : Bool) :
    FailsIn (checkWitness ver rest m) [15, 8, 9] := by
  cases hconv : convertbits (symbolCells rest) 5 8 false with
  | fail c =>
    rw [checkWitness_invalidPadding hconv]
    exact failsIn_fail (by decide)
  | ok p =>
    by_cases hallow : VersionAllows ver.toNat p.length
    · rw [checkWitness_allowed hconv m hallow]
      exact .failIf (by decide) fun _ => failsIn_ok _
    · rw [checkWitness_invalidProgramLength hconv m hver hallow]
      exact failsIn_fail (by decide)

/-- The codes of R106. -/
theorem addressDecode_failsIn (eh s : List Byte) :
    FailsIn (addressDecode eh s) [1, 2, 3, 11, 12, 4, 5, 13, 14, 7, 15, 8, 9] := by
  refine .bind ((decodeEither_failsIn s).mono (by decide)) fun r _ => .failIf (by decide) fun _ => ?_
  split
  · exact failsIn_fail (by decide)
  · exact .failIf (by decide) fun hver =>
      (checkWitness_failsIn (Nat.le_of_not_lt (of_decide_eq_false hver)) _ _).mono (by decide)

theorem selfCheckCodes_numbers : ∀ c ∈ selfCheckCodes, (failNumber c).toNat ∈ [7, 1, 2, 11, 4, 5, 13, 8] := by decide

/-- The codes of R107's self-check (R110): those of R106 that its own string can raise. -/
theorem addressEncode_failsIn (hrp : List Byte) (ver : Byte) (prog : List Byte) :
    FailsIn (addressEncode hrp ver prog) [7, 1, 2, 11, 4, 5, 13, 8] := by
  by_cases hver : ver.toNat ≤ 31
  · obtain ⟨groups, hg, _⟩ := convertbits_8to5_pad prog
    rw [addressEncode_eq hver hg]
    rcases addressDecode_addressString_cases (hrp := hrp) hver hg with ⟨hallow, hfits⟩ | ⟨c, hc, hfail⟩
    · rw [addressDecode_addressString_fits hg hallow hfits]
      exact failsIn_ok _
    · rw [hfail]
      exact failsIn_fail (selfCheckCodes_numbers c hc)
  · rw [addressEncode_invalidVersion (by omega)]
    exact failsIn_fail (by decide)

/-! ### The commands -/

theorem ruleOf_failsIn (i : Instr) (q : InFlight) : FailsIn (ruleOf i q) (reportableCodes i) := by
  cases i with
  | nop => exact failsIn_ok _
  | lutS2c imm =>
    show FailsIn (lutS2cRule imm q) [16]
    exact .failIf (by decide) fun _ => failsIn_ok _
  | lutC2s imm => exact failsIn_ok _
  | hrpExpand =>
    exact .bind (hrpOperand_failsIn q (by decide)) fun _ _ => .failIf (by decide) fun _ => failsIn_ok _
  | polymod =>
    exact .bind (inputOperand_failsIn q (by decide)) fun _ _ =>
      .bind (symbolOperand_failsIn (by decide) _) fun _ _ => failsIn_ok _
  | csumCreate var =>
    show FailsIn (csumCreateRule var q) [18, 6, 16]
    exact bothOperands_failsIn q (by decide) fun _ _ => .bind (variantOperand_failsIn (by decide) var) fun _ _ =>
      .bind (symbolOperand_failsIn (by decide) _) fun _ _ => failsIn_ok _
  | csumVerify var =>
    show FailsIn (csumVerifyRule var q) [18, 6, 16]
    exact bothOperands_failsIn q (by decide) fun _ _ => .bind (variantOperand_failsIn (by decide) var) fun _ _ =>
      .bind (symbolOperand_failsIn (by decide) _) fun _ _ => failsIn_ok _
  | conv8to5 pad =>
    show FailsIn (conv8to5Rule pad q) [18, 15, 17]
    exact .bind (inputOperand_failsIn q (by decide)) fun values _ =>
      .bind ((convertbits_8to5_failsIn values pad).mono (by decide)) fun _ _ => .failIf (by decide) fun _ => failsIn_ok _
  | conv5to8 pad =>
    show FailsIn (conv5to8Rule pad q) [18, 10, 15]
    exact .bind (inputOperand_failsIn q (by decide)) fun values _ =>
      .bind ((convertbits_5to8_failsIn values pad).mono (by decide)) fun _ _ => failsIn_ok _
  | strEncode var =>
    show FailsIn (strEncodeRule var q) [18, 6, 16, 17]
    exact bothOperands_failsIn q (by decide) fun _ _ => .bind (variantOperand_failsIn (by decide) var) fun _ _ =>
      .bind (symbolOperand_failsIn (by decide) _) fun _ _ => .failIf (by decide) fun _ => failsIn_ok _
  | strDecode var =>
    show FailsIn (strDecodeRule var q) [18, 6, 1, 2, 3, 11, 12, 4, 5]
    exact .bind (inputOperand_failsIn q (by decide)) fun str _ => .bind (variantOperand_failsIn (by decide) var) fun v _ =>
      .bind ((stringDecode_failsIn str v).mono (by decide)) fun _ _ => failsIn_ok _
  | addrEncode imm =>
    show FailsIn (addrEncodeRule imm q) [18, 7, 1, 2, 11, 4, 5, 13, 8]
    exact bothOperands_failsIn q (by decide) fun h prog =>
      .bind ((addressEncode_failsIn h imm prog).mono (by decide)) fun _ _ => failsIn_ok _
  | addrDecode =>
    exact bothOperands_failsIn q (by decide) fun h str =>
      .bind ((addressDecode_failsIn h str).mono (by decide)) fun _ _ => failsIn_ok _

/-- Settles O31: a command that completes with FAIL = 1 reports the number of the code its rule raised. -/
theorem commandsReportListedCodes : Obligations.CommandsReportListedCodes := by
  intro i s t h hfail
  obtain ⟨q, hq, rfl⟩ := exec_eq_next.1 h
  cases hr : ruleOf i q with
  | ok o =>
    rw [hr] at hfail
    cases hfail
  | fail c => exact ruleOf_failsIn i q c hr

end Sys2Proof.Machine
end

