-- ==== Sys2Proof/Proofs/Commands.lean ====
section
/-! The thirteen commands (30_encoding.md, 40_command_common.md and each command's own section): the frame all of them keep,
the checks before a command's own rule, and what each one's rule answers on the snapshot. -/

namespace Sys2Proof.Machine

/-! ### What all commands share -/

/-- Settles O29: a meaning answers a next state exactly for a command in flight. -/
theorem onlyAcceptedCommandsComplete : Obligations.OnlyAcceptedCommandsComplete := by
  intro i s
  rw [busy_iff_some]
  constructor
  · rintro ⟨t, ht⟩
    obtain ⟨q, hq, _⟩ := exec_eq_next.1 ht
    exact ⟨q, hq⟩
  · rintro ⟨q, hq⟩
    exact ⟨_, exec_some hq i⟩

/-- A completion sets exactly one of OK and FAIL (R20, R21). -/
theorem complete_ok_eq_not_fail (s : State) (r : Res Output) :
    (complete s r).status.ok = !(complete s r).status.fail := by
  cases r <;> rfl

/-- Settles O28: every command ends with a completion, which keeps the inputs. -/
theorem commandsKeepTheInputs : Obligations.CommandsKeepTheInputs := by
  intro i s t h
  obtain ⟨q, _, rfl⟩ := exec_eq_next.1 h
  exact ⟨inputsKept_complete s _, complete_busy s _, complete_done s _, complete_ok_eq_not_fail s _⟩

/-! ### The checks before a command's own rule (R66 checks 2 and 3) -/

section
variable {q : InFlight}

theorem hrpOperand_fits (h : q.hlen.toNat ≤ 256) : hrpOperand q = .ok q.hrp := hrpOperand_of_le h

theorem inputOperand_fits (h : q.ilen.toNat ≤ 256) : inputOperand q = .ok q.input := inputOperand_of_le h

theorem InFlight.length_hrp (q : InFlight) : q.hrp.length = q.hlen.toNat := bufPrefix_length _ _

theorem InFlight.length_input (q : InFlight) : q.input.length = q.ilen.toNat := bufPrefix_length _ _

variable {f : List Byte → List Byte → Res Output}

theorem bothOperands_fit (hh : q.hlen.toNat ≤ 256) (hi : q.ilen.toNat ≤ 256) :
    ((hrpOperand q).bind fun hrp => (inputOperand q).bind fun input => f hrp input) = f q.hrp q.input := by
  rw [hrpOperand_fits hh, Res.bind_ok, inputOperand_fits hi, Res.bind_ok]

theorem bothOperands_lengthError (h : 256 < q.hlen.toNat ∨ 256 < q.ilen.toNat) :
    ((hrpOperand q).bind fun hrp => (inputOperand q).bind fun input => f hrp input) = .fail .lengthError := by
  by_cases hh : 256 < q.hlen.toNat
  · rw [hrpOperand_of_gt hh, Res.bind_fail]
  · rw [hrpOperand_fits (by omega), Res.bind_ok, inputOperand_of_gt (h.resolve_left hh), Res.bind_fail]

theorem inputOperand_lengthError {f : List Byte → Res Output} (h : 256 < q.ilen.toNat) :
    (inputOperand q).bind f = .fail .lengthError := by
  rw [inputOperand_of_gt h, Res.bind_fail]

end

/-- A length out of range in a register the command reads fails before every other check (R66 check 2). -/
theorem ruleOf_lengthError {i : Instr} {q : InFlight}
    (h : (readsHrpLen i = true ∧ 256 < q.hlen.toNat) ∨ (readsInLen i = true ∧ 256 < q.ilen.toNat)) :
    ruleOf i q = .fail .lengthError := by
  cases i with
  | nop | lutS2c | lutC2s => simp [readsHrpLen, readsInLen] at h
  | hrpExpand =>
    have hh : 256 < q.hlen.toNat := by simpa [readsHrpLen, readsInLen] using h
    show hrpExpandRule q = _
    rw [hrpExpandRule, hrpOperand_of_gt hh, Res.bind_fail]
  | polymod | conv8to5 | conv5to8 | strDecode => exact inputOperand_lengthError (by simpa [readsHrpLen, readsInLen] using h)
  | csumCreate | csumVerify | strEncode | addrEncode | addrDecode =>
    exact bothOperands_lengthError (by simpa [readsHrpLen, readsInLen] using h)

/-- A VAR that names no variant fails once the lengths are in range (R66 check 3). -/
theorem ruleOf_unknownVariant {i : Instr} {q : InFlight} {var : BitVec 2} (hvar : varUsed i = some var)
    (hge : 2 ≤ var.toNat) (hh : readsHrpLen i = true → q.hlen.toNat ≤ 256) (hi : readsInLen i = true → q.ilen.toNat ≤ 256) :
    ruleOf i q = .fail .unknownVariant := by
  cases i with
  | nop | lutS2c | lutC2s | hrpExpand | polymod | conv8to5 | conv5to8 | addrEncode | addrDecode => cases hvar
  | csumCreate | csumVerify | strEncode =>
    obtain rfl := Option.some.inj hvar
    refine (bothOperands_fit (hh rfl) (hi rfl)).trans ?_
    rw [variantOperand_of_ge hge, Res.bind_fail]
  | strDecode =>
    obtain rfl := Option.some.inj hvar
    show strDecodeRule _ q = _
    rw [strDecodeRule, inputOperand_fits (hi rfl), Res.bind_ok, variantOperand_of_ge hge, Res.bind_fail]

/-- Settles O30, each check by the rule's first failing step. -/
theorem lengthsThenVariantAreChecked : Obligations.LengthsThenVariantAreChecked := by
  intro i s q hq
  exact ⟨fun h => completesFail_of_rule hq (ruleOf_lengthError h),
    fun var hvar hge hh hi => completesFail_of_rule hq (ruleOf_unknownVariant hvar hge hh hi)⟩

/-! ### Commands with a free field that has no meaning -/

theorem namesVariant_of_variantOperand {var : BitVec 2} {v : Variant} (h : variantOperand var = .ok v) :
    namesVariant var = true := by
  rw [namesVariant, decide_eq_true_eq]
  by_contra hc
  rw [variantOperand_of_ge (by omega)] at h
  cases h

/-- `addressEncode` succeeds only with version, program and HRP that fit (R107). -/
theorem allowed_of_addressEncode {hrp prog : List Byte} {ver : Byte} {r : List Byte × Bool}
    (h : addressEncode hrp ver prog = .ok r) : VersionAllows ver.toNat prog.length ∧ HrpFits hrp prog.length := by
  by_cases hver : ver.toNat ≤ 31
  · obtain ⟨groups, hg, _⟩ := convertbits_8to5_pad prog
    rcases addressDecode_addressString_cases (hrp := hrp) hver hg with hfits | ⟨c, _, hfail⟩
    · exact hfits
    · rw [addressEncode_eq hver hg, hfail] at h
      cases h
  · rw [addressEncode_invalidVersion (by omega)] at h
    cases h

/-- An `Ok` command has a meaning in each of its free fields. -/
theorem wellFormed_of_ruleOf_ok {i : Instr} {q : InFlight} {o : Output} (h : ruleOf i q = .ok o) : i.wellFormed = true := by
  cases i with
  | nop | lutC2s | hrpExpand | polymod | conv8to5 | conv5to8 | addrDecode => rfl
  | lutS2c imm =>
    obtain ⟨hle, _⟩ := failIf_eq_ok.1 h
    simpa [Instr.wellFormed] using hle
  | csumCreate | csumVerify | strEncode =>
    obtain ⟨_, _, h⟩ := Res.bind_eq_ok.1 h
    obtain ⟨_, _, h⟩ := Res.bind_eq_ok.1 h
    obtain ⟨v, hv, _⟩ := Res.bind_eq_ok.1 h
    exact namesVariant_of_variantOperand hv
  | strDecode =>
    obtain ⟨_, _, h⟩ := Res.bind_eq_ok.1 h
    obtain ⟨v, hv, _⟩ := Res.bind_eq_ok.1 h
    exact namesVariant_of_variantOperand hv
  | addrEncode imm =>
    obtain ⟨_, _, h⟩ := Res.bind_eq_ok.1 h
    obtain ⟨_, _, h⟩ := Res.bind_eq_ok.1 h
    obtain ⟨r, hr, _⟩ := Res.bind_eq_ok.1 h
    obtain ⟨⟨hver, _⟩, _⟩ := allowed_of_addressEncode hr
    simpa [Instr.wellFormed] using hver

/-- Settles O32: the rule of such a command does not answer `Ok`. -/
theorem illFormedCommandsFail : Obligations.IllFormedCommandsFail := by
  intro i s t hill h
  obtain ⟨q, _, rfl⟩ := exec_eq_next.1 h
  cases hr : ruleOf i q with
  | ok o =>
    rw [wellFormed_of_ruleOf_ok hr] at hill
    cases hill
  | fail c => exact ⟨rfl, rfl⟩

/-! ### NOP and the charset LUT -/

/-- Settles O33: the rule of NOP. -/
theorem nopCompletes : Obligations.NopCompletes := by
  intro s hb
  obtain ⟨q, hq⟩ := busy_iff_some.1 hb
  exact completesOk_of_rule (i := .nop) hq rfl

/-- A word below 256 with a flag in bit 8 is their sum (R28, R78). -/
theorem or_flag_eq {x : Word} (hx : x.toNat < 256) (b : Bool) :
    x ||| ((BitVec.ofBool b).setWidth 32 <<< 8) = BitVec.ofNat 32 (x.toNat + if b then 256 else 0) := by
  cases b with
  | false => simp
  | true =>
    apply BitVec.eq_of_toNat_eq
    have hor : 1 <<< 8 ||| x.toNat = 256 + x.toNat := (Nat.shiftLeft_add_eq_or_of_lt (i := 8) hx 1).symm
    rw [BitVec.toNat_or, BitVec.toNat_ofNat, Nat.or_comm]
    refine hor.trans ?_
    rw [if_pos rfl, Nat.mod_eq_of_lt (by omega), Nat.add_comm]

theorem toNat_setWidth_symbol (s : Symbol) : (s.setWidth 32 : Word).toNat = s.toNat :=
  BitVec.toNat_setWidth_of_le (by decide)

theorem toNat_setWidth_byte (b : Byte) : (b.setWidth 32 : Word).toNat = b.toNat :=
  BitVec.toNat_setWidth_of_le (by decide)

/-- LUT_C2S of a character with a position (R78). -/
theorem lutC2sRule_found {imm : Byte} {s : Symbol} (h : charToSymbol imm = some s) (q : InFlight) :
    lutC2sRule imm q = .ok { result := BitVec.ofNat 32 (256 + s.toNat), out := [], out2 := [] } := by
  have hs := s.isLt
  simp only [lutC2sRule, charsetLut, h, Option.getD_some, Option.isSome_some]
  rw [or_flag_eq (by rw [toNat_setWidth_symbol]; omega), toNat_setWidth_symbol, if_pos rfl, Nat.add_comm]

theorem lutC2sRule_notFound {imm : Byte} (h : charToSymbol imm = none) (q : InFlight) :
    lutC2sRule imm q = .ok { result := 0, out := [], out2 := [] } := by
  simp [lutC2sRule, charsetLut, h]

/-- Settles O34: an entry of the charset is the character of its position, and found there. -/
theorem lutCommandsLookUp : Obligations.LutCommandsLookUp := by
  intro s imm hb
  obtain ⟨q, hq⟩ := busy_iff_some.1 hb
  have hsymbol : ∀ {k : Nat} {c : Byte}, charset[k]? = some c →
      k < 32 ∧ symbolToChar (BitVec.ofNat 5 k) = c := by
    intro k c hc
    have hk : k < 32 := (List.getElem?_eq_some_iff.1 hc).1
    refine ⟨hk, Option.some.inj ?_⟩
    rw [← charset_getElem?, BitVec.toNat_ofNat, Nat.mod_eq_of_lt hk, hc]
  refine ⟨fun c hc => ?_, fun hle => ?_, fun hgt => ?_, fun k hk => ?_, fun hno => ?_⟩
  · obtain ⟨hlt, hchar⟩ := hsymbol hc
    refine completesOk_of_rule (i := .lutS2c imm) (o := ⟨c.setWidth 32, [], []⟩) hq ?_
    rw [BitVec.ofNat_toNat] at hchar
    show lutS2cRule imm q = _
    rw [lutS2cRule, decide_eq_false (by omega), failIf_false, charsetLut, hchar]
  · rw [List.getElem?_eq_getElem (show imm.toNat < charset.length from Nat.lt_succ_of_le hle), Option.isSome_some]
  · refine completesFail_of_rule (i := .lutS2c imm) (c := .invalidSymbol) hq ?_
    show lutS2cRule imm q = _
    rw [lutS2cRule, decide_eq_true hgt, failIf_true]
  · obtain ⟨hlt, hchar⟩ := hsymbol hk
    have hrule := lutC2sRule_found (charToSymbol_eq_some_iff.2 hchar) q
    rw [BitVec.toNat_ofNat, Nat.mod_eq_of_lt hlt] at hrule
    exact completesOk_of_rule (i := .lutC2s imm) hq hrule
  · exact completesOk_of_rule (i := .lutC2s imm) hq (lutC2sRule_notFound (charToSymbol_eq_none_iff_not_mem.2 hno) q)

end Sys2Proof.Machine
end

