-- ==== Sys2Proof/Proofs/ChecksumAndConverterCommands.lean ====
section
/-! The commands of the checksum engine and of the converters (42_polymod_checksum.md R87 to R91, 43_bit_converters.md R96,
R97): what each rule answers on the snapshot. -/

namespace Sys2Proof.Machine

/-! ### Operands in range -/

theorem variantOperand_of_namesVariant {var : BitVec 2} {v : Variant} (h : NamesVariant var v) :
    variantOperand var = .ok v := by
  rcases h with ⟨rfl, rfl⟩ | ⟨rfl, rfl⟩
  · rfl
  · rfl

theorem symbolOperand_of_allSymbols {cells : List Byte} (h : AllSymbols cells) :
    symbolOperand cells = .ok (cells.map (BitVec.setWidth 5)) :=
  symbolOperand_of_all h

theorem symbolOperand_of_not_allSymbols {cells : List Byte} (h : ¬ AllSymbols cells) :
    symbolOperand cells = .fail .invalidSymbol :=
  symbolOperand_of_not (by simpa [AllSymbols] using h)

/-! ### HRP_EXPAND and POLYMOD -/

theorem toNat_highPart (c : Byte) : ((c >>> 5).setWidth 5 : Symbol).toNat = c.toNat / 32 := by
  rw [BitVec.toNat_setWidth, BitVec.toNat_ushiftRight, Nat.shiftRight_eq_div_pow]
  omega

theorem toNat_lowPart (c : Byte) : ((c &&& 31).setWidth 5 : Symbol).toNat = c.toNat % 32 := by
  have hand : (c &&& 31).toNat = c.toNat % 2 ^ 5 := Nat.and_two_pow_sub_one_eq_mod c.toNat 5
  rw [BitVec.toNat_setWidth, hand]
  omega

/-- The expansion as output cells (R44, R79). -/
theorem symbolCells_hrpExpand (h : List Byte) :
    symbolCells (hrpExpand h) =
      h.map (fun c => BitVec.ofNat 8 (c.toNat / 32)) ++ [0] ++ h.map (fun c => BitVec.ofNat 8 (c.toNat % 32)) := by
  have hcell : ∀ s : Symbol, s.setWidth 8 = BitVec.ofNat 8 s.toNat := fun s => (BitVec.ofNat_toNat 8 s).symm
  simp only [symbolCells, hrpExpand, List.map_append, List.map_map, Function.comp_def, hcell, toNat_highPart, toNat_lowPart]
  rfl

/-- Settles O41: the expansion has `2 * HRP_LEN + 1` symbols. -/
theorem hrpExpandCommand : Obligations.HrpExpandCommand := by
  intro s q hq
  have hrule : q.hlen.toNat ≤ 256 → ruleOf .hrpExpand q =
      failIf (decide (256 < 2 * q.hlen.toNat + 1)) .outputOverflow
        (.ok { result := 0, out := symbolCells (hrpExpand q.hrp), out2 := [] }) := by
    intro hle
    show hrpExpandRule q = _
    rw [hrpExpandRule, hrpOperand_fits hle, Res.bind_ok, q.length_hrp, capacity]
  refine ⟨fun hle => ?_, fun hgt hle => ?_, fun hgt => ?_⟩
  · rw [← symbolCells_hrpExpand]
    refine completesOk_of_rule (o := ⟨0, symbolCells (hrpExpand q.hrp), []⟩) hq ?_
    rw [hrule (by omega), decide_eq_false (by omega), failIf_false]
  · refine completesFail_of_rule (c := .outputOverflow) hq ?_
    rw [hrule hle, decide_eq_true (by omega), failIf_true]
  · exact completesFail_of_rule (c := .lengthError) hq (ruleOf_lengthError (.inl ⟨rfl, hgt⟩))

/-- Settles O42: the length, then the symbols, then the fold. -/
theorem polymodCommand : Obligations.PolymodCommand := by
  intro s q hq
  have hrule : q.ilen.toNat ≤ 256 → ruleOf .polymod q =
      (symbolOperand q.input).bind fun values => .ok { result := polymod values, out := [], out2 := [] } := by
    intro hle
    show polymodRule q = _
    rw [polymodRule, inputOperand_fits hle, Res.bind_ok]
  refine ⟨fun hle hs => ?_, fun hle hs => ?_, fun hgt => ?_⟩
  · refine completesOk_of_rule (o := ⟨polymod (q.input.map (BitVec.setWidth 5)), [], []⟩) hq ?_
    rw [hrule hle, symbolOperand_of_allSymbols hs, Res.bind_ok]
  · refine completesFail_of_rule (c := .invalidSymbol) hq ?_
    rw [hrule hle, symbolOperand_of_not_allSymbols hs, Res.bind_fail]
  · exact completesFail_of_rule (c := .lengthError) hq (ruleOf_lengthError (.inr ⟨rfl, hgt⟩))

/-! ### CSUM_CREATE and CSUM_VERIFY -/

section
variable {q : InFlight} {f : List Byte → Variant → List Symbol → Res Output}

/-- A rule that reads an HRP, an input, a variant and symbols, with all of them in range (R66, R87). -/
theorem codecOperands_ok (hh : q.hlen.toNat ≤ 256) (hi : q.ilen.toNat ≤ 256) {var : BitVec 2} {v : Variant}
    (hv : NamesVariant var v) (hs : AllSymbols q.input) :
    ((hrpOperand q).bind fun h => (inputOperand q).bind fun raw => (variantOperand var).bind fun v =>
      (symbolOperand raw).bind fun data => f h v data) = f q.hrp v (q.input.map (BitVec.setWidth 5)) := by
  rw [bothOperands_fit hh hi, variantOperand_of_namesVariant hv, Res.bind_ok, symbolOperand_of_allSymbols hs, Res.bind_ok]

theorem codecOperands_invalidSymbol (hh : q.hlen.toNat ≤ 256) (hi : q.ilen.toNat ≤ 256) {var : BitVec 2} {v : Variant}
    (hv : NamesVariant var v) (hs : ¬ AllSymbols q.input) :
    ((hrpOperand q).bind fun h => (inputOperand q).bind fun raw => (variantOperand var).bind fun v =>
      (symbolOperand raw).bind fun data => f h v data) = .fail .invalidSymbol := by
  rw [bothOperands_fit hh hi, variantOperand_of_namesVariant hv, Res.bind_ok, symbolOperand_of_not_allSymbols hs,
    Res.bind_fail]

end

/-- The six groups of a checksum word as output cells (R84). -/
theorem symbolCells_checksumGroups (m : Word) :
    symbolCells (checksumGroups m) = (List.range 6).map fun p => BitVec.ofNat 8 (m.toNat / 2 ^ (5 * (5 - p)) % 32) := by
  rw [symbolCells, checksumGroups, List.map_map]
  refine List.map_congr_left fun p _ => ?_
  show (wordDigit m (5 * (5 - p))).setWidth 8 = _
  rw [← BitVec.ofNat_toNat, toNat_wordDigit]
  rfl

/-- Settles O43: RESULT is the checksum word, BUF_O its digits. -/
theorem csumCreateCommand : Obligations.CsumCreateCommand := by
  intro s q var v hq hh hi hv
  refine ⟨fun hs => ⟨createWord q.hrp (q.input.map (BitVec.setWidth 5)) v, rfl, ?_⟩, fun hs => ?_⟩
  · rw [← symbolCells_checksumGroups]
    exact completesOk_of_rule (i := .csumCreate var) hq (codecOperands_ok hh hi hv hs)
  · exact completesFail_of_rule (i := .csumCreate var) (c := .invalidSymbol) hq (codecOperands_invalidSymbol hh hi hv hs)

/-- Settles O44: RESULT says whether the polymod is the variant's constant. -/
theorem csumVerifyCommand : Obligations.CsumVerifyCommand := by
  intro s q var v hq hh hi hv
  have hok : AllSymbols q.input → ruleOf (.csumVerify var) q =
      .ok ⟨if verifyChecksum q.hrp (q.input.map (BitVec.setWidth 5)) v then 1 else 0, [], []⟩ :=
    codecOperands_ok hh hi hv
  refine ⟨fun hs hsum => ?_, fun hs hsum => ?_, fun hs => ?_⟩
  · have hrule := hok hs
    rw [(verifyChecksum_iff _ _ _).2 hsum] at hrule
    exact completesOk_of_rule hq hrule
  · have hrule := hok hs
    rw [Bool.eq_false_iff.2 (mt (verifyChecksum_iff _ _ _).1 hsum)] at hrule
    exact completesOk_of_rule hq hrule
  · exact completesFail_of_rule (i := .csumVerify var) (c := .invalidSymbol) hq (codecOperands_invalidSymbol hh hi hv hs)

/-! ### The converters -/

section
variable {q : InFlight} (hi : q.ilen.toNat ≤ 256) (pad : Bool)
include hi

theorem ruleOf_conv8to5 :
    ruleOf (.conv8to5 pad) q = (convertbits q.input 8 5 pad).bind fun out =>
      failIf (decide (256 < out.length)) .outputOverflow (.ok { result := 0, out := out, out2 := [] }) := by
  show conv8to5Rule pad q = _
  rw [conv8to5Rule, inputOperand_fits hi, Res.bind_ok, capacity]

theorem ruleOf_conv5to8 :
    ruleOf (.conv5to8 pad) q = (convertbits q.input 5 8 pad).bind fun out =>
      .ok { result := 0, out := out, out2 := [] } := by
  show conv5to8Rule pad q = _
  rw [conv5to8Rule, inputOperand_fits hi, Res.bind_ok]

end

/-- 160 bytes regroup to at most 256 symbols, and 161 to more, with padding or without (R96). -/
theorem Regroups.overflow_8to5_iff {pad : Bool} {values out : List Byte} (h : Regroups 8 5 pad values out) :
    256 < out.length ↔ 160 < values.length := by
  cases pad with
  | true =>
    rw [h.length_8to5_pad]
    omega
  | false =>
    rw [h.length_8to5_noPad]
    omega

section
variable {s : State} {q : InFlight} (hq : s.inflight = some q) {pad : Bool} {out : List Byte}
include hq

theorem conv8to5_completesOk (hi : q.ilen.toNat ≤ 160) (h : Regroups 8 5 pad q.input out) :
    CompletesOk (.conv8to5 pad) s 0 out [] := by
  have hfits : ¬ 256 < out.length := by
    rw [h.overflow_8to5_iff, q.length_input]
    omega
  refine completesOk_of_rule (o := ⟨0, out, []⟩) hq ?_
  rw [ruleOf_conv8to5 (by omega), convertbits_8to5_iff.2 h, Res.bind_ok, decide_eq_false hfits, failIf_false]

theorem conv8to5_overflow (hi : 160 < q.ilen.toNat) (hle : q.ilen.toNat ≤ 256) (h : Regroups 8 5 pad q.input out) :
    CompletesFail (.conv8to5 pad) s 17 := by
  have hover : 256 < out.length := by rwa [h.overflow_8to5_iff, q.length_input]
  refine completesFail_of_rule (c := .outputOverflow) hq ?_
  rw [ruleOf_conv8to5 hle, convertbits_8to5_iff.2 h, Res.bind_ok, decide_eq_true hover, failIf_true]

theorem conv5to8_completesOk (hi : q.ilen.toNat ≤ 256) (h : Regroups 5 8 pad q.input out) :
    CompletesOk (.conv5to8 pad) s 0 out [] := by
  refine completesOk_of_rule (o := ⟨0, out, []⟩) hq ?_
  rw [ruleOf_conv5to8 hi, convertbits_5to8_iff.2 h, Res.bind_ok]

end

/-- Settles O48: a regrouping that fits the buffer, one that does not, and none. -/
theorem conv8to5Command : Obligations.Conv8to5Command := by
  intro s q hq
  obtain ⟨padded, _, hpadded⟩ := convertbits_8to5_pad q.input
  refine ⟨fun hi => ⟨padded, hpadded, conv8to5_completesOk hq hi hpadded⟩, fun out hi => conv8to5_completesOk hq hi,
    fun hi hle => conv8to5_overflow hq hi hle hpadded, fun out hi hle => conv8to5_overflow hq hi hle,
    fun hle hno => ?_, fun pad hgt => ?_⟩
  · refine completesFail_of_rule (i := .conv8to5 false) (c := .invalidPadding) hq ?_
    rw [ruleOf_conv8to5 hle, convertbits_8to5_noRegrouping hno, Res.bind_fail]
  · exact completesFail_of_rule (i := .conv8to5 pad) (c := .lengthError) hq (ruleOf_lengthError (.inr ⟨rfl, hgt⟩))

/-- Settles O49: a regrouping, none, and a cell that is no symbol. -/
theorem conv5to8Command : Obligations.Conv5to8Command := by
  intro s q hq
  refine ⟨fun hi hs => ?_, fun out hi => conv5to8_completesOk hq hi, fun hi hs hno => ?_, fun pad hi hs => ?_,
    fun pad hgt => ?_⟩
  · obtain ⟨out, _, hre⟩ := convertbits_5to8_pad hs
    exact ⟨out, hre, conv5to8_completesOk hq hi hre⟩
  · refine completesFail_of_rule (i := .conv5to8 false) (c := .invalidPadding) hq ?_
    rw [ruleOf_conv5to8 hi, convertbits_5to8_noRegrouping hs hno, Res.bind_fail]
  · refine completesFail_of_rule (i := .conv5to8 pad) (c := .bitConversionOverflow) hq ?_
    rw [ruleOf_conv5to8 hi, convertbits_5to8_overflow hs, Res.bind_fail]
  · exact completesFail_of_rule (i := .conv5to8 pad) (c := .lengthError) hq (ruleOf_lengthError (.inr ⟨rfl, hgt⟩))

end Sys2Proof.Machine
end

