-- ==== Sys2Proof/Proofs/CodecCommands.lean ====
section
/-! The commands of the string codec and of the witness address codec (44_string_codec.md R104, R105, 45_witness_address.md
R110, R111): what each rule answers on the snapshot. -/

namespace Sys2Proof.Machine

/-! ### STR_ENCODE and STR_DECODE -/

/-- The rule of STR_ENCODE on operands in range (R104). -/
theorem ruleOf_strEncode {q : InFlight} (hh : q.hlen.toNat ≤ 256) (hi : q.ilen.toNat ≤ 256) {var : BitVec 2} {v : Variant}
    (hv : NamesVariant var v) (hs : AllSymbols q.input) :
    ruleOf (.strEncode var) q =
      failIf (decide (256 < q.hlen.toNat + q.ilen.toNat + 7)) .outputOverflow
        (.ok { result := 0, out := stringEncode q.hrp (q.input.map (BitVec.setWidth 5)) v, out2 := [] }) := by
  refine (codecOperands_ok hh hi hv hs).trans ?_
  rw [List.length_map, q.length_hrp, q.length_input, capacity]

/-- Settles O55: the length of the encoded string is known before it is made. -/
theorem strEncodeCommand : Obligations.StrEncodeCommand := by
  intro s q var v hq hh hi hv
  refine ⟨fun hs hfits => ?_, fun hs hover => ?_, fun hs => ?_⟩
  · have hrule := ruleOf_strEncode hh hi hv hs
    rw [decide_eq_false (by omega), failIf_false] at hrule
    refine ⟨_, completesOk_of_rule hq hrule, ?_, ?_⟩
    · rw [stringEncode_length, List.length_map, q.length_hrp, q.length_input]
    · rw [stringEncode, List.map_append, ← List.append_assoc]
      rfl
  · refine completesFail_of_rule (i := .strEncode var) (c := .outputOverflow) hq ?_
    rw [ruleOf_strEncode hh hi hv hs, decide_eq_true hover, failIf_true]
  · exact completesFail_of_rule (i := .strEncode var) (c := .invalidSymbol) hq (codecOperands_invalidSymbol hh hi hv hs)

/-- Settles O56: the rule is `stringDecode` of the input, whose successes are the strings of the variant. -/
theorem strDecodeCommand : Obligations.StrDecodeCommand := by
  intro s q var v hq hi hv
  have hrule : ruleOf (.strDecode var) q = (stringDecode q.input v).bind fun r =>
      .ok { result := 0, out := symbolCells r.2, out2 := r.1 } := by
    show strDecodeRule var q = _
    rw [strDecodeRule, inputOperand_fits hi, Res.bind_ok, variantOperand_of_namesVariant hv, Res.bind_ok]
  have hfail : ∀ c, stringDecode q.input v = .fail c → CompletesFail (.strDecode var) s (failNumber c).toNat := by
    intro c hc
    exact completesFail_of_rule hq (by rw [hrule, hc, Res.bind_fail])
  refine ⟨fun hrp data hstr => ?_, fun hno => ?_, hfail⟩
  · refine completesOk_of_rule (i := .strDecode var) (o := ⟨0, symbolCells data, hrp⟩) hq ?_
    rw [hrule, stringDecode_of_isBech32String hstr, Res.bind_ok]
  · cases hc : stringDecode q.input v with
    | ok r => exact absurd ⟨r.1, r.2, isBech32String_of_stringDecode hc⟩ hno
    | fail c => exact ⟨_, stringDecode_failsIn q.input v c hc, hfail c hc⟩

/-! ### ADDR_ENCODE -/

/-- RESULT of the two address commands: the version, and M in bit 8 (R28). -/
theorem witnessResult_eq (ver : Byte) (m : Bool) :
    witnessResult ver m = BitVec.ofNat 32 (ver.toNat + if m then 256 else 0) := by
  have hver := ver.isLt
  rw [witnessResult, or_flag_eq (by rw [toNat_setWidth_byte]; exact hver), toNat_setWidth_byte]

section
variable {q : InFlight} (hh : q.hlen.toNat ≤ 256) (hi : q.ilen.toNat ≤ 256)
include hh hi

theorem ruleOf_addrEncode (imm : Byte) :
    ruleOf (.addrEncode imm) q = (addressEncode q.hrp imm q.input).bind fun r =>
      .ok { result := witnessResult imm r.2, out := r.1, out2 := [] } :=
  bothOperands_fit hh hi

theorem ruleOf_addrDecode :
    ruleOf .addrDecode q = (addressDecode q.hrp q.input).bind fun w =>
      .ok { result := witnessResult (w.version.setWidth 8) w.bech32m, out := w.program, out2 := [] } :=
  bothOperands_fit hh hi

variable {s : State} (hq : s.inflight = some q) {imm : Byte} {groups : List Byte}
include hq

/-- The code of the self-check is the code of the command (R107, R110). -/
theorem addrEncode_completesFail (hver : imm.toNat ≤ 31) (hg : convertbits q.input 8 5 true = .ok groups) {c : FailCode}
    (h : addressDecode q.hrp (addressString q.hrp imm groups) = .fail c) :
    CompletesFail (.addrEncode imm) s (failNumber c).toNat := by
  refine completesFail_of_rule hq ?_
  rw [ruleOf_addrEncode hh hi, addressEncode_eq hver hg, h, Res.bind_fail, Res.bind_fail]

theorem addrEncode_completesOk (hg : convertbits q.input 8 5 true = .ok groups)
    (hallow : VersionAllows imm.toNat q.input.length) (hfits : HrpFits q.hrp q.input.length) :
    CompletesOk (.addrEncode imm) s (BitVec.ofNat 32 (imm.toNat + if imm = 0 then 0 else 256))
      (addressString q.hrp imm groups) [] := by
  have hresult : witnessResult imm (imm != 0) = BitVec.ofNat 32 (imm.toNat + if imm = 0 then 0 else 256) := by
    rw [witnessResult_eq]
    by_cases h : imm = 0 <;> simp [h]
  have hrule := ruleOf_addrEncode hh hi imm
  rw [addressEncode_eq (hallow.1.trans (by decide)) hg, addressDecode_addressString_fits hg hallow hfits, Res.bind_ok,
    Res.bind_ok, hresult] at hrule
  exact completesOk_of_rule hq hrule

end

/-- Settles O59: the string is decoded by the self-check, whose outcome decides the command's. -/
theorem addrEncodeCommand : Obligations.AddrEncodeCommand := by
  intro s q imm hq hh hi
  obtain ⟨padded, hpadded, hre⟩ := convertbits_8to5_pad q.input
  refine ⟨fun hallow hfits => ⟨padded, hre, addrEncode_completesOk hh hi hq hpadded hallow hfits⟩, fun hgt => ?_,
    fun hver hno => ?_, ?_⟩
  · refine completesFail_of_rule (i := .addrEncode imm) (c := .invalidVersion) hq ?_
    rw [ruleOf_addrEncode hh hi, addressEncode_invalidVersion hgt, Res.bind_fail]
  · rcases addressDecode_addressString_cases (hrp := q.hrp) hver hpadded with hfits | ⟨c, hc, hfail⟩
    · exact absurd hfits hno
    · have hcode : ∀ c ∈ selfCheckCodes, (failNumber c).toNat ∈ [1, 2, 11, 4, 5, 13, 7, 8] := by decide
      exact ⟨_, hcode c hc, addrEncode_completesFail hh hi hq hver hpadded hfail⟩
  rintro groups str hver hg rfl
  have hfail {c : FailCode} : addressDecode q.hrp (addressString q.hrp imm groups) = .fail c →
      CompletesFail (.addrEncode imm) s (failNumber c).toNat := addrEncode_completesFail hh hi hq hver hg
  refine ⟨fun hbad => hfail (addressDecode_addressString_unprintable hbad), fun hp => ⟨fun hm =>
    hfail (addressDecode_addressString_mixedCase hp hm), fun hm => ⟨fun hempty =>
    hfail (addressDecode_addressString_emptyHrp hp hm hempty), fun hne hlong =>
    hfail (addressDecode_addressString_stringTooLong hp hm hne hlong), fun hne hshort hu => ⟨fun hdec =>
    hfail (addressDecode_addressString_hrpMismatch hp hm hne hshort hu hdec), fun hdec =>
    hfail (addressDecode_addressString_checksumMismatch hp hm hne hshort hdec)⟩, fun hne hshort hu => ?_⟩⟩⟩
  have hupper := not_hasUpper_iff.2 hu
  exact ⟨fun hgt => hfail (addressDecode_addressString_invalidVersion hp hupper hne hshort hver hgt),
    fun hle hno => hfail (addressDecode_addressString_invalidProgramLength hp hupper hne hshort hver hg hle hno)⟩

/-! ### ADDR_DECODE -/

/-- Settles O60: the rule is `addressDecode` of the input, whose successes are the witness addresses. -/
theorem addrDecodeCommand : Obligations.AddrDecodeCommand := by
  intro s q hq hh hi
  have hfail : ∀ c, addressDecode q.hrp q.input = .fail c → CompletesFail .addrDecode s (failNumber c).toNat := by
    intro c hc
    exact completesFail_of_rule hq (by rw [ruleOf_addrDecode hh hi, hc, Res.bind_fail])
  refine ⟨fun w hw => ?_, fun hno => ?_, hfail⟩
  · have hresult : witnessResult (w.version.setWidth 8) w.bech32m =
        BitVec.ofNat 32 (w.version.toNat + if w.bech32m then 256 else 0) := by
      rw [witnessResult_eq, BitVec.toNat_setWidth_of_le (by decide)]
    have hrule := ruleOf_addrDecode hh hi
    rw [addressDecode_of_isWitnessAddress hw, Res.bind_ok, hresult] at hrule
    exact completesOk_of_rule hq hrule
  · cases hc : addressDecode q.hrp q.input with
    | ok w => exact absurd ⟨w, isWitnessAddress_of_addressDecode hc⟩ hno
    | fail c => exact ⟨_, addressDecode_failsIn q.hrp q.input c hc, hfail c hc⟩

end Sys2Proof.Machine
end
